-- ==== Sys2Proof/Word.lean ====
section
/-! DEFINITION. The widths every other file speaks of, and the block's two input ports (30_encoding R80, R81). -/

namespace Sys2Proof

/-- A byte: a character of the serial line, an opcode, a register address (R81). -/
abbrev Byte := BitVec 8

/-- A 32-bit operand, register read or result (R21, R81). -/
abbrev Word := BitVec 32

/-- A packet: every command and every event is exactly 64 bits (R81). -/
abbrev Packet := BitVec 64

/-- The two input ports (R80). -/
inductive Port where
  /-- The command port, driven by the host. -/
  | command
  /-- The event port, driven by the environment. -/
  | event
deriving DecidableEq, Repr, Inhabited

end Sys2Proof
end

