-- ==== Sys2Proof/Config.lean ====
section
/-! DEFINITION. What an implementation fixes (00_scope R6): the numeric parameters, which the model takes as data, and the four mappings
the source names without giving (R213), which nothing in Lean can evaluate. -/

namespace Sys2Proof

/-- `PWM_RES_BITS`: 8, 9 or 10 (R6; the value taken by the spec is 10). -/
inductive PwmRes where
  | bits8
  | bits9
  | bits10
deriving DecidableEq, Repr, Inhabited

/-- `L = PWM_RES_BITS − 8`, the width of the fine duty field (R6). -/
def PwmRes.fineBits : PwmRes → Nat
  | .bits8 => 0
  | .bits9 => 1
  | .bits10 => 2

/-- The parameters of R6 that are numbers. -/
structure Params where
  /-- `TICK_NUM`. -/
  tickNum : Nat
  /-- `TICK_DEN`: the tick is `TICK_NUM / TICK_DEN` µs. -/
  tickDen : Nat
  /-- `TXQ_DEPTH`. -/
  txqDepth : Nat
  /-- `PWM_RES_BITS`. -/
  pwmRes : PwmRes
deriving DecidableEq, Repr, Inhabited

/-- The legal values of R6 and R47: a positive tick, and a queue of 3 to 255 bytes. -/
abbrev Params.Legal (p : Params) : Prop :=
  0 < p.tickNum ∧ 0 < p.tickDen ∧ 3 ≤ p.txqDepth ∧ p.txqDepth ≤ 255

/-- The values 95_test_vectors takes: 1 µs tick, depth 16, 10 bits (log 6, DESIGN CHOICE for `State.reset`). -/
def Params.vectors : Params := { tickNum := 1, tickDen := 1, txqDepth := 16, pwmRes := .bits10 }

/-- `P_MAP_ANGLE` (R214): from the smoothed sample to an angle. OPEN (log 7). R214 checks its range, so none is assumed here. -/
opaque Config.pMapAngle : BitVec 10 → Nat

/-- `P_MAP_BRIGHT` (R215): from the smoothed sample, the scaled period and `DUTY_MAX` to a duty value. OPEN (log 7). -/
opaque Config.pMapBright : BitVec 10 → Nat → Nat → Nat

/-- `P_MAP_MARQUEE` (R216): from the smoothed sample and MSTATE to OUT and the next MSTATE. OPEN (log 7). -/
opaque Config.pMapMarquee : BitVec 10 → BitVec 16 → Byte × BitVec 16

/-- `P_MAP_SINGLE` (R216), of the same type. OPEN (log 7). -/
opaque Config.pMapSingle : BitVec 10 → BitVec 16 → Byte × BitVec 16

end Sys2Proof
end

