-- ==== Sys2Proof/Syntax.lean ====
section
/-! DEFINITION. The instructions: one constructor per row of spec/opcode_table.json, with the row's operands
as 30_encoding R83 and R85 list them. -/

namespace Sys2Proof

/-- The seventeen packets of command set 1 (R83): twelve host commands, then five environment events. -/
inductive Instr where
  /-- NOP (R111). -/
  | nop
  /-- RDREG reg (R112). -/
  | rdreg (reg : Byte)
  /-- WRREG reg, data (R113). -/
  | wrreg (reg : Byte) (data : Word)
  /-- SRST (R116). -/
  | srst
  /-- ADSTART (R196). -/
  | adstart
  /-- TXBYTE byte (R245). -/
  | txbyte (byte : Byte)
  /-- TCALC (R132): commit bit, width bit, prescale, period in µs. -/
  | tcalc (c w : Bool) (ps : BitVec 16) (period : Word)
  /-- PWMSET value (R156). -/
  | pwmset (val : Word)
  /-- PWMDUTY (R157): commit bit, prescale, high time in µs. -/
  | pwmduty (c : Bool) (ps : BitVec 16) (val : Word)
  /-- PWMANGLE (R159): commit bit, prescale, angle in degrees. -/
  | pwmangle (c : Bool) (ps : BitVec 16) (val : Word)
  /-- SVFOLD (R161): commit bit, prescale (only with C = 1), signed input. -/
  | svfold (c : Bool) (ps : BitVec 16) (val : Word)
  /-- BINOUT (R219): commit bit, signed input. -/
  | binout (c : Bool) (val : Word)
  /-- EV_TMR (R135). -/
  | evTmr
  /-- EV_ADC sample (R197). -/
  | evAdc (sample : BitVec 10)
  /-- EV_BTN (R180). -/
  | evBtn
  /-- EV_RX byte, oe, fe (R230). -/
  | evRx (byte : Byte) (oe fe : Bool)
  /-- EV_TXTAKE (R247). -/
  | evTxtake
deriving DecidableEq, Repr, Inhabited

/-- The port a row belongs to (R83). -/
def Instr.port : Instr → Port
  | .nop | .rdreg _ | .wrreg _ _ | .srst | .adstart | .txbyte _ => .command
  | .tcalc _ _ _ _ | .pwmset _ | .pwmduty _ _ _ | .pwmangle _ _ _ | .svfold _ _ _ | .binout _ _ => .command
  | .evTmr | .evAdc _ | .evBtn | .evRx _ _ _ | .evTxtake => .event

end Sys2Proof
end

