-- ==== Sys2Proof/WellFormed.lean ====
section
/-! DEFINITION. Which instruction terms are packets of the block. Operand ranges are in the operands' types; the one
relation between operands is R86's for SVFOLD. -/

namespace Sys2Proof

/-- R86: for SVFOLD, B is reserved when C = 0, so a check-only SVFOLD carries no prescale. -/
def Instr.wf : Instr → Bool
  | .svfold c ps _ => c || ps == 0
  | .nop | .rdreg _ | .wrreg _ _ | .srst | .adstart | .txbyte _ => true
  | .tcalc _ _ _ _ | .pwmset _ | .pwmduty _ _ _ | .pwmangle _ _ _ | .binout _ _ => true
  | .evTmr | .evAdc _ | .evBtn | .evRx _ _ _ | .evTxtake => true

end Sys2Proof
end

