-- ==== Sys2Proof/Decode.lean ====
section
/-! DEFINITION. From packets to instructions and back (30_encoding R80 to R89), and the byte order of a packet on a byte-wide
transport (20_memory R62). -/

namespace Sys2Proof

/-! ## Fields (R81) -/

/-- OP, bits 63:56. -/
def packetOp (p : Packet) : Byte := p.extractLsb' 56 8

/-- S, bits 55:48. -/
def packetS (p : Packet) : Byte := p.extractLsb' 48 8

/-- B, bits 47:32. -/
def packetB (p : Packet) : BitVec 16 := p.extractLsb' 32 16

/-- A, bits 31:0. -/
def packetA (p : Packet) : Word := p.extractLsb' 0 32

/-- The packet with the four fields given (R81). -/
def packFields (op s : Byte) (b : BitVec 16) (a : Word) : Packet := op ++ s ++ b ++ a

/-- No bit of the packet is 1 among the reserved bits given for S, B and A (R86). -/
def reservedClear (p : Packet) (rs : Byte) (rb : BitVec 16) (ra : Word) : Bool :=
  packetS p &&& rs == 0 && packetB p &&& rb == 0 && packetA p &&& ra == 0

/-- The commit bit C = S[1] (R84), which is also FE of EV_RX (R85). -/
def selector1 (p : Packet) : Bool := (packetS p).getLsbD 1

/-- The width bit W = S[0] (R84), which is also OE of EV_RX (R85). -/
def selector0 (p : Packet) : Bool := (packetS p).getLsbD 0

/-! ## Decoding -/

/-- Why a command-port packet is no command: the block answers E_ILLEGAL (R87) or E_RESERVED (R86). -/
inductive CommandReject where
  /-- OP is not a CMD opcode of R83, the event opcodes included (R87). -/
  | illegal
  /-- OP is assigned and a reserved bit is 1 (R86). -/
  | reserved
deriving DecidableEq, Repr, Inhabited

/-- Why an event-port packet is no event (R88). -/
inductive EventReject where
  /-- OP is not one of 0x80 to 0x84. -/
  | opcode
  /-- OP is an event's and a reserved bit is 1. -/
  | reserved
deriving DecidableEq, Repr, Inhabited

/-- The instruction if the reserved bits are clear, else the rejection named. -/
def acceptIf {ε : Type} (clear : Bool) (e : ε) (i : Instr) : Except ε Instr :=
  if clear then .ok i else .error e

/-- The command-port decoder: it selects on OP alone (R83), then checks the row's reserved bits (R82, R86). -/
def decodeCommand (p : Packet) : Except CommandReject Instr :=
  match packetOp p with
  | 0x00#8 => acceptIf (reservedClear p 0xFF 0xFFFF 0xFFFFFFFF) .reserved .nop
  | 0x01#8 => acceptIf (reservedClear p 0x00 0xFFFF 0xFFFFFFFF) .reserved (.rdreg (packetS p))
  | 0x02#8 => acceptIf (reservedClear p 0x00 0xFFFF 0x00000000) .reserved (.wrreg (packetS p) (packetA p))
  | 0x03#8 => acceptIf (reservedClear p 0xFF 0xFFFF 0xFFFFFFFF) .reserved .srst
  | 0x04#8 => acceptIf (reservedClear p 0xFF 0xFFFF 0xFFFFFFFF) .reserved .adstart
  | 0x05#8 => acceptIf (reservedClear p 0xFF 0xFFFF 0xFFFFFF00) .reserved (.txbyte ((packetA p).setWidth 8))
  | 0x10#8 => acceptIf (reservedClear p 0xFC 0x0000 0x00000000) .reserved
      (.tcalc (selector1 p) (selector0 p) (packetB p) (packetA p))
  | 0x20#8 => acceptIf (reservedClear p 0xFF 0xFFFF 0x00000000) .reserved (.pwmset (packetA p))
  | 0x21#8 => acceptIf (reservedClear p 0xFD 0x0000 0x00000000) .reserved
      (.pwmduty (selector1 p) (packetB p) (packetA p))
  | 0x22#8 => acceptIf (reservedClear p 0xFD 0x0000 0x00000000) .reserved
      (.pwmangle (selector1 p) (packetB p) (packetA p))
  | 0x23#8 => acceptIf (reservedClear p 0xFD (if selector1 p then 0x0000 else 0xFFFF) 0x00000000) .reserved
      (.svfold (selector1 p) (packetB p) (packetA p))
  | 0x30#8 => acceptIf (reservedClear p 0xFD 0xFFFF 0x00000000) .reserved (.binout (selector1 p) (packetA p))
  | _ => .error .illegal

/-- The event-port decoder (R83, R88). -/
def decodeEvent (p : Packet) : Except EventReject Instr :=
  match packetOp p with
  | 0x80#8 => acceptIf (reservedClear p 0xFF 0xFFFF 0xFFFFFFFF) .reserved .evTmr
  | 0x81#8 => acceptIf (reservedClear p 0xFF 0xFFFF 0xFFFFFC00) .reserved (.evAdc ((packetA p).setWidth 10))
  | 0x82#8 => acceptIf (reservedClear p 0xFF 0xFFFF 0xFFFFFFFF) .reserved .evBtn
  | 0x83#8 => acceptIf (reservedClear p 0xFC 0xFFFF 0xFFFFFF00) .reserved
      (.evRx ((packetA p).setWidth 8) (selector0 p) (selector1 p))
  | 0x84#8 => acceptIf (reservedClear p 0xFF 0xFFFF 0xFFFFFFFF) .reserved .evTxtake
  | _ => .error .opcode

/-- Why a packet offered at a port is no instruction there. -/
inductive DecodeError where
  /-- Refused by the command port, which answers with an error status. -/
  | command (why : CommandReject)
  /-- Refused by the event port: the step does not exist. -/
  | event (why : EventReject)
deriving DecidableEq, Repr, Inhabited

/-- The decoder of either port (R80). -/
def decode (port : Port) (p : Packet) : Except DecodeError Instr :=
  match port with
  | .command => (decodeCommand p).mapError .command
  | .event => (decodeEvent p).mapError .event

/-! ## Bytes (R62) -/

/-- A packet on a byte-wide transport: least significant byte first (R62). -/
def bytesOfPacket (p : Packet) : List Byte :=
  [p.extractLsb' 0 8, p.extractLsb' 8 8, p.extractLsb' 16 8, p.extractLsb' 24 8,
   p.extractLsb' 32 8, p.extractLsb' 40 8, p.extractLsb' 48 8, p.extractLsb' 56 8]

/-- The packet at the head of a byte stream, and the rest; none where fewer than eight bytes stand. -/
def packetOfBytes : List Byte → Option (Packet × List Byte)
  | b0 :: b1 :: b2 :: b3 :: b4 :: b5 :: b6 :: b7 :: rest =>
      some (b7 ++ b6 ++ b5 ++ b4 ++ b3 ++ b2 ++ b1 ++ b0, rest)
  | _ => none

/-- The port a table packet is for: 0x00 to 0x7F are command opcodes, 0x80 to 0xFF event opcodes (R81). -/
def portOfPacket (p : Packet) : Port := if (packetOp p).getLsbD 7 then .event else .command

/-- The packet the opcode table numbers `w` in `nbits` bits; every bit above is 0. -/
def tablePacket (nbits w : Nat) : Packet := BitVec.ofNat 64 (w % 2 ^ nbits)

/-- The instruction read from a table word, laid out as bytes and offered at the port its opcode names. -/
def decodeTableWord (nbits w : Nat) : Option Instr :=
  match packetOfBytes (bytesOfPacket (tablePacket nbits w)) with
  | some (p, _) => (decode (portOfPacket p) p).toOption
  | none => none

/-! ## Encoding -/

/-- The opcode of a row (R83). -/
def Instr.opcode : Instr → Byte
  | .nop => 0x00
  | .rdreg _ => 0x01
  | .wrreg _ _ => 0x02
  | .srst => 0x03
  | .adstart => 0x04
  | .txbyte _ => 0x05
  | .tcalc _ _ _ _ => 0x10
  | .pwmset _ => 0x20
  | .pwmduty _ _ _ => 0x21
  | .pwmangle _ _ _ => 0x22
  | .svfold _ _ _ => 0x23
  | .binout _ _ => 0x30
  | .evTmr => 0x80
  | .evAdc _ => 0x81
  | .evBtn => 0x82
  | .evRx _ _ _ => 0x83
  | .evTxtake => 0x84

/-- The selector byte with S[1] and S[0] given (R82). -/
def selectorByte (s1 s0 : Bool) : Byte := (0 : BitVec 6) ++ BitVec.ofBool s1 ++ BitVec.ofBool s0

/-- The S field of an instruction (R82, R85). -/
def Instr.fieldS : Instr → Byte
  | .rdreg reg => reg
  | .wrreg reg _ => reg
  | .tcalc c w _ _ => selectorByte c w
  | .pwmduty c _ _ => selectorByte c false
  | .pwmangle c _ _ => selectorByte c false
  | .svfold c _ _ => selectorByte c false
  | .binout c _ => selectorByte c false
  | .evRx _ oe fe => selectorByte fe oe
  | .nop | .srst | .adstart | .txbyte _ | .pwmset _ => 0
  | .evTmr | .evAdc _ | .evBtn | .evTxtake => 0

/-- The B field: a prescale factor where the row has one (R82, R85). -/
def Instr.fieldB : Instr → BitVec 16
  | .tcalc _ _ ps _ => ps
  | .pwmduty _ ps _ => ps
  | .pwmangle _ ps _ => ps
  | .svfold _ ps _ => ps
  | .nop | .rdreg _ | .wrreg _ _ | .srst | .adstart | .txbyte _ | .pwmset _ | .binout _ _ => 0
  | .evTmr | .evAdc _ | .evBtn | .evRx _ _ _ | .evTxtake => 0

/-- The A field: a time, angle, value, byte or sample (R82, R85). -/
def Instr.fieldA : Instr → Word
  | .wrreg _ data => data
  | .txbyte byte => byte.setWidth 32
  | .tcalc _ _ _ period => period
  | .pwmset val => val
  | .pwmduty _ _ val => val
  | .pwmangle _ _ val => val
  | .svfold _ _ val => val
  | .binout _ val => val
  | .evAdc sample => sample.setWidth 32
  | .evRx byte _ _ => byte.setWidth 32
  | .nop | .rdreg _ | .srst | .adstart | .evTmr | .evBtn | .evTxtake => 0

/-- The packet of an instruction (R81, R82, R83). -/
def encode (i : Instr) : Packet := packFields i.opcode i.fieldS i.fieldB i.fieldA

end Sys2Proof
end

