-- ==== Sys2Proof/Machine/State.lean ====
section
/-! DEFINITION. The state of the block as plain data (10_state R20 to R57), why a step may stop, and hard reset (70_reset R300). -/

namespace Sys2Proof.Machine

/-! ## Names the spec gives -/

/-- The error codes of 60_exceptions R261, less OK. -/
inductive Err where
  | illegal | reserved | prescale0 | tcHigh | tcLow | pwmRange | pwmPeriod | angle | owner | regaddr | readonly | mode | adbusy
deriving DecidableEq, Repr, Inhabited

/-- The active output policy, one encoded value (10_state R39). -/
inductive Mode where
  | none | binary | angleSample | brightSample | marquee | zoneBlink | singleMarquee | state10 | state7 | parityDir
  | servoInput | binaryInput
deriving DecidableEq, Repr, Inhabited

/-- The four interrupt sources (60_exceptions R270). -/
inductive Src where
  | tmr | adc | btn | rx
deriving DecidableEq, Repr, Inhabited

/-- The two priority levels (R273). -/
inductive Level where
  | low | high
deriving DecidableEq, Repr, Inhabited

/-- A frame of the context stack: the level, and the first source the activation has not yet passed (10_state R50). -/
structure Frame where
  level : Level
  cursor : Fin 5
deriving DecidableEq, Repr, Inhabited

/-- The registers of 10_state R22, by name; `lbuf i` is address 0x40 + i. -/
inductive Reg where
  | status | errflags | iflags | ienable | iprio | gie | mode | reload | pwmpr | pwmdch | pwmdcl | pwps | svang | out
  | btncnt | tmrcnt | dbncfg | dbnstat | sflast | sfsmooth | dirinc | zonestat | mstate | linestat | rxlatch | adcdata
  | txlevel | rxrstcnt
  | lbuf (i : Fin 64)
deriving DecidableEq, Repr, Inhabited

/-- The access classes of 10_state R21; BTNIP's HW1 is a field's and is kept by IPRIO's read and write. -/
inductive Access where
  | ro | rw | w1c
deriving DecidableEq, Repr, Inhabited

/-- What a host command answers on the command port: status and result (30_encoding R80, 60_exceptions R262). -/
structure Response where
  status : Byte
  result : Word
deriving DecidableEq, Repr, Inhabited

/-- Who moves next: a step of one of the three agents (60_exceptions R285), or the power cycle (70_reset R300). -/
inductive Turn where
  /-- The host issues the packet at the head of `cmdPort`. -/
  | host
  /-- The environment offers the packet at the head of `evtPort`. -/
  | environment
  /-- The dispatcher's ENTER_HIGH (R278). -/
  | enterHigh
  /-- The dispatcher's ENTER_LOW (R279). -/
  | enterLow
  /-- The dispatcher's SERVICE (R281). -/
  | service
  /-- The dispatcher's RETURN (R284). -/
  | leave
  /-- Power is cycled: hard reset (R300). -/
  | powerCycle
deriving DecidableEq, Repr, Inhabited

/-- The line buffer's bytes as memory cells in canonical form: addresses strictly rising, no listed byte 0 (log 10). -/
abbrev Memory := List Host.Cell

/-! ## The state -/

/-- Everything 10_state R20 calls state, the response of the command port, and the model's own inputs and parameters.
INVENTORY.md lists each field with its rule and its reset value. -/
structure State where
  /-- STATUS.LASTERR (R23). -/
  lasterr : Byte
  /-- STATUS.CFGFAULT, sticky (R52). -/
  cfgFault : Bool
  /-- STATUS.ADBUSY (R23). -/
  adBusy : Bool
  /-- ERRFLAGS, bit `n` for code `n` in 1 to 13 (R25). -/
  errflags : BitVec 14
  /-- IFLAGS, bit by source index (R26). -/
  iflags : BitVec 4
  /-- IENABLE (R27). -/
  ienable : BitVec 4
  /-- IPRIO; its bit 2 is hard-wired 1 wherever it is read (R28). -/
  iprio : BitVec 4
  /-- GIE.GIEH (R29). -/
  gieh : Bool
  /-- GIE.GIEL (R29). -/
  giel : Bool
  /-- MODE (R39). -/
  mode : Mode
  /-- RELOAD.RELOAD (R30). -/
  reload : BitVec 16
  /-- RELOAD.RELW: false for 8 bits, true for 16 (R30). -/
  relw : Bool
  /-- PWMPR.PR (R31). -/
  pr : Byte
  /-- PWMDCH.DCH, the coarse duty field (R32). -/
  dch : Byte
  /-- PWMDCL.DCL, the fine duty field; its low `L` bits are the register (R32, log 8). -/
  dcl : BitVec 2
  /-- PWPS (R33). -/
  pwps : BitVec 16
  /-- SVANG (R34). -/
  svang : Byte
  /-- OUT (R35). -/
  out : Byte
  /-- BTNCNT (R36). -/
  btncnt : Byte
  /-- TMRCNT (R37). -/
  tmrcnt : BitVec 16
  /-- DBNCFG (R38). -/
  dbncfg : BitVec 16
  /-- DBNSTAT.DBNCNT (R38). -/
  dbncnt : BitVec 16
  /-- DBNSTAT.ARMED (R38). -/
  armed : Bool
  /-- SFLAST (R40). -/
  sflast : BitVec 10
  /-- SFSMOOTH (R40). -/
  sfsmooth : BitVec 10
  /-- DIRINC.INC (R41). -/
  inc : Bool
  /-- ZONESTAT.ZONE (R42). -/
  zone : BitVec 2
  /-- ZONESTAT.ZCNT (R42). -/
  zcnt : Byte
  /-- ZONESTAT.BLINK (R42). -/
  blink : Bool
  /-- MSTATE (R43). -/
  mstate : BitVec 16
  /-- LINESTAT.LEN (R44). -/
  len : BitVec 7
  /-- LINESTAT.LASTCH (R44). -/
  lastch : Byte
  /-- LINESTAT.LINECNT (R44). -/
  linecnt : BitVec 16
  /-- RXLATCH.RXBYTE (R45). -/
  rxbyte : Byte
  /-- RXLATCH.RXOERR (R45). -/
  rxoerr : Bool
  /-- RXLATCH.RXFERR (R45). -/
  rxferr : Bool
  /-- ADCDATA (R46). -/
  adcdata : BitVec 10
  /-- RXRSTCNT (R48). -/
  rxrstcnt : BitVec 16
  /-- LBUF (R49). -/
  lbuf : Memory
  /-- STACK, top frame first (R50, log 11). -/
  stack : List Frame
  /-- The model's own: RX's level has an activation that was at RX, its service holding, when an event came; it waits there
  (60_exceptions R281, 70_reset R314, log 21). -/
  rxWaits : Bool
  /-- TXQ, head first (R51). -/
  txq : List Byte
  /-- Channel TMRLOAD, oldest first (R55). -/
  tmrload : List (BitVec 16 × Bool)
  /-- Channel PRESS (R55). -/
  press : List Unit
  /-- Channel LINES (R55). -/
  lines : List (List Byte)
  /-- Channel RXTOGGLE (R55). -/
  rxtoggle : List Unit
  /-- Channel TXOUT (R55). -/
  txout : List Byte
  /-- The response now on the command port (R80, R262, log 9). -/
  resp : Option Response
  /-- The implementation's parameters (00_scope R6, log 6); no step writes them. -/
  params : Params
  /-- The model's own: packets the host has still to issue (log 3). -/
  cmdPort : List Packet
  /-- The model's own: packets the environment has still to offer (log 3). -/
  evtPort : List Packet
  /-- The model's own: the turns already drawn (log 1). -/
  turns : List Turn
deriving DecidableEq, Repr

/-! ## Why a step may stop -/

/-- A step that stops the machine. -/
inductive Fault where
  /-- MemRead or MemWrite at an index outside 0 to 63 (20_memory R61): raised by the RX service when LEN is above 63, which
  10_state R56 excludes from every run. SAFE: the model stops where no run of the block comes. -/
  | lbufAddress (index : Nat)
deriving DecidableEq, Repr, Inhabited

/-- A step that has no meaning. -/
inductive Refusal where
  /-- An instruction without a meaning, by its mnemonic: raised by an arm of `exec` that has none. SAFE: the model stops. -/
  | notModelled (mnemonic : String)
  /-- An event-port packet that is not an event: "The model refuses it by name" (30_encoding R88). Raised by the environment's turn.
  SAFE: the peripherals never produce such a packet (93_implementation_defined A5). -/
  | malformedEvent (why : EventReject)
deriving DecidableEq, Repr, Inhabited

/-- The outcome of a step of the block. -/
abbrev Step := Host.Outcome State Fault Refusal

/-! ## Hard reset -/

/-- The block of parameters `p` after hard reset (R22, R300): the parameters are not state and stay as they are. -/
def State.resetWith (p : Params) : State :=
  { lasterr := 0x00, cfgFault := false, adBusy := false, errflags := 0, iflags := 0, ienable := 0, iprio := 0b0100
    gieh := false, giel := false, mode := .none, reload := 0x0000, relw := true, pr := 0xFF, dch := 0x00, dcl := 0
    pwps := 1, svang := 0, out := 0x00, btncnt := 0, tmrcnt := 0, dbncfg := 200, dbncnt := 0, armed := false
    sflast := 0, sfsmooth := 0, inc := false, zone := 0, zcnt := 0, blink := false, mstate := 0
    len := 0, lastch := 0x00, linecnt := 0, rxbyte := 0x00, rxoerr := false, rxferr := false, adcdata := 0, rxrstcnt := 0
    lbuf := [], stack := [], rxWaits := false, txq := [], tmrload := [], press := [], lines := [], rxtoggle := [], txout := []
    resp := none, params := p, cmdPort := [], evtPort := [], turns := [] }

/-- The machine right after reset: the block with the parameters of 95_test_vectors (log 6), and nothing placed at its ports. -/
def State.reset : State := State.resetWith Params.vectors

end Sys2Proof.Machine
end

