-- ==== Sys2Proof/Machine/Flags.lean ====
section
/-! DEFINITION. Error codes and error flags (60_exceptions R261, R262), and the pending, enable and priority flags with the request logic
computed from them (R270 to R276). The block has no arithmetic condition codes (10_state R54). -/

namespace Sys2Proof.Machine

/-! ## Error codes -/

/-- The 8-bit status code of an error (R261). -/
def Err.code : Err → Byte
  | .illegal => 0x01
  | .reserved => 0x02
  | .prescale0 => 0x03
  | .tcHigh => 0x04
  | .tcLow => 0x05
  | .pwmRange => 0x06
  | .pwmPeriod => 0x07
  | .angle => 0x08
  | .owner => 0x09
  | .regaddr => 0x0A
  | .readonly => 0x0B
  | .mode => 0x0C
  | .adbusy => 0x0D

/-- The error a rejected command packet is answered with (30_encoding R86, R87). -/
def errOfReject : CommandReject → Err
  | .illegal => .illegal
  | .reserved => .reserved

/-- ERRFLAGS with the bit of one code set (10_state R25). -/
def flagsWith (f : BitVec 14) (e : Err) : BitVec 14 := f ||| (1#14 <<< e.code.toNat)

/-- One check of a command: its error where the condition holds. Checks are put in the order of R263 with `<|>`. -/
def check (failed : Prop) [Decidable failed] (e : Err) : Option Err := if failed then some e else none

/-! ## Source flags -/

/-- A source's index: its bit in IFLAGS, IENABLE and IPRIO and its place in the service order (R270). -/
def Src.index : Src → Nat
  | .tmr => 0
  | .adc => 1
  | .btn => 2
  | .rx => 3

/-- The sources in index order (R270, R281). -/
def allSources : List Src := [.tmr, .adc, .btn, .rx]

/-- The cursor just past a source (R281). -/
def Src.past : Src → Fin 5
  | .tmr => 1
  | .adc => 2
  | .btn => 3
  | .rx => 4

/-- The pending flag of a source (R271). -/
def State.pending (s : State) (x : Src) : Bool := s.iflags.getLsbD x.index

/-- The enable bit of a source (R272). -/
def State.sourceEnabled (s : State) (x : Src) : Bool := s.ienable.getLsbD x.index

/-- IPRIO as every reader sees it: BTNIP reads 1 (10_state R28). -/
def State.priority (s : State) : BitVec 4 := s.iprio ||| 0b0100#4

/-- The level a source belongs to (R273). -/
def State.levelOf (s : State) (x : Src) : Level := if s.priority.getLsbD x.index then .high else .low

/-- `active(s) = IF[s] and IE[s]` (R272). -/
def State.active (s : State) (x : Src) : Bool := s.pending x && s.sourceEnabled x

/-- `req(lv)` (R276). -/
def State.request (s : State) (lv : Level) : Bool := allSources.any fun x => s.active x && s.levelOf x == lv

/-- `req_high` (R276). -/
def State.reqHigh (s : State) : Bool := s.gieh && s.request .high

/-- `req_low` (R276). -/
def State.reqLow (s : State) : Bool := s.gieh && s.giel && s.request .low

/-- A source's event sets its flag (R271). -/
def State.setPending (s : State) (x : Src) : State := { s with iflags := s.iflags ||| (1#4 <<< x.index) }

/-- A source's service clears its flag (R282). -/
def State.clearPending (s : State) (x : Src) : State := { s with iflags := s.iflags &&& ~~~(1#4 <<< x.index) }

/-- `record(code)`: a failed check inside a service is noted in ERRFLAGS and nowhere else (44_sample_filter R217). -/
def State.record (s : State) (e : Err) : State := { s with errflags := flagsWith s.errflags e }

end Sys2Proof.Machine
end

