-- ==== Sys2Proof/Machine/Operands.lean ====
section
/-! DEFINITION. The operand forms (30_encoding R84, R85): assembled with no scaling and no shift, and read as mathematical integers (00_scope R9). -/

namespace Sys2Proof.Machine

/-- PERIOD, a high time, an angle or a duty value: `zext(A)` (R85). -/
abbrev unsignedOperand (a : Word) : Nat := a.toNat

/-- The inputs of SVFOLD and BINOUT: `sext_32(A)` (R85). -/
abbrev signedOperand (a : Word) : Int := a.toInt

/-- PS: `zext(B)`; 0 is decoded and refused by the command's check (R85). -/
abbrev prescaleOperand (b : BitVec 16) : Nat := b.toNat

/-- The counter width W selects (R84, R132). -/
def widthOperand (w : Bool) : Nat := if w then 16 else 8

/-- The field bits of a written value from bit 0 up: the rest of DATA is ignored (10_state R21). -/
def dataField (n : Nat) (data : Word) : BitVec n := data.setWidth n

/-- A result no wider than a register, zero-extended to 32 bits (R10 `zext_32`). -/
def resultOf (v : Nat) : Word := BitVec.ofNat 32 v

end Sys2Proof.Machine
end

