-- ==== Sys2Proof/Machine/Ops.lean ====
section
/-! DEFINITION. The named operations every meaning is built from: the line buffer's bytes (20_memory R61), the end of a host command
(60_exceptions R262 to R264), entering and leaving a handler level (R277 to R284), the transmit queue (45_serial_line R246), the resources
a mode owns (10_state R39), and hard reset in the course of a run (70_reset R300). -/

namespace Sys2Proof.Machine

/-! ## Line buffer -/

/-- The byte at an index; an unlisted byte reads 0x00, its reset value (R300). -/
def Memory.peek : Memory → Nat → Byte
  | [], _ => 0
  | (b, w) :: rest, a => if b = a then w else Memory.peek rest a

/-- The cells with one byte changed, kept canonical: writing 0 removes the entry. -/
def Memory.poke : Memory → Nat → Byte → Memory
  | [], a, v => if v = 0 then [] else [(a, v)]
  | (b, w) :: rest, a, v =>
      if a < b then (if v = 0 then (b, w) :: rest else (a, v) :: (b, w) :: rest)
      else if a = b then (if v = 0 then rest else (a, v) :: rest)
      else (b, w) :: Memory.poke rest a v

/-- `MemRead(i, 1)` (R61). -/
def Memory.read (m : Memory) (i : Nat) : Except Fault Byte :=
  if i < 64 then .ok (m.peek i) else .error (.lbufAddress i)

/-- `MemWrite(i, 1, v)` (R61). -/
def Memory.write (m : Memory) (i : Nat) (v : Byte) : Except Fault Memory :=
  if i < 64 then .ok (m.poke i v) else .error (.lbufAddress i)

/-- `for i in 0 .. n − 1: MemWrite(i, 1, 0)` (45_serial_line R236, 40_host_commands R116). -/
def Memory.zeroBelow (m : Memory) (n : Nat) : Memory := m.filter fun c => n ≤ c.1

/-- The canonical form: addresses 0 to 63 strictly rising, and no listed byte equal to the 0 an unlisted one reads as. -/
def Memory.wf (m : Memory) : Bool :=
  m.all (fun c => decide (c.1 < 64) && c.2 != 0) && decide (m.Pairwise fun c d => c.1 < d.1)

/-! ## The end of a host command -/

/-- `respond` with status 0: the result goes to the port and LASTERR becomes 0 (R262). -/
def State.succeed (s : State) (result : Word) : State :=
  { s with lasterr := 0x00, resp := some { status := 0x00, result := result } }

/-- `raise Error(e)` and its recording: the status goes to the port with result 0, LASTERR takes it, and its ERRFLAGS bit is set (R262). -/
def State.raise (s : State) (e : Err) : State :=
  { s with lasterr := e.code, errflags := flagsWith s.errflags e, resp := some { status := e.code, result := 0 } }

/-- A command's end: its first failed check, raised against the state before the command, or the state it leaves and its result
(R262, R264). -/
def State.answer (s : State) (failed : Option Err) (after : State) (result : Word) : State :=
  match failed with
  | some e => s.raise e
  | none => after.succeed result

/-- A host command step is taken in FG only (R286); where the context stack is not empty it is not enabled and nothing changes (log 4). -/
def State.command (s after : State) : Step := .next (if s.stack = [] then after else s)

/-! ## Entering and leaving a level: the block's exceptions -/

/-- Entry to a level pushes its frame with cursor 0 and saves nothing else (R278 to R280). -/
def State.enter (s : State) (lv : Level) : State := { s with stack := { level := lv, cursor := 0 } :: s.stack }

/-- Return pops the top frame and restores nothing (R284). -/
def State.leave (s : State) : State := { s with stack := s.stack.tail }

/-- The top frame replaced, as a service moves its cursor on (R281). -/
def State.setTop (s : State) (f : Frame) (rest : List Frame) : State := { s with stack := f :: rest }

/-- The wait of an activation at RX ends with the service of RX (log 21). -/
def State.endWait (s : State) (x : Src) : State := { s with rxWaits := s.rxWaits && x != .rx }

/-- STATUS.CTX (10_state R23): 0 in FG, 1 for [LOW], 2 for [HIGH], 3 for [LOW, HIGH]. -/
def State.ctx (s : State) : BitVec 2 :=
  match s.stack with
  | [] => 0
  | [f] => if f.level = .low then 1 else 2
  | _ :: _ :: _ => 3

/-! ## Transmit queue -/

/-- `length(TXQ) = TXQ_DEPTH`, what a TXBYTE waits on (45_serial_line R245). -/
def State.txFull (s : State) : Bool := s.txq.length == s.params.txqDepth

/-- `enqueue_tx` of each byte in turn: appended at the tail (R246). -/
def State.enqueueTx (s : State) (bs : List Byte) : State := { s with txq := s.txq ++ bs }

/-! ## Ownership of the outputs -/

/-- The modes that own LED, so OUT (10_state R39). -/
def Mode.ownsLed : Mode → Bool
  | .binary | .marquee | .zoneBlink | .singleMarquee | .state10 | .state7 | .parityDir => true
  | .none | .angleSample | .brightSample | .servoInput | .binaryInput => false

/-- The modes that own PWM, so DCH, DCL and SVANG (10_state R39). -/
def Mode.ownsPwm : Mode → Bool
  | .angleSample | .brightSample | .zoneBlink => true
  | .none | .binary | .marquee | .singleMarquee | .state10 | .state7 | .parityDir | .servoInput | .binaryInput => false

/-- `out4(v)`: OUT[3:0] becomes `v` and OUT[7:4] stays (44_sample_filter R204). -/
def State.out4 (s : State) (v : Nat) : State :=
  { s with out := s.out.extractLsb' 4 4 ++ BitVec.ofNat 4 v }

/-- The mode-local state cleared (R203). -/
def State.clearModeLocal (s : State) : State :=
  { s with inc := false, zone := 0, zcnt := 0, blink := false, mstate := 0 }

/-! ## Ports and turns: the model's own inputs -/

/-- The packets left at the command port once its head has been issued (log 3). -/
def State.leaveCommands (s : State) (rest : List Packet) : State := { s with cmdPort := rest }

/-- The packets left at the event port once its head has been offered (log 3). -/
def State.leaveEvents (s : State) (rest : List Packet) : State := { s with evtPort := rest }

/-- The turns left once one has been taken (log 1). -/
def State.leaveTurns (s : State) (rest : List Turn) : State := { s with turns := rest }

/-! ## Hard reset in the course of a run -/

/-- The power cycle (70_reset R300): all state to its reset value; the parameters and what the host and the environment have
still to send are not the block's state and stay (log 13). -/
def State.hardReset (s : State) : State :=
  { State.resetWith s.params with cmdPort := s.cmdPort, evtPort := s.evtPort, turns := s.turns }

end Sys2Proof.Machine
end

