-- ==== Sys2Proof/Machine/Pwm.lean ====
section
/-! DEFINITION. The PWM duty-split register mapper (42_pwm_mapper R150 to R164): the channel's arithmetic and PWMSET, PWMDUTY, PWMANGLE, SVFOLD. -/

namespace Sys2Proof.Machine

/-! ## Channel arithmetic -/

/-- `DUTY_MAX = 2^PWM_RES_BITS − 1` (R151), with `PWM_RES_BITS = 8 + L`. -/
def dutyMax (p : Params) : Nat := 2 ^ (8 + p.pwmRes.fineBits) - 1

/-- The scaled period of a period register value: `(PR + 1) × 2^L` (R151). -/
def scaledPeriod (p : Params) (pr : Byte) : Nat := (pr.toNat + 1) * 2 ^ p.pwmRes.fineBits

/-- `PS`, the scaled period in force (R151). -/
def State.periodScaled (s : State) : Nat := scaledPeriod s.params s.pr

/-- `DUTY_FULL = min(PS, DUTY_MAX)` (R151). -/
def State.dutyFull (s : State) : Nat := min s.periodScaled (dutyMax s.params)

/-- `duty_count(t, ps)`: one floor (R151). -/
def dutyCount (p : Params) (t ps : Nat) : Nat := t * p.tickDen / (p.tickNum * ps)

/-- The DCL register: the low `L` bits of the fine field (10_state R32). -/
def State.fine (s : State) : Nat := s.dcl.toNat % 2 ^ s.params.pwmRes.fineBits

/-- `DUTY = DCH × 2^L + DCL` (10_state R32). -/
def State.duty (s : State) : Nat := s.dch.toNat * 2 ^ s.params.pwmRes.fineBits + s.fine

/-- `pwm_check(v)`: E_PWM_RANGE above `DUTY_MAX`, then E_PWM_PERIOD above `PS` (R152). -/
def State.pwmCheck (s : State) (v : Nat) : Option Err :=
  check (dutyMax s.params < v) .pwmRange <|> check (s.periodScaled < v) .pwmPeriod

/-- The coarse byte of a duty value, `v >> L` (R153). -/
def coarseOf (p : Params) (v : Nat) : Nat := v / 2 ^ p.pwmRes.fineBits

/-- The fine bits of a duty value, `v and (2^L − 1)` (R153). -/
def fineOf (p : Params) (v : Nat) : Nat := v % 2 ^ p.pwmRes.fineBits

/-- `pwm_write(v)`, one indivisible write of both fields (R153). -/
def State.pwmWrite (s : State) (v : Nat) : State :=
  { s with dch := BitVec.ofNat 8 (coarseOf s.params v), dcl := BitVec.ofNat 2 (fineOf s.params v) }

/-- `angle_to_us(a) = 450 + (a × 2000) / 180`, the one floor last (R155). -/
def angleToUs (a : Nat) : Nat := 450 + a * 2000 / 180

/-- `servo_value(a, ps)` (R154). -/
def servoValue (p : Params) (a ps : Nat) : Nat := dutyCount p (angleToUs a) ps

/-- The write of `servo_write`: the duty of a servo value and SVANG together (R154). -/
def State.servoSet (s : State) (v a : Nat) : State := { s.pwmWrite v with svang := BitVec.ofNat 8 a }

/-- `{fine, coarse, value}`: bits 31:24, 23:16 and 15:0 (R164). -/
def pwmResult (p : Params) (v : Nat) : Word :=
  BitVec.ofNat 8 (fineOf p v) ++ BitVec.ofNat 8 (coarseOf p v) ++ BitVec.ofNat 16 v

/-- `fold(i)`: truncated remainder of `i + 90` by 181, and +180 where it is negative (R160). -/
def fold (i : Int) : Nat :=
  let r := Int.tmod (i + 90) 181
  (if r < 0 then r + 180 else r).toNat

/-- The ownership check of a command that writes the PWM resource (R162). -/
def State.pwmOwned (s : State) : Option Err := check (s.mode.ownsPwm = true) .owner

/-! ## Instructions -/

/-- PWMSET (R156). -/
def execPwmset (val : Word) (s : State) : Step :=
  let v := unsignedOperand val
  s.command (s.answer (s.pwmCheck v <|> s.pwmOwned) (s.pwmWrite v) (pwmResult s.params v))

/-- PWMDUTY (R157). -/
def execPwmduty (c : Bool) (ps : BitVec 16) (val : Word) (s : State) : Step :=
  let v := dutyCount s.params (unsignedOperand val) (prescaleOperand ps)
  s.command (s.answer
    (check (prescaleOperand ps = 0) .prescale0 <|> s.pwmCheck v <|> (if c then s.pwmOwned else none))
    (if c then s.pwmWrite v else s) (pwmResult s.params v))

/-- PWMANGLE (R159). -/
def execPwmangle (c : Bool) (ps : BitVec 16) (val : Word) (s : State) : Step :=
  let a := unsignedOperand val
  let v := servoValue s.params a (prescaleOperand ps)
  s.command (s.answer
    (check (prescaleOperand ps = 0) .prescale0 <|> check (180 < a) .angle <|> s.pwmCheck v
      <|> (if c then s.pwmOwned else none))
    (if c then s.servoSet v a else s) (pwmResult s.params v))

/-- SVFOLD (R161): with C = 0 nothing is checked and nothing written. -/
def execSvfold (c : Bool) (ps : BitVec 16) (val : Word) (s : State) : Step :=
  let a := fold (signedOperand val)
  let v := servoValue s.params a (prescaleOperand ps)
  s.command (s.answer
    (if c then check (prescaleOperand ps = 0) .prescale0 <|> s.pwmCheck v <|> s.pwmOwned else none)
    (if c then s.servoSet v a else s) (resultOf a))

end Sys2Proof.Machine
end

