-- ==== Sys2Proof/Machine/HostCommands.lean ====
section
/-! DEFINITION. Host register access and soft reset (40_host_commands R110 to R117) over the register map of 10_state R22: NOP, RDREG, WRREG, SRST. -/

namespace Sys2Proof.Machine

/-! ## The register map -/

/-- The register at an address; none where the address is unmapped, 0x1C to 0x3F and 0x80 to 0xFF (R22). -/
def Reg.ofAddr (a : Byte) : Option Reg :=
  match a with
  | 0x00#8 => some .status
  | 0x01#8 => some .errflags
  | 0x02#8 => some .iflags
  | 0x03#8 => some .ienable
  | 0x04#8 => some .iprio
  | 0x05#8 => some .gie
  | 0x06#8 => some .mode
  | 0x07#8 => some .reload
  | 0x08#8 => some .pwmpr
  | 0x09#8 => some .pwmdch
  | 0x0A#8 => some .pwmdcl
  | 0x0B#8 => some .pwps
  | 0x0C#8 => some .svang
  | 0x0D#8 => some .out
  | 0x0E#8 => some .btncnt
  | 0x0F#8 => some .tmrcnt
  | 0x10#8 => some .dbncfg
  | 0x11#8 => some .dbnstat
  | 0x12#8 => some .sflast
  | 0x13#8 => some .sfsmooth
  | 0x14#8 => some .dirinc
  | 0x15#8 => some .zonestat
  | 0x16#8 => some .mstate
  | 0x17#8 => some .linestat
  | 0x18#8 => some .rxlatch
  | 0x19#8 => some .adcdata
  | 0x1A#8 => some .txlevel
  | 0x1B#8 => some .rxrstcnt
  | a => if a.extractLsb' 6 2 = 1#2 then some (.lbuf (a.extractLsb' 0 6).toFin) else none

/-- The access class of a register (R22). -/
def Reg.access : Reg → Access
  | .errflags => .w1c
  | .iflags | .ienable | .iprio | .gie | .mode | .pwmpr | .pwps | .out | .dbncfg => .rw
  | .status | .reload | .pwmdch | .pwmdcl | .svang | .btncnt | .tmrcnt | .dbnstat | .sflast | .sfsmooth | .dirinc | .zonestat
  | .mstate | .linestat | .rxlatch | .adcdata | .txlevel | .rxrstcnt | .lbuf _ => .ro

/-- The 4-bit code of a mode (R39). -/
def Mode.code : Mode → BitVec 4
  | .none => 0
  | .binary => 1
  | .angleSample => 2
  | .brightSample => 3
  | .marquee => 4
  | .zoneBlink => 5
  | .singleMarquee => 6
  | .state10 => 7
  | .state7 => 8
  | .parityDir => 9
  | .servoInput => 10
  | .binaryInput => 11

/-- The mode of a code; none for the reserved codes 12 to 15 (R39). -/
def Mode.ofCode (c : BitVec 4) : Option Mode :=
  match c with
  | 0#4 => some .none
  | 1#4 => some .binary
  | 2#4 => some .angleSample
  | 3#4 => some .brightSample
  | 4#4 => some .marquee
  | 5#4 => some .zoneBlink
  | 6#4 => some .singleMarquee
  | 7#4 => some .state10
  | 8#4 => some .state7
  | 9#4 => some .parityDir
  | 10#4 => some .servoInput
  | 11#4 => some .binaryInput
  | _ => Option.none

/-- A register as RDREG reads it: its fields at their bit positions, 0 elsewhere (R21, R22). -/
def State.readReg (s : State) : Reg → Word
  | .status => (0 : BitVec 20) ++ s.ctx ++ BitVec.ofBool s.adBusy ++ BitVec.ofBool s.cfgFault ++ s.lasterr
  | .errflags => (s.errflags &&& 0x3FFE#14).setWidth 32
  | .iflags => s.iflags.setWidth 32
  | .ienable => s.ienable.setWidth 32
  | .iprio => s.priority.setWidth 32
  | .gie => (0 : BitVec 30) ++ BitVec.ofBool s.giel ++ BitVec.ofBool s.gieh
  | .mode => s.mode.code.setWidth 32
  | .reload => (0 : BitVec 15) ++ BitVec.ofBool s.relw ++ s.reload
  | .pwmpr => s.pr.setWidth 32
  | .pwmdch => s.dch.setWidth 32
  | .pwmdcl => BitVec.ofNat 32 s.fine
  | .pwps => s.pwps.setWidth 32
  | .svang => s.svang.setWidth 32
  | .out => s.out.setWidth 32
  | .btncnt => s.btncnt.setWidth 32
  | .tmrcnt => s.tmrcnt.setWidth 32
  | .dbncfg => s.dbncfg.setWidth 32
  | .dbnstat => (0 : BitVec 15) ++ BitVec.ofBool s.armed ++ s.dbncnt
  | .sflast => s.sflast.setWidth 32
  | .sfsmooth => s.sfsmooth.setWidth 32
  | .dirinc => (BitVec.ofBool s.inc).setWidth 32
  | .zonestat => (0 : BitVec 15) ++ BitVec.ofBool s.blink ++ s.zcnt ++ (0 : BitVec 6) ++ s.zone
  | .mstate => s.mstate.setWidth 32
  | .linestat => s.linecnt ++ s.lastch ++ (0 : BitVec 1) ++ s.len
  | .rxlatch => (0 : BitVec 22) ++ BitVec.ofBool s.rxferr ++ BitVec.ofBool s.rxoerr ++ s.rxbyte
  | .adcdata => s.adcdata.setWidth 32
  | .txlevel => (0 : BitVec 16) ++ BitVec.ofNat 8 s.params.txqDepth ++ BitVec.ofNat 8 s.txq.length
  | .rxrstcnt => s.rxrstcnt.setWidth 32
  | .lbuf i => (s.lbuf.peek i.val).setWidth 32

/-- One register's fields written (R114). -/
def State.setErrflags (s : State) (f : BitVec 14) : State := { s with errflags := f }
def State.setIflags (s : State) (f : BitVec 4) : State := { s with iflags := f }
def State.setIenable (s : State) (f : BitVec 4) : State := { s with ienable := f }
def State.setIprio (s : State) (f : BitVec 4) : State := { s with iprio := f }
def State.setGie (s : State) (h l : Bool) : State := { s with gieh := h, giel := l }
def State.setMode (s : State) (m : Mode) : State := { s with mode := m }
def State.setPeriod (s : State) (p : Byte) : State := { s with pr := p }
def State.setPwps (s : State) (p : BitVec 16) : State := { s with pwps := p }
def State.setOut (s : State) (o : Byte) : State := { s with out := o }
def State.setDbncfg (s : State) (n : BitVec 16) : State := { s with dbncfg := n }

/-- The write of MODE (R115): a reserved code is refused; a change of value clears the mode-local state first. -/
def State.writeMode (s : State) (data : Word) : Except Err State :=
  match Mode.ofCode (dataField 4 data) with
  | Option.none => .error .mode
  | some m => .ok (if m = s.mode then s else s.clearModeLocal.setMode m)

/-- The write of each register (R113, R114): the check in order, then the field bits; RO registers are refused. -/
def State.writeReg (s : State) (r : Reg) (data : Word) : Except Err State :=
  match r with
  | .errflags => .ok (s.setErrflags (s.errflags &&& ~~~(dataField 14 data &&& 0x3FFE#14)))
  | .iflags => .ok (s.setIflags (dataField 4 data))
  | .ienable => .ok (s.setIenable (dataField 4 data))
  | .iprio => .ok (s.setIprio (dataField 4 data ||| 0b0100#4))
  | .gie => .ok (s.setGie (data.getLsbD 0) (data.getLsbD 1))
  | .mode => s.writeMode data
  | .pwmpr => if scaledPeriod s.params (dataField 8 data) < s.duty then .error .pwmPeriod
              else .ok (s.setPeriod (dataField 8 data))
  | .pwps => if dataField 16 data = 0 then .error .prescale0 else .ok (s.setPwps (dataField 16 data))
  | .out => if s.mode.ownsLed then .error .owner else .ok (s.setOut (dataField 8 data))
  | .dbncfg => .ok (s.setDbncfg (dataField 16 data))
  | .status | .reload | .pwmdch | .pwmdcl | .svang | .btncnt | .tmrcnt | .dbnstat | .sflast | .sfsmooth | .dirinc | .zonestat
  | .mstate | .linestat | .rxlatch | .adcdata | .txlevel | .rxrstcnt | .lbuf _ => .error .readonly

/-- What SRST sets (R116): counters, unit state machines and the line buffer. Everything else stays (R117).
DESIGN CHOICE (log 22): 20_memory R66 says that SRST is not idempotent, while R116 writes constants only, so that a second SRST that follows at
once changes nothing further; the model follows R116. -/
def State.softReset (s : State) : State :=
  { s.clearModeLocal with
    btncnt := 0, tmrcnt := 0, svang := 0, armed := false, dbncnt := 0, sflast := 0, sfsmooth := 0
    len := 0, lastch := 0x00, linecnt := 0, rxrstcnt := 0, lbuf := s.lbuf.zeroBelow 64 }

/-! ## Instructions -/

/-- NOP (R111). -/
def execNop (s : State) : Step := s.command (s.succeed 0)

/-- RDREG (R112): the result is read from the state before the command. -/
def execRdreg (reg : Byte) (s : State) : Step :=
  s.command (match Reg.ofAddr reg with
    | some r => s.succeed (s.readReg r)
    | Option.none => s.raise .regaddr)

/-- WRREG (R113). -/
def execWrreg (reg : Byte) (data : Word) (s : State) : Step :=
  s.command (match Reg.ofAddr reg with
    | some r => match s.writeReg r data with
      | .ok t => t.succeed 0
      | .error e => s.raise e
    | Option.none => s.raise .regaddr)

/-- SRST (R116). -/
def execSrst (s : State) : Step := s.command (s.softReset.succeed 0)

end Sys2Proof.Machine
end

