-- ==== Sys2Proof/Machine/Filter.lean ====
section
/-! DEFINITION. The sample-filter quantizer and mode dispatcher (44_sample_filter R195 to R220): ADSTART, EV_ADC, the ADC service with the
mapping of each mode, and BINOUT. -/

namespace Sys2Proof.Machine

/-! ## Conversion handshake -/

/-- A conversion started (R196). -/
def State.startConversion (s : State) : State := { s with adBusy := true }

/-- A conversion complete, with its sample latched (R197). -/
def State.latchSample (s : State) (x : BitVec 10) : State := { s with adcdata := x, adBusy := false }

/-- ADSTART (R196). -/
def execAdstart (s : State) : Step := s.command (s.answer (check (s.adBusy = true) .adbusy) s.startConversion 0)

/-- EV_ADC (R197), enabled only while ADBUSY = 1. -/
def execEvAdc (sample : BitVec 10) (s : State) : Step :=
  .next (if s.adBusy then (s.latchSample sample).setPending .adc else s)

/-! ## Mappings (R201) -/

/-- BINARY: `min((sm × 15) / 1023, 15)` (R205). -/
def binaryState (sm : Nat) : Nat := min (sm * 15 / 1023) 15

/-- N-state quantization: `min(sm / (1024 / N), N − 1)` with the inner division an integer one (R207). -/
def nState (n sm : Nat) : Nat := min (sm / (1024 / n)) (n - 1)

/-- PARITY_DIR's flag: updated only outside the band `|raw − prev| ≤ 5` (R208). -/
def parityInc (inc : Bool) (raw prev : Nat) : Bool :=
  if 5 < ((raw : Int) - (prev : Int)).natAbs then decide (prev < raw) else inc

/-- The direction flag written (R208). -/
def State.setInc (s : State) (inc : Bool) : State := { s with inc := inc }

/-- PARITY_DIR (R208). -/
def State.mapParity (s : State) (raw prev sm : Nat) : State :=
  let inc := parityInc s.inc raw prev
  (s.setInc inc).out4 (2 * min (sm / 128) 7 + inc.toNat)

/-- The zone of a smoothed value (R209). -/
def zoneOf (sm : Nat) : Nat := sm / 256

/-- The threshold of a zone: 50, 100, 150, 200 (R210). -/
def zoneThreshold (z : Nat) : Nat := 50 * (z + 1)

/-- The zone of the last event and its in-zone count (R209). -/
def State.setZone (s : State) (z count : Nat) : State := { s with zone := BitVec.ofNat 2 z, zcnt := BitVec.ofNat 8 count }

/-- BLINK and OUT[0] set to a toggle state (R209). -/
def State.showBlink (s : State) (blink : Bool) : State := { s with blink := blink, out := s.out.extractLsb' 1 7 ++ BitVec.ofBool blink }

/-- ZONE_BLINK (R209). -/
def State.mapZone (s : State) (sm : Nat) : State :=
  let z := zoneOf sm
  let count := (if s.zone.toNat = z then s.zcnt.toNat else 0) + 1
  if zoneThreshold z ≤ count then
    ((s.setZone z 0).showBlink (!s.blink)).pwmWrite (if s.blink then 0 else s.dutyFull)
  else s.setZone z count

/-- ANGLE_SAMPLE (R214): an angle above 180 or a failed `pwm_check` is recorded and nothing is written (R217). -/
def State.mapAngle (s : State) (sm : BitVec 10) : State :=
  let a := Config.pMapAngle sm
  let v := servoValue s.params a s.pwps.toNat
  match check (180 < a) .angle <|> s.pwmCheck v with
  | some e => s.record e
  | none => s.servoSet v a

/-- BRIGHT_SAMPLE (R215). -/
def State.mapBright (s : State) (sm : BitVec 10) : State :=
  let v := Config.pMapBright sm s.periodScaled (dutyMax s.params)
  match s.pwmCheck v with
  | some e => s.record e
  | none => s.pwmWrite v

/-- MARQUEE and SINGLE_MARQUEE (R216), with the parameter's answer given. -/
def State.mapMarquee (s : State) (o : Byte × BitVec 16) : State := { s with out := o.1, mstate := o.2 }

/-- `map(MODE, raw, prev, sm)`: exactly one mapping, chosen by MODE (R201, R218). -/
def State.mapSample (s : State) (raw prev sm : BitVec 10) : State :=
  match s.mode with
  | .none => s
  | .binary => s.out4 (binaryState sm.toNat)
  | .angleSample => s.mapAngle sm
  | .brightSample => s.mapBright sm
  | .marquee => s.mapMarquee (Config.pMapMarquee sm s.mstate)
  | .zoneBlink => s.mapZone sm.toNat
  | .singleMarquee => s.mapMarquee (Config.pMapSingle sm s.mstate)
  | .state10 => s.out4 (nState 10 sm.toNat)
  | .state7 => s.out4 (nState 7 sm.toNat)
  | .parityDir => s.mapParity raw.toNat prev.toNat sm.toNat
  | .servoInput => s
  | .binaryInput => s

/-! ## Service -/

/-- The two-point moving average, truncated (R200). -/
def smoothed (prev raw : BitVec 10) : BitVec 10 := BitVec.ofNat 10 ((prev.toNat + raw.toNat) / 2)

/-- The filter step's two writes (R200). -/
def State.filterWrite (s : State) (sm raw : BitVec 10) : State := { s with sfsmooth := sm, sflast := raw }

/-- The ADC service (R199): the filter step, then the active mode's mapping, then the flag. -/
def State.serviceAdc (s : State) : State :=
  let raw := s.adcdata
  let prev := s.sflast
  let sm := smoothed prev raw
  ((s.filterWrite sm raw).mapSample raw prev sm).clearPending .adc

/-! ## Binary output from input -/

/-- BINOUT's clamp of a signed input to 0..15 (R219). -/
def clamp15 (i : Int) : Nat := (min (max i 0) 15).toNat

/-- BINOUT (R219). -/
def execBinout (c : Bool) (val : Word) (s : State) : Step :=
  let v := clamp15 (signedOperand val)
  s.command (s.answer (check (c = true ∧ s.mode.ownsLed = true) .owner) (if c then s.out4 v else s) (resultOf v))

end Sys2Proof.Machine
end

