-- ==== Sys2Proof/Machine/Serial.lean ====
section
/-! DEFINITION. The serial line-assembly state machine (45_serial_line R230 to R254): EV_RX, the RX service, TXBYTE and EV_TXTAKE. -/

namespace Sys2Proof.Machine

/-- A byte latched with its two indications (R230). -/
def State.latchByte (s : State) (b : Byte) (oe fe : Bool) : State := { s with rxbyte := b, rxoerr := oe, rxferr := fe }

/-- EV_RX (R230), enabled only while RXIF = 0. -/
def execEvRx (byte : Byte) (oe fe : Bool) (s : State) : Step :=
  .next (if s.pending .rx then s else (s.latchByte byte oe fe).setPending .rx)

/-- TXBYTE (R245): held, with nothing recorded, while the queue is full; else the byte is appended. -/
def execTxbyte (byte : Byte) (s : State) : Step :=
  if s.txFull then .next s else s.command ((s.enqueueTx [byte]).succeed 0)

/-- The head of TXQ emitted on TXOUT (R247). -/
def State.takeTx (s : State) (b : Byte) (rest : List Byte) : State := { s with txq := rest, txout := s.txout ++ [b] }

/-- EV_TXTAKE (R247), enabled only while TXQ is not empty. -/
def execEvTxtake (s : State) : Step :=
  match s.txq with
  | [] => .next s
  | b :: rest => .next (s.takeTx b rest)

/-! ## The RX service -/

/-- `ERASE_SEQ`: backspace, space, backspace (R248). -/
def eraseSeq : List Byte := [0x08, 0x20, 0x08]

/-- CR or LF (00_scope R7). -/
def isTerminator (b : Byte) : Bool := b == 0x0D || b == 0x0A

/-- `crlf_second(b)` (R237). -/
def State.crlfSecond (s : State) (b : Byte) : Bool := b == 0x0A && s.len == 0 && s.lastch == 0x0D

/-- `echo_len()`, from the state before the service (R241). -/
def State.echoLen (s : State) : Nat :=
  if s.rxferr then 0
  else if s.rxbyte = 0x7F then (if s.len = 0 then 0 else 3)
  else if isTerminator s.rxbyte then (if s.crlfSecond s.rxbyte then 0 else 1)
  else if s.rxbyte = 0xFF then 0
  else if s.len.toNat < 63 then 1
  else 0

/-- `TXQ_DEPTH − length(TXQ) < echo_len()`: the RX service waits for room for its echo (R231, R241). -/
def State.rxHolds (s : State) : Bool := decide (s.params.txqDepth < s.txq.length + s.echoLen)

/-- `rx_toggle()` (R232). -/
def State.rxToggle (s : State) : State := { s with rxtoggle := s.rxtoggle ++ [()], rxrstcnt := s.rxrstcnt + 1 }

/-- Step 1 (R232): the receiver is toggled where the latch says overrun. -/
def State.afterToggle (s : State) : State := if s.rxoerr then s.rxToggle else s

/-- LEN and the line buffer written together (20_memory R64). -/
def State.setLine (s : State) (len : BitVec 7) (m : Memory) : State := { s with len := len, lbuf := m }

/-- `emit LINES(line)` and its count (R236). -/
def State.emitLine (s : State) (line : List Byte) : State := { s with lines := s.lines ++ [line], linecnt := s.linecnt + 1 }

/-- Step 4 (R240): the last character, and the latch's indications cleared. -/
def State.endByte (s : State) (b : Byte) : State := { s with lastch := b, rxoerr := false, rxferr := false }

/-- `backspace()` (R235). -/
def State.backspace (s : State) : Except Fault State :=
  if s.len = 0 then .ok s
  else do
    let m ← s.lbuf.write (s.len - 1).toNat 0x00
    return (s.setLine (s.len - 1) m).enqueueTx eraseSeq

/-- The line's bytes, `LBUF[0]` to `LBUF[LEN − 1]` (R236). -/
def State.lineBytes (s : State) : Except Fault (List Byte) := (List.range s.len.toNat).mapM s.lbuf.read

/-- `terminate(b)` (R236). -/
def State.terminate (s : State) (b : Byte) : Except Fault State := do
  let line ← s.lineBytes
  return ((s.emitLine line).setLine 0 (s.lbuf.zeroBelow s.len.toNat)).enqueueTx [b]

/-- `append(b)` (R239). -/
def State.appendByte (s : State) (b : Byte) : Except Fault State :=
  if s.len.toNat < 63 then do
    let m ← s.lbuf.write s.len.toNat b
    return (s.setLine (s.len + 1) m).enqueueTx [b]
  else .ok s

/-- `line_step(b)` (R234). -/
def State.lineStep (s : State) (b : Byte) : Except Fault State :=
  if b = 0x7F then s.backspace
  else if isTerminator b then (if s.crlfSecond b then .ok s else s.terminate b)
  else if b = 0xFF then .ok s
  else s.appendByte b

/-- The RX service (R231), where it does not hold: overrun toggle, framing discard or line step, last character, latch and flag cleared. -/
def State.serviceRx (s : State) : Except Fault State := do
  let b := s.rxbyte
  let t ← if s.rxferr then .ok s.afterToggle else s.afterToggle.lineStep b
  return (t.endByte b).clearPending .rx

end Sys2Proof.Machine
end

