-- ==== Sys2Proof/Machine/Debounce.lean ====
section
/-! DEFINITION. The debounced edge detector (43_debounce R180 to R189): EV_BTN, the BTN service and the debounce tick of the TMR service. -/

namespace Sys2Proof.Machine

/-- EV_BTN (R180): `BTNIF <- 1`, always enabled. -/
def execEvBtn (s : State) : Step := .next (s.setPending .btn)

/-- A window opened (R181). -/
def State.openWindow (s : State) : State := { s with armed := true, dbncnt := s.dbncfg }

/-- A window closed (R182). -/
def State.closeWindow (s : State) : State := { s with armed := false, dbncnt := 0 }

/-- A window one tick shorter (R182). -/
def State.shortenWindow (s : State) : State := { s with dbncnt := s.dbncnt - 1 }

/-- The BTN service (R181): the first edge opens a window; one inside an open window is suppressed. -/
def State.serviceBtn (s : State) : State := (if s.armed then s else s.openWindow).clearPending .btn

/-- `press()` (R183). -/
def State.pressed (s : State) : State := { s with btncnt := s.btncnt + 1, press := s.press ++ [()] }

/-- `debounce_tick()` (R182). -/
def State.debounceTick (s : State) : State :=
  if s.armed then
    if s.dbncnt.toNat ≤ 1 then s.pressed.closeWindow else s.shortenWindow
  else s

end Sys2Proof.Machine
end

