-- ==== Sys2Proof/Machine/Timing.lean ====
section
/-! DEFINITION. The timing calculator (41_timing_calculator R130 to R139): the reload arithmetic, TCALC, EV_TMR and the TMR service. -/

namespace Sys2Proof.Machine

/-- `count(p, ps)`: one floor (R131). -/
def timerCount (c : Params) (p ps : Nat) : Nat := p * c.tickDen / (c.tickNum * ps)

/-- `reload_exact(p, ps, w) = (2^w − 1) − count + 1`, which may be negative (R131). -/
def reloadExact (c : Params) (p ps w : Nat) : Int := (2 ^ w - 1 : Int) - (timerCount c p ps : Int) + 1

/-- The checks of TCALC after the reserved bits, in order (R132). -/
def tcCheck (c : Params) (p ps w : Nat) : Option Err :=
  check (ps = 0) .prescale0
    <|> check ((2 ^ w - 1 : Int) < reloadExact c p ps w) .tcHigh
    <|> check (reloadExact c p ps w < 0) .tcLow

/-- `commit(r, W)`: RELOAD and RELW in one indivisible write (R133). -/
def State.commitReload (s : State) (r : Nat) (w : Bool) : State := { s with reload := BitVec.ofNat 16 r, relw := w }

/-- `fail`: a committing TCALC that fails sets CFGFAULT, the one field beside LASTERR and ERRFLAGS an error writes (R134, R264). -/
def State.faultIf (s : State) (c : Bool) : State := { s with cfgFault := s.cfgFault || c }

/-- TCALC (R132). -/
def execTcalc (c w : Bool) (ps : BitVec 16) (period : Word) (s : State) : Step :=
  let width := widthOperand w
  let r := (reloadExact s.params (unsignedOperand period) (prescaleOperand ps) width).toNat
  let failed := tcCheck s.params (unsignedOperand period) (prescaleOperand ps) width
  s.command ((s.faultIf c).answer failed (if c then s.commitReload r w else s) (resultOf r))

/-- EV_TMR (R135): `TMRIF <- 1`, always enabled. -/
def execEvTmr (s : State) : Step := .next (s.setPending .tmr)

/-- The reload handed to the external counter, and the service counted (R136). -/
def State.loadTimer (s : State) : State := { s with tmrload := s.tmrload ++ [(s.reload, s.relw)], tmrcnt := s.tmrcnt + 1 }

/-- The TMR service (R136). -/
def State.serviceTmr (s : State) : State := s.loadTimer.debounceTick.clearPending .tmr

end Sys2Proof.Machine
end

