-- ==== Sys2Proof/Machine/Interrupts.lean ====
section
/-! DEFINITION. The dispatcher (60_exceptions R277 to R284): when each of its four steps is enabled, and what it does. A step that is not enabled
changes nothing (log 4). -/

namespace Sys2Proof.Machine

/-- ENTER_HIGH is enabled: a high request, and the context is FG or LOW (R278). -/
def State.canEnterHigh (s : State) : Bool :=
  s.reqHigh && (match s.stack with
    | [] => true
    | f :: _ => f.level == .low)

/-- ENTER_LOW is enabled: a low request in FG, and no high request (R279). -/
def State.canEnterLow (s : State) : Bool := s.reqLow && s.stack.isEmpty && !s.reqHigh

/-- `next(lv, c)`: the least source from the cursor on that is active at the frame's level (R281). -/
def State.nextSource (s : State) (f : Frame) : Option Src :=
  allSources.find? fun x => decide (f.cursor.val ≤ x.index) && s.active x && s.levelOf x == f.level

/-- Only the service of RX can hold (R281). -/
def State.serviceHolds (s : State) : Src → Bool
  | .rx => s.rxHolds
  | .tmr | .adc | .btn => false

/-- An activation is at RX, whose service holds: RX is its next source (R281). -/
def State.atHeldRx (s : State) : Bool := s.rxHolds && s.stack.any fun f => s.nextSource f == some .rx

/-- What the block remembers across an event: an activation that is at the held RX "waits at RX and takes no other step" (R281, R314), so a
source of its level that the event makes pending does not become its next one while RX holds. DESIGN CHOICE (log 21): by `next(lv, c)`
alone the source would. -/
def State.noteWait (s : State) : State := { s with rxWaits := s.rxWaits || s.atHeldRx }

/-- The activation of frame `f` waits at RX, whose service still holds (R281, R314, log 21). -/
def State.waitsAtRx (s : State) (f : Frame) : Bool := s.rxWaits && s.rxHolds && s.levelOf .rx == f.level

/-- The fixed service of each source (R270, R283). -/
def State.serve (s : State) : Src → Except Fault State
  | .tmr => .ok s.serviceTmr
  | .adc => .ok s.serviceAdc
  | .btn => .ok s.serviceBtn
  | .rx => s.serviceRx

/-- ENTER_HIGH (R278). -/
def State.enterHighStep (s : State) : Step := .next (if s.canEnterHigh then s.enter .high else s)

/-- ENTER_LOW (R279). -/
def State.enterLowStep (s : State) : Step := .next (if s.canEnterLow then s.enter .low else s)

/-- SERVICE (R281): the next source of the top frame is served, unless it holds, and the cursor moves past it. An activation that waits at RX
takes no step while RX holds, whatever became pending behind it; once there is room, `next(lv, c)` picks from the cursor again.
DESIGN CHOICE (log 21): R281's prose and R314 against its `next(lv, c)`. -/
def State.serviceStep (s : State) : Step :=
  match s.stack with
  | [] => .next s
  | f :: rest =>
    match s.nextSource f with
    | none => .next s
    | some x =>
      if s.serviceHolds x || s.waitsAtRx f then .next s
      else match (s.endWait x).serve x with
        | .ok t => .next (t.setTop { f with cursor := x.past } rest)
        | .error e => .fault e

/-- RETURN (R284): the top frame is popped where nothing is left for it to serve. -/
def State.returnStep (s : State) : Step :=
  match s.stack with
  | [] => .next s
  | f :: _ => .next (if s.nextSource f = none then s.leave else s)

end Sys2Proof.Machine
end

