-- ==== Sys2Proof/Machine/Dispatch.lean ====
section
/-! DEFINITION. One arm per instruction: the meaning of a packet at its port. -/

namespace Sys2Proof.Machine

def exec (i : Instr) (s : State) : Host.Outcome State Fault Refusal :=
  match i with
  -- host commands
  | .nop => Sys2Proof.Machine.execNop s
  | .rdreg reg => Sys2Proof.Machine.execRdreg reg s
  | .wrreg reg data => Sys2Proof.Machine.execWrreg reg data s
  | .srst => Sys2Proof.Machine.execSrst s
  | .adstart => Sys2Proof.Machine.execAdstart s
  | .txbyte byte => Sys2Proof.Machine.execTxbyte byte s
  | .tcalc c w ps period => Sys2Proof.Machine.execTcalc c w ps period s
  | .pwmset val => Sys2Proof.Machine.execPwmset val s
  | .pwmduty c ps val => Sys2Proof.Machine.execPwmduty c ps val s
  | .pwmangle c ps val => Sys2Proof.Machine.execPwmangle c ps val s
  | .svfold c ps val => Sys2Proof.Machine.execSvfold c ps val s
  | .binout c val => Sys2Proof.Machine.execBinout c val s
  -- environment events
  | .evTmr => Sys2Proof.Machine.execEvTmr s
  | .evAdc sample => Sys2Proof.Machine.execEvAdc sample s
  | .evBtn => Sys2Proof.Machine.execEvBtn s
  | .evRx byte oe fe => Sys2Proof.Machine.execEvRx byte oe fe s
  | .evTxtake => Sys2Proof.Machine.execEvTxtake s

end Sys2Proof.Machine
end

