-- ==== Sys2Proof/Machine/Schedule.lean ====
section
/-! DEFINITION. Which agent moves and what its move is (60_exceptions R285, R286): the host's turn, the environment's turn, the dispatcher's four
steps and the power cycle; and the order taken when no turn has been drawn (95_test_vectors section 0, log 1). -/

namespace Sys2Proof.Machine

/-- The enabling conditions of the host's and the environment's packets (R285). -/
def Instr.enabled (i : Instr) (s : State) : Bool :=
  match i with
  | .txbyte _ => s.stack.isEmpty && !s.txFull
  | .nop | .rdreg _ | .wrreg _ _ | .srst | .adstart => s.stack.isEmpty
  | .tcalc _ _ _ _ | .pwmset _ | .pwmduty _ _ _ | .pwmangle _ _ _ | .svfold _ _ _ | .binout _ _ => s.stack.isEmpty
  | .evTmr | .evBtn => true
  | .evAdc _ => s.adBusy
  | .evRx _ _ _ => !s.pending .rx
  | .evTxtake => !s.txq.isEmpty

/-- The host's turn (R110): in FG it issues the packet at the head of its port. A packet that is no command is answered with its error
(R86, R87). A held command stays at the head of the port and is offered again at the host's next turn (R245, R267). -/
def State.hostTurn (s : State) : Step :=
  match s.stack, s.cmdPort with
  | [], p :: rest =>
    match decodeCommand p with
    | .error e => .next ((s.leaveCommands rest).raise (errOfReject e))
    | .ok i => exec i (if Instr.enabled i s then s.leaveCommands rest else s)
  | _, _ => .next s

/-- The environment's turn: it offers the packet at the head of its port. A packet that is no event is refused by name (R88); an event
that is not enabled is not delivered (R266). An activation that is at the held RX before the event is noted to wait there (R281, log 21). -/
def State.environmentTurn (s : State) : Step :=
  match s.evtPort with
  | [] => .next s
  | p :: rest =>
    match decodeEvent p with
    | .error e => .refused (.malformedEvent e)
    | .ok i => exec i (s.leaveEvents rest).noteWait

/-- A turn taken (R285). -/
def State.takeTurn (s : State) : Turn → Step
  | .host => s.hostTurn
  | .environment => s.environmentTurn
  | .enterHigh => s.enterHighStep
  | .enterLow => s.enterLowStep
  | .service => s.serviceStep
  | .leave => s.returnStep
  | .powerCycle => .next s.hardReset

/-- The host has an enabled packet at the head of its port. -/
def State.hostReady (s : State) : Bool :=
  match s.cmdPort with
  | [] => false
  | p :: _ => s.stack.isEmpty && (match decodeCommand p with
    | .error _ => true
    | .ok i => Instr.enabled i s)

/-- SERVICE is enabled (R281). -/
def State.canService (s : State) : Bool :=
  match s.stack with
  | [] => false
  | f :: _ => match s.nextSource f with
    | none => false
    | some x => !(s.serviceHolds x || s.waitsAtRx f)

/-- RETURN is enabled (R284). -/
def State.canReturn (s : State) : Bool :=
  match s.stack with
  | [] => false
  | f :: _ => (s.nextSource f).isNone

/-- The turn due where none has been drawn: an enabled dispatcher step in the eager order of 95_test_vectors (ENTER_HIGH, ENTER_LOW, then
SERVICE or RETURN), else the host, else the environment; none where no agent has anything to do (log 1). -/
def State.dueTurn (s : State) : Option Turn :=
  if s.canEnterHigh then some .enterHigh
  else if s.canEnterLow then some .enterLow
  else if s.canService then some .service
  else if s.canReturn then some .leave
  else if s.hostReady then some .host
  else if s.evtPort.isEmpty then none
  else some .environment

/-- One move of the block: the turn drawn, or the turn due; with neither the block rests as it is (60_exceptions R268). -/
def State.move (s : State) : Step :=
  match s.turns with
  | t :: rest => (s.leaveTurns rest).takeTurn t
  | [] => match s.dueTurn with
    | some t => s.takeTurn t
    | none => .next s

/-- The packet a table word stands for, placed at the head of the port its opcode names, and that agent's turn drawn next. -/
def State.offer (s : State) (p : Packet) : State :=
  match portOfPacket p with
  | .command => { s with cmdPort := p :: s.cmdPort, turns := .host :: s.turns }
  | .event => { s with evtPort := p :: s.evtPort, turns := .environment :: s.turns }

end Sys2Proof.Machine
end

