-- ==== Sys2Proof/Machine/Step.lean ====
section
/-! DEFINITION. One step of the block, and how the host places an instruction so that the next step runs it (log 3). -/

namespace Sys2Proof.Machine

/-- One step (00_scope R11): one atomic move of one agent. -/
def step (s : State) : Host.Outcome State Fault Refusal := s.move

/-- The state with one table word placed so that the very next step offers exactly that packet. -/
def State.withFetchWord (s : State) (nbits w : Nat) : State := s.offer (tablePacket nbits w)

end Sys2Proof.Machine
end

