-- ==== Sys2Proof/Safety.lean ====
section
/-! DEFINITION. What counts as a safe run, in the terms claims use: the invariant of every reachable state (10_state R56 with the rules it
rests on), the sticky configuration fault, and the sequences of services the properties of the spec speak of. -/

namespace Sys2Proof.Machine

/-- The context stacks R50 allows, top first: [], [LOW], [HIGH], and HIGH over LOW. -/
def stackShapes : List (List Level) := [[], [.low], [.high], [.high, .low]]

/-- The modes whose mode-local state is MSTATE (44_sample_filter R202). -/
def Mode.usesMstate (m : Mode) : Bool := m == .marquee || m == .singleMarquee

/-- What holds in every reachable state: the invariants 10_state R56 lists, and the facts about single fields that the rules writing
them keep. -/
structure State.Inv (s : State) : Prop where
  /-- The parameters are legal (00_scope R6, 10_state R47). -/
  params_legal : s.params.Legal
  /-- LASTERR holds a code of 60_exceptions R261. -/
  lasterr_code : s.lasterr.toNat ≤ 13
  /-- The response holds a code of R261, and a failed command's result is 0 (R262). -/
  resp_code : ∀ r, s.resp = some r → r.status.toNat ≤ 13 ∧ (r.status ≠ 0 → r.result = 0)
  /-- Bit 0 of ERRFLAGS stands for no error (R25). -/
  errflags_bit0 : s.errflags.getLsbD 0 = false
  /-- BTNIP is 1 (R28). -/
  btnip : s.iprio.getLsbD 2 = true
  /-- A reload validated for 8 bits fits 8 bits (R30). -/
  reload_fits : s.relw = false → s.reload.toNat < 256
  /-- So does every reload handed to the timer (R136). -/
  tmrload_fits : ∀ e ∈ s.tmrload, e.2 = false → e.1.toNat < 256
  /-- `DUTY ≤ min(PS, DUTY_MAX)` (R56). -/
  duty_fits : s.duty ≤ s.dutyFull
  /-- DCL has `L` bits (R32). -/
  dcl_fits : s.dcl.toNat < 2 ^ s.params.pwmRes.fineBits
  /-- PWPS is never 0 (R33). -/
  pwps_pos : s.pwps ≠ 0
  /-- `SVANG ≤ 180` (R56). -/
  svang_le : s.svang.toNat ≤ 180
  /-- `ARMED = 0` implies `DBNCNT = 0` (R56). -/
  idle_count : s.armed = false → s.dbncnt = 0
  /-- INC is 0 outside PARITY_DIR (R202, R203). -/
  inc_local : s.mode ≠ .parityDir → s.inc = false
  /-- ZONE, ZCNT and BLINK are 0 outside ZONE_BLINK (R202, R203). -/
  zone_local : s.mode ≠ .zoneBlink → s.zone = 0 ∧ s.zcnt = 0 ∧ s.blink = false
  /-- MSTATE is 0 outside the marquee modes (R202, R203). -/
  mstate_local : s.mode.usesMstate = false → s.mstate = 0
  /-- ZCNT is below the threshold of ZONE (R56). -/
  zcnt_below : s.zcnt.toNat < zoneThreshold s.zone.toNat
  /-- `LEN ≤ 63` (R56). -/
  len_le : s.len.toNat ≤ 63
  /-- The line buffer is in canonical form. -/
  lbuf_wf : s.lbuf.wf = true
  /-- `LBUF[i] = 0` for every `i ≥ LEN` (R56). -/
  lbuf_clear : ∀ i, s.len.toNat ≤ i → s.lbuf.peek i = 0
  /-- Every completed line has at most 63 bytes (R55). -/
  lines_le : ∀ l ∈ s.lines, l.length ≤ 63
  /-- The context stack has one of its four shapes (R50, R56). -/
  stack_shape : s.stack.map (·.level) ∈ stackShapes
  /-- An activation noted to wait at RX is on the stack, at RX's level and not past RX, and RX is still active (60_exceptions R281, log 21). -/
  rx_waits : s.rxWaits = true → s.active .rx = true ∧ ∃ f ∈ s.stack, f.level = s.levelOf .rx ∧ f.cursor.val ≤ 3
  /-- The transmit queue is within its depth (R51, R56). -/
  txq_le : s.txq.length ≤ s.params.txqDepth

/-- A run with CFGFAULT = 1 is to be treated as faulted (41_timing_calculator R134). -/
def State.Faulted (s : State) : Prop := s.cfgFault = true

/-- A power cycle is the turn drawn (70_reset R300). -/
def State.powerCycleDrawn (s : State) : Prop := s.turns.head? = some .powerCycle

/-- The state with one sample latched and its ADC service run (44_sample_filter R199). -/
def State.sampled (s : State) (x : BitVec 10) : State := { s with adcdata := x }.serviceAdc

/-- The display of PARITY_DIR and the other four-output modes: OUT[3:0] (R204). -/
def State.display (s : State) : Nat := s.out.toNat % 16

/-- A byte with no meaning of its own to the line editor: not CR, LF, DEL or 0xFF (45_serial_line R234). -/
def ordinaryByte (b : Byte) : Bool := b != 0x0D && b != 0x0A && b != 0x7F && b != 0xFF

/-- The state with one byte latched without error indications and its RX service run (45_serial_line R231). -/
def State.received (s : State) (b : Byte) : Except Fault State :=
  (s.latchByte b false false).serviceRx

/-- The RX services of a list of bytes, one after another. -/
def State.receivedAll (s : State) : List Byte → Except Fault State
  | [] => .ok s
  | b :: bs => match s.received b with
    | .ok t => t.receivedAll bs
    | .error e => .error e

end Sys2Proof.Machine
end

