-- ==== Sys2Proof/Certificates/Slice0/Obligations.lean ====
section
/-! DEFINITION. The statements of this row, from the spec's numbered rules. Each docstring names the rule; OBLIGATIONS.json lists them. -/

namespace Sys2Proof.Claims

open Sys2Proof.Machine

/-- A host command's success by R262: LASTERR 0 and the response (0x00, result), on the state `s` the command leaves. -/
def done (s : State) (result : Nat) : State :=
  { s with lasterr := 0, resp := some { status := 0, result := BitVec.ofNat 32 result } }

/-- A host command's failure by R262 with a status code of R261: LASTERR, the ERRFLAGS bit and the response (code, 0), nothing else. -/
def failed (s : State) (code : Nat) : State :=
  { s with lasterr := BitVec.ofNat 8 code, errflags := s.errflags ||| (1#14 <<< code)
           resp := some { status := BitVec.ofNat 8 code, result := 0 } }

/-- The reserved bits of a command packet (R82, R86): every bit that is neither OP nor an operand of its row; for SVFOLD, B too when C = 0. -/
def reservedBits (p : Packet) : Packet :=
  match packetOp p with
  | 0x00#8 | 0x03#8 | 0x04#8 => 0x00FFFFFFFFFFFFFF
  | 0x01#8 => 0x0000FFFFFFFFFFFF
  | 0x02#8 => 0x0000FFFF00000000
  | 0x05#8 => 0x00FFFFFFFFFFFF00
  | 0x10#8 => 0x00FC000000000000
  | 0x20#8 => 0x00FFFFFF00000000
  | 0x21#8 | 0x22#8 => 0x00FD000000000000
  | 0x23#8 => if p.getLsbD 49 then 0x00FD000000000000 else 0x00FDFFFF00000000
  | 0x30#8 => 0x00FDFFFF00000000
  | _ => 0

/-- The reserved bits of an event packet (R82, R86). -/
def reservedEventBits (p : Packet) : Packet :=
  match packetOp p with
  | 0x80#8 | 0x82#8 | 0x84#8 => 0x00FFFFFFFFFFFFFF
  | 0x81#8 => 0x00FFFFFFFFFFFC00
  | 0x83#8 => 0x00FCFFFFFFFFFF00
  | _ => 0

/-- The CMD opcodes of R83. -/
def commandOpcodes : List Byte := [0x00, 0x01, 0x02, 0x03, 0x04, 0x05, 0x10, 0x20, 0x21, 0x22, 0x23, 0x30]

/-- The EVT opcodes of R83. -/
def eventOpcodes : List Byte := [0x80, 0x81, 0x82, 0x83, 0x84]

/-- The value each mapped address reads as in FG, field by field at the bit positions of R22. -/
def registerValue (s : State) (a : Nat) : Option Nat :=
  match a with
  | 0x00 => some (s.lasterr.toNat + 2 ^ 8 * s.cfgFault.toNat + 2 ^ 9 * s.adBusy.toNat)
  | 0x01 => some (s.errflags.toNat - s.errflags.toNat % 2)
  | 0x02 => some s.iflags.toNat
  | 0x03 => some s.ienable.toNat
  | 0x04 => some ((s.iprio.getLsbD 0).toNat + 2 * (s.iprio.getLsbD 1).toNat + 4 + 8 * (s.iprio.getLsbD 3).toNat)
  | 0x05 => some (s.gieh.toNat + 2 * s.giel.toNat)
  | 0x06 => some s.mode.code.toNat
  | 0x07 => some (s.reload.toNat + 2 ^ 16 * s.relw.toNat)
  | 0x08 => some s.pr.toNat
  | 0x09 => some s.dch.toNat
  | 0x0A => some (s.dcl.toNat % 2 ^ s.params.pwmRes.fineBits)
  | 0x0B => some s.pwps.toNat
  | 0x0C => some s.svang.toNat
  | 0x0D => some s.out.toNat
  | 0x0E => some s.btncnt.toNat
  | 0x0F => some s.tmrcnt.toNat
  | 0x10 => some s.dbncfg.toNat
  | 0x11 => some (s.dbncnt.toNat + 2 ^ 16 * s.armed.toNat)
  | 0x12 => some s.sflast.toNat
  | 0x13 => some s.sfsmooth.toNat
  | 0x14 => some s.inc.toNat
  | 0x15 => some (s.zone.toNat + 2 ^ 8 * s.zcnt.toNat + 2 ^ 16 * s.blink.toNat)
  | 0x16 => some s.mstate.toNat
  | 0x17 => some (s.len.toNat + 2 ^ 8 * s.lastch.toNat + 2 ^ 16 * s.linecnt.toNat)
  | 0x18 => some (s.rxbyte.toNat + 2 ^ 8 * s.rxoerr.toNat + 2 ^ 9 * s.rxferr.toNat)
  | 0x19 => some s.adcdata.toNat
  | 0x1A => some (s.txq.length % 256 + 2 ^ 8 * (s.params.txqDepth % 256))
  | 0x1B => some s.rxrstcnt.toNat
  | a => if 0x40 ≤ a ∧ a ≤ 0x7F then some (s.lbuf.peek (a - 0x40)).toNat else none

/-- The value each register of R22 reads as after hard reset: the fields' reset values at their bit positions; TXLEVEL shows `TXQ_DEPTH`. -/
def resetValue (p : Params) (a : Nat) : Nat :=
  match a with
  | 0x04 => 4
  | 0x07 => 2 ^ 16
  | 0x08 => 0xFF
  | 0x0B => 1
  | 0x10 => 200
  | 0x1A => 2 ^ 8 * p.txqDepth
  | _ => 0

/-- The read-only addresses of R22, LBUF included. -/
def readOnlyAddress (a : Nat) : Bool :=
  a ∈ [0x00, 0x07, 0x09, 0x0A, 0x0C, 0x0E, 0x0F, 0x11, 0x12, 0x13, 0x14, 0x15, 0x16, 0x17, 0x18, 0x19, 0x1A, 0x1B]
    ∨ (0x40 ≤ a ∧ a ≤ 0x7F)

/-- The unmapped addresses of R67. -/
def unmappedAddress (a : Nat) : Bool := (0x1C ≤ a ∧ a ≤ 0x3F) ∨ 0x80 ≤ a

/-- `floor(t × TICK_DEN / (TICK_NUM × ps))`: the count of R131 and the duty count of R151. -/
def ticks (s : State) (t ps : Nat) : Nat := t * s.params.tickDen / (s.params.tickNum * ps)

/-- `2^L`. -/
def fineScale (s : State) : Nat := 2 ^ s.params.pwmRes.fineBits

/-- `DUTY_MAX` of R151. -/
def dutyTop (s : State) : Nat := 256 * fineScale s - 1

/-- `PS` of R151. -/
def period (s : State) : Nat := (s.pr.toNat + 1) * fineScale s

/-- A duty value that passes `pwm_check` (R152). -/
def dutyAccepted (s : State) (v : Nat) : Prop := v ≤ dutyTop s ∧ v ≤ period s

/-- The PWM resource is not owned by MODE (10_state R39). -/
abbrev pwmFree (s : State) : Prop := s.mode ≠ .angleSample ∧ s.mode ≠ .brightSample ∧ s.mode ≠ .zoneBlink

/-- The LED resource is not owned by MODE (10_state R39). -/
abbrev ledFree (s : State) : Prop :=
  s.mode = .none ∨ s.mode = .angleSample ∨ s.mode = .brightSample ∨ s.mode = .servoInput ∨ s.mode = .binaryInput

/-- The first check a duty value fails (R152), ownership last and only for a command that writes (R162). -/
def dutyError (s : State) (writes : Bool) (v : Nat) : Option Nat :=
  if dutyTop s < v then some 0x06
  else if period s < v then some 0x07
  else if writes ∧ ¬ pwmFree s then some 0x09
  else none

/-- The split of `pwm_write(v)` (R153). -/
def withDuty (s : State) (v : Nat) : State :=
  { s with dch := BitVec.ofNat 8 (v / fineScale s), dcl := BitVec.ofNat 2 (v % fineScale s) }

/-- The result `{fine, coarse, value}` of R164. -/
def dutyResult (s : State) (v : Nat) : Nat := 2 ^ 24 * (v % fineScale s) + 2 ^ 16 * (v / fineScale s) + v

/-- OUT with its low four bits replaced (R204). -/
def lowNibble (out : Byte) (v : Nat) : Byte := (out &&& 0xF0) ||| BitVec.ofNat 8 v

/-- The smoothed value of the next ADC service (R200). -/
def nextSmoothed (s : State) : Nat := (s.sflast.toNat + s.adcdata.toNat) / 2

/-- What every ADC service does before its mapping, with the flag it clears (R199, R200). -/
def filtered (s : State) : State :=
  { s with sflast := s.adcdata, sfsmooth := BitVec.ofNat 10 (nextSmoothed s), iflags := s.iflags &&& 0b1101#4 }

/-- The RX service's overrun step (R232). -/
def afterOverrun (s : State) : State :=
  if s.rxoerr then { s with rxtoggle := s.rxtoggle ++ [()], rxrstcnt := s.rxrstcnt + 1 } else s

/-- The RX service's end: last character, latch indications and flag (R231, R240). -/
def rxEnd (s u : State) : State :=
  { u with lastch := s.rxbyte, rxoerr := false, rxferr := false, iflags := s.iflags &&& 0b0111#4 }

/-- The bytes of the line held (R236). -/
def heldLine (s : State) : List Byte := (List.range s.len.toNat).map s.lbuf.peek

/-- A source's bit in IFLAGS, IENABLE and IPRIO, and its place in the service order (R270). -/
def sourceBit : Src → Nat
  | .tmr => 0
  | .adc => 1
  | .btn => 2
  | .rx => 3

/-- A source belongs to a level: to HIGH where its IPRIO bit is 1, and BTN always, whatever that bit holds (R273, 10_state R28). -/
abbrev atLevel (s : State) (lv : Level) (x : Src) : Prop := lv = .high ↔ x = .btn ∨ s.iprio.getLsbD (sourceBit x) = true

/-- A source asks at a level: its IFLAGS and IENABLE bits are 1 and it belongs to the level (R271 to R273). -/
abbrev asks (s : State) (lv : Level) (x : Src) : Prop :=
  s.iflags.getLsbD (sourceBit x) = true ∧ s.ienable.getLsbD (sourceBit x) = true ∧ atLevel s lv x

/-- No source asks from a cursor on (R281). -/
def nothingNext (s : State) (f : Frame) : Prop := ∀ y : Src, f.cursor.val ≤ sourceBit y → ¬ asks s f.level y

/-- `next(lv, c)` of R281 is `x`: the least source from the cursor on that asks at the frame's level. -/
def nextIs (s : State) (f : Frame) (x : Src) : Prop :=
  f.cursor.val ≤ sourceBit x ∧ asks s f.level x
    ∧ ∀ y : Src, f.cursor.val ≤ sourceBit y → sourceBit y < sourceBit x → ¬ asks s f.level y

/-- `echo_len()`: the table of R241, first match. -/
def echoBytes (s : State) : Nat :=
  if s.rxferr = true then 0
  else if s.rxbyte = 0x7F ∧ 0 < s.len.toNat then 3
  else if s.rxbyte = 0x7F then 0
  else if s.rxbyte = 0x0A ∧ s.len = 0 ∧ s.lastch = 0x0D then 0
  else if s.rxbyte = 0x0D ∨ s.rxbyte = 0x0A then 1
  else if s.rxbyte = 0xFF then 0
  else if s.len.toNat < 63 then 1
  else 0

/-- TXQ has room for the echo of the byte latched, so the RX service does not hold (R241). -/
abbrev echoFits (s : State) : Prop := s.txq.length + echoBytes s ≤ s.params.txqDepth

end Sys2Proof.Claims

open Sys2Proof Sys2Proof.Machine Sys2Proof.Claims

/-! ## Encoding -/

/-- Words written out from the encodings of 30_encoding decode to their instructions (R81 to R85, R92). -/
def Obligations.SpecWordsDecode : Prop :=
  decodeCommand 0x10030008000003E8 = .ok (.tcalc true true 8 1000)
  ∧ decodeCommand 0x0203000000000009 = .ok (.wrreg 0x03 9)
  ∧ decodeCommand 0x220200040000005A = .ok (.pwmangle true 4 90)
  ∧ decodeCommand 0x3002000000000009 = .ok (.binout true 9)
  ∧ decodeEvent 0x81000000000002AA = .ok (.evAdc 682)
  ∧ decodeEvent 0x8301000000000041 = .ok (.evRx 0x41 true false)

/-- Decoding the packet of a well-formed instruction at its port gives the instruction back (R81 to R86). -/
def Obligations.EncodeThenDecode : Prop :=
  ∀ i : Instr, i.wf = true → decode i.port (encode i) = .ok i

/-- Each packet a port accepts is the packet of exactly the instruction decoded, and that instruction is well-formed and of that port (R81 to R88). -/
def Obligations.DecodeThenEncode : Prop :=
  ∀ (port : Port) (p : Packet) (i : Instr), decode port p = .ok i → encode i = p ∧ i.port = port ∧ i.wf = true

/-- R62: a packet on a byte-wide transport is eight bytes, byte `k` its bits `8k+7 : 8k`, and the stream gives it back. -/
def Obligations.PacketTransportRoundTrip : Prop :=
  ∀ (p : Packet) (rest : List Byte),
    packetOfBytes (bytesOfPacket p ++ rest) = some (p, rest)
    ∧ ∀ k : Fin 8, (bytesOfPacket p)[k.val]? = some (p.extractLsb' (8 * k.val) 8)

/-! ## Turns

Who moves is drawn from `turns` (log 1), and a turn whose step is not enabled changes nothing (log 4): both are the model's own form of the
spec's "Any enabled step may come next" (R285) and "a step that is not yet enabled" (R267). -/

/-- R110, R11: in FG the host's turn runs the enabled command at the head of the command port, and the environment's turn the event at the head
of the event port, each on the state with the packet taken off its port and the turn consumed. Before an event the model notes in `rxWaits`
whether an activation is at RX while RX's echo does not fit (R281, log 21); nothing else is done around exec. -/
def Obligations.StepRunsDecodedInstruction : Prop :=
  ∀ (s : State) (p : Packet) (rest : List Packet) (ts : List Turn) (i : Instr),
    (s.turns = .host :: ts → s.stack = [] → s.cmdPort = p :: rest → decode .command p = .ok i → Instr.enabled i s = true →
      step s = exec i { s with turns := ts, cmdPort := rest })
    ∧ (s.turns = .environment :: ts → s.evtPort = p :: rest → decode .event p = .ok i →
      ∃ w : Bool, (w = true ↔ s.rxWaits = true ∨ (¬ echoFits s ∧ ∃ f ∈ s.stack, nextIs s f .rx))
        ∧ step s = exec i { s with turns := ts, evtPort := rest, rxWaits := w })

/-- R87: a command packet whose OP is no CMD opcode of R83, the event opcodes included, fails with E_ILLEGAL and changes nothing else. -/
def Obligations.UnassignedCommandAnswersIllegal : Prop :=
  ∀ (s : State) (p : Packet) (rest : List Packet) (ts : List Turn),
    s.turns = .host :: ts → s.stack = [] → s.cmdPort = p :: rest → packetOp p ∉ commandOpcodes →
    step s = .next (failed { s with turns := ts, cmdPort := rest } 0x01)

/-- R86: a command packet with an assigned OP and any reserved bit 1 fails with E_RESERVED and changes nothing else. -/
def Obligations.ReservedBitAnswersReserved : Prop :=
  ∀ (s : State) (p : Packet) (rest : List Packet) (ts : List Turn),
    s.turns = .host :: ts → s.stack = [] → s.cmdPort = p :: rest → packetOp p ∈ commandOpcodes → p &&& reservedBits p ≠ 0 →
    step s = .next (failed { s with turns := ts, cmdPort := rest } 0x02)

/-- R88: an event packet whose OP is not an EVT opcode, or which has a reserved bit 1, is refused by name. -/
def Obligations.MalformedEventRefused : Prop :=
  ∀ (s : State) (p : Packet) (rest : List Packet) (ts : List Turn),
    s.turns = .environment :: ts → s.evtPort = p :: rest →
    (packetOp p ∉ eventOpcodes → step s = .refused (.malformedEvent .opcode))
    ∧ (packetOp p ∈ eventOpcodes → p &&& reservedEventBits p ≠ 0 → step s = .refused (.malformedEvent .reserved))

/-- R286, R245, R267: with an activation on the stack the host does not step, and a TXBYTE waits while the queue is full: nothing is recorded, and
by the model's choice the packet stays at the port (log 4). -/
def Obligations.HostWaits : Prop :=
  ∀ (s : State) (ts : List Turn), s.turns = .host :: ts →
    (s.stack ≠ [] → step s = .next { s with turns := ts })
    ∧ ∀ (p : Packet) (rest : List Packet) (b : Byte), s.stack = [] → s.cmdPort = p :: rest → decodeCommand p = .ok (.txbyte b) →
        s.txq.length = s.params.txqDepth → step s = .next { s with turns := ts }

/-- R278, R276: ENTER_HIGH is enabled where GIEH is 1, a source asks at the high level (R271 to R273, by the registers' bits), and the context
is FG or LOW; it pushes (HIGH, 0) and changes nothing else. Where GIEH is 0, no source asks at the high level, or the context is HIGH, the turn
changes nothing (log 4). -/
def Obligations.EnterHighPushesFrame : Prop :=
  ∀ (s : State) (ts : List Turn), s.turns = .enterHigh :: ts →
    ((∃ x : Src, asks s .high x) → s.gieh = true → (∀ f, s.stack.head? = some f → f.level = .low) →
      step s = .next { s with turns := ts, stack := { level := .high, cursor := 0 } :: s.stack })
    ∧ ((∀ x : Src, ¬ asks s .high x) → step s = .next { s with turns := ts })
    ∧ (s.gieh = false → step s = .next { s with turns := ts })
    ∧ (∀ f, s.stack.head? = some f → f.level = .high → step s = .next { s with turns := ts })

/-- R279, R276: ENTER_LOW is enabled in FG where GIEH and GIEL are 1 and a source asks at the low level, none at the high level (R271 to R273, by
the registers' bits); it pushes (LOW, 0) and changes nothing else. Where one of these fails, the turn changes nothing (log 4). -/
def Obligations.EnterLowPushesFrame : Prop :=
  ∀ (s : State) (ts : List Turn), s.turns = .enterLow :: ts →
    (s.stack = [] → s.gieh = true → s.giel = true → (∃ x : Src, asks s .low x) → (∀ x : Src, ¬ asks s .high x) →
      step s = .next { s with turns := ts, stack := [{ level := .low, cursor := 0 }] })
    ∧ (s.stack ≠ [] ∨ s.gieh = false ∨ s.giel = false → step s = .next { s with turns := ts })
    ∧ ((∀ x : Src, ¬ asks s .low x) → step s = .next { s with turns := ts })
    ∧ ((∃ x : Src, asks s .high x) → step s = .next { s with turns := ts })

/-- R281, R241: SERVICE takes the least source from the cursor on that asks at the frame's level. An RX service whose echo does not fit
holds, and the turn changes nothing; nor does it for an activation that waits at RX, whatever source of its level became pending since (R281,
R314, log 21); else the source's service is run and the cursor moves past it. With no such source, or in FG, the turn changes nothing (log 4).
The echo is that of R241's table, and as many bytes are enqueued. -/
def Obligations.ServiceTakesLeastSource : Prop :=
  ∀ (s : State) (ts : List Turn), s.turns = .service :: ts →
    (s.stack = [] → step s = .next { s with turns := ts })
    ∧ (∀ t, s.serve .rx = .ok t → t.txq.length = s.txq.length + echoBytes s)
    ∧ ∀ (f : Frame) (rest : List Frame), s.stack = f :: rest →
      (nothingNext s f → step s = .next { s with turns := ts })
      ∧ (s.rxWaits = true → atLevel s f.level .rx → ¬ echoFits s → step s = .next { s with turns := ts })
      ∧ ∀ x : Src, nextIs s f x →
        (x = .rx → ¬ echoFits s → step s = .next { s with turns := ts })
        ∧ ((x = .rx → echoFits s) → (s.rxWaits = true → atLevel s f.level .rx → echoFits s) →
          ∀ t, { s with turns := ts, rxWaits := s.rxWaits && x != Src.rx }.serve x = .ok t →
            ∃ c : Fin 5, c.val = sourceBit x + 1 ∧ step s = .next { t with stack := { level := f.level, cursor := c } :: rest })

/-- R284: RETURN pops the top frame where no source from its cursor on asks at its level (R271 to R273, by the registers' bits), and restores
nothing; else it is not enabled and the turn changes nothing (log 4). -/
def Obligations.ReturnPopsFrame : Prop :=
  ∀ (s : State) (ts : List Turn) (f : Frame) (rest : List Frame),
    s.turns = .leave :: ts → s.stack = f :: rest →
    (nothingNext s f → step s = .next { s with turns := ts, stack := rest })
    ∧ (¬ nothingNext s f → step s = .next { s with turns := ts })

/-! ## The whole machine -/

/-- R300, R22: for every legal choice of the parameters every mapped register reads as its reset value after hard reset, the context is FG, and
TXQ, the line buffer and every channel are empty; a power cycle puts any state there, and by the model's choice (log 13) leaves what the
host and the environment have still to send. -/
def Obligations.ResetLeavesSpecValues : Prop :=
  ∀ p : Params, p.Legal →
    (∀ reg : Byte, unmappedAddress reg.toNat = false →
      exec (.rdreg reg) (State.resetWith p) = .next (done (State.resetWith p) (resetValue p reg.toNat)))
    ∧ (State.resetWith p).stack = [] ∧ (State.resetWith p).txq = [] ∧ (∀ i, (State.resetWith p).lbuf.peek i = 0)
    ∧ (State.resetWith p).tmrload = [] ∧ (State.resetWith p).press = [] ∧ (State.resetWith p).lines = []
    ∧ (State.resetWith p).rxtoggle = [] ∧ (State.resetWith p).txout = []
    ∧ ∀ (s : State) (ts : List Turn), s.params = p → s.turns = .powerCycle :: ts →
        step s = .next { State.resetWith p with cmdPort := s.cmdPort, evtPort := s.evtPort, turns := ts }

/-- Hard reset (R300) leaves the invariant (the spec's own inference R56), for every legal choice of the parameters. -/
def Obligations.ResetMeetsInvariant : Prop :=
  ∀ p : Params, p.Legal → (State.resetWith p).Inv

/-- Every step keeps the invariant: the spec's own inference R56, with the facts about single fields that the rules writing them keep. -/
def Obligations.StepKeepsInvariant : Prop :=
  ∀ s t : State, s.Inv → step s = .next t → t.Inv

/-- R268: under the invariant no step faults and only a malformed event packet is refused (R88), so the block goes on. -/
def Obligations.StepGoesOn : Prop :=
  ∀ s : State, s.Inv → (∃ t, step s = .next t) ∨ ∃ why, step s = .refused (.malformedEvent why)

/-- R52: once CFGFAULT is 1 no step but a power cycle clears it. -/
def Obligations.CfgFaultIsSticky : Prop :=
  ∀ s t : State, s.cfgFault = true → ¬ s.powerCycleDrawn → step s = .next t → t.cfgFault = true

/-- R55: no step but a power cycle shortens or rewrites a channel. -/
def Obligations.ChannelsOnlyGrow : Prop :=
  ∀ s t : State, ¬ s.powerCycleDrawn → step s = .next t →
    s.tmrload <+: t.tmrload ∧ s.press <+: t.press ∧ s.lines <+: t.lines ∧ s.rxtoggle <+: t.rxtoggle ∧ s.txout <+: t.txout

/-- The spec's own inference R249: bytes leave on TXOUT in the order they entered TXQ, none lost and none duplicated. -/
def Obligations.TxBytesConserved : Prop :=
  ∀ s t : State, ¬ s.powerCycleDrawn → step s = .next t →
    ∃ entered : List Byte, t.txout ++ t.txq = s.txout ++ s.txq ++ entered ∧ entered.length ≤ 3

/-- R30, R133: RELOAD and RELW change only by a committing TCALC, and then to a value that is valid for the width committed. -/
def Obligations.ReloadOnlyByCommit : Prop :=
  ∀ s t : State, ¬ s.powerCycleDrawn → step s = .next t →
    (t.reload = s.reload ∧ t.relw = s.relw)
    ∨ ∃ p rest w ps per, s.cmdPort = p :: rest ∧ decodeCommand p = .ok (.tcalc true w ps per) ∧ ps ≠ 0
        ∧ 1 ≤ ticks s per.toNat ps.toNat ∧ ticks s per.toNat ps.toNat ≤ 2 ^ widthOperand w
        ∧ t.relw = w ∧ t.reload.toNat = 2 ^ widthOperand w - ticks s per.toNat ps.toNat

/-- R286, R273: while an activation is on the stack no step but a power cycle changes IENABLE, IPRIO, GIE, MODE or another configuration register. -/
def Obligations.ConfigurationStillInActivation : Prop :=
  ∀ s t : State, s.stack ≠ [] → ¬ s.powerCycleDrawn → step s = .next t →
    t.ienable = s.ienable ∧ t.iprio = s.iprio ∧ t.gieh = s.gieh ∧ t.giel = s.giel ∧ t.mode = s.mode
    ∧ t.pr = s.pr ∧ t.pwps = s.pwps ∧ t.dbncfg = s.dbncfg ∧ t.lasterr = s.lasterr ∧ t.resp = s.resp

/-- The spec's own inference R70: in FG with GIEH = 0, a step of the environment or the dispatcher changes nothing but IFLAGS, ADCDATA, ADBUSY, RXLATCH, TXQ and TXOUT. -/
def Obligations.QuietWithGiehClear : Prop :=
  ∀ (s t : State) (u : Turn) (ts : List Turn), s.gieh = false → s.stack = [] → s.turns = u :: ts → u ≠ .host → u ≠ .powerCycle →
    step s = .next t →
    t = { s with iflags := t.iflags, adcdata := t.adcdata, adBusy := t.adBusy, rxbyte := t.rxbyte, rxoerr := t.rxoerr
                 rxferr := t.rxferr, txq := t.txq, txout := t.txout, evtPort := t.evtPort, turns := ts }

/-! ## All host commands -/

/-- R262: every command packet the host's turn takes off the port, malformed ones included, ends with a response and its recording: LASTERR takes
the status, a status that is not 0 comes with result 0 and sets its ERRFLAGS bit and no other, and a status 0 leaves ERRFLAGS, but for a
WRREG of ERRFLAGS itself. -/
def Obligations.CommandsAnswer : Prop :=
  ∀ (s t : State) (p : Packet) (rest : List Packet) (ts : List Turn),
    s.turns = .host :: ts → s.cmdPort = p :: rest → step s = .next t → t.cmdPort = rest →
    ∃ r : Response, t.resp = some r ∧ t.lasterr = r.status
      ∧ (r.status ≠ 0 → r.result = 0 ∧ t.errflags = s.errflags ||| (1#14 <<< r.status.toNat))
      ∧ (r.status = 0 → (∀ data, decodeCommand p ≠ .ok (.wrreg 0x01 data)) → t.errflags = s.errflags)

/-- R264: a command packet that is answered with an error, malformed ones included, writes nothing but LASTERR, ERRFLAGS, its response and, for
TCALC with C = 1, CFGFAULT. -/
def Obligations.CommandErrorsArePrecise : Prop :=
  ∀ (s t : State) (p : Packet) (rest : List Packet) (ts : List Turn),
    s.turns = .host :: ts → s.cmdPort = p :: rest → step s = .next t → t.cmdPort = rest → t.lasterr ≠ 0 →
    t = { s with turns := ts, cmdPort := rest, lasterr := t.lasterr, errflags := t.errflags, resp := t.resp, cfgFault := t.cfgFault }
    ∧ (t.cfgFault = s.cfgFault ∨ ∃ w ps per, decodeCommand p = .ok (.tcalc true w ps per))

/-- R84: with C = 0 a computing command writes no unit state. -/
def Obligations.CheckOnlyWritesNothing : Prop :=
  ∀ (i : Instr) (s t : State),
    ((∃ w ps per, i = .tcalc false w ps per) ∨ (∃ ps v, i = .pwmduty false ps v) ∨ (∃ ps v, i = .pwmangle false ps v)
      ∨ (∃ ps v, i = .svfold false ps v) ∨ ∃ v, i = .binout false v) →
    exec i s = .next t → t = { s with lasterr := t.lasterr, errflags := t.errflags, resp := t.resp }

/-- R39: a host command never changes OUT while MODE owns LED, nor DCH or DCL while MODE owns PWM. -/
def Obligations.OwnedOutputsStay : Prop :=
  ∀ (i : Instr) (s t : State), i.port = .command → exec i s = .next t →
    (¬ ledFree s → t.out = s.out) ∧ (¬ pwmFree s → t.dch = s.dch ∧ t.dcl = s.dcl)

/-- The spec's own inference R66: WRREG of a given value is idempotent: a second identical write changes nothing further. -/
def Obligations.WrregIdempotent : Prop :=
  ∀ (reg : Byte) (data : Word) (s t : State), exec (.wrreg reg data) s = .next t → exec (.wrreg reg data) t = .next t

/-- Frame of every host command: the context stack, the channels, the latches of the peripherals, the parameters and the ports stay, and
every byte of the line buffer and of the line state stays unless the command is SRST (R24, R116, R117, R264). -/
def Obligations.CommandFrame : Prop :=
  ∀ (i : Instr) (s t : State), i.port = .command → exec i s = .next t →
    t.stack = s.stack ∧ t.rxWaits = s.rxWaits ∧ t.tmrload = s.tmrload ∧ t.press = s.press ∧ t.lines = s.lines ∧ t.rxtoggle = s.rxtoggle ∧ t.txout = s.txout
    ∧ t.adcdata = s.adcdata ∧ t.rxbyte = s.rxbyte ∧ t.rxoerr = s.rxoerr ∧ t.rxferr = s.rxferr
    ∧ t.params = s.params ∧ t.cmdPort = s.cmdPort ∧ t.evtPort = s.evtPort ∧ t.turns = s.turns
    ∧ (i ≠ .srst → (∀ a, t.lbuf.peek a = s.lbuf.peek a) ∧ t.len = s.len ∧ t.lastch = s.lastch ∧ t.linecnt = s.linecnt
        ∧ t.sflast = s.sflast ∧ t.sfsmooth = s.sfsmooth ∧ t.btncnt = s.btncnt ∧ t.tmrcnt = s.tmrcnt ∧ t.armed = s.armed
        ∧ t.dbncnt = s.dbncnt ∧ t.rxrstcnt = s.rxrstcnt)
    ∧ ((∀ b, i ≠ .txbyte b) → t.txq = s.txq) ∧ (i ≠ .adstart → t.adBusy = s.adBusy)
    ∧ ((∀ reg data, i ≠ .wrreg reg data) → t.iflags = s.iflags ∧ t.ienable = s.ienable ∧ t.iprio = s.iprio ∧ t.gieh = s.gieh
        ∧ t.giel = s.giel ∧ t.mode = s.mode ∧ t.pr = s.pr ∧ t.pwps = s.pwps ∧ t.dbncfg = s.dbncfg)

/-! ## Host register access -/

/-- R112, R22: RDREG of a mapped address returns the register's fields at their bit positions and 0 elsewhere, and has no other effect. -/
def Obligations.RdregReturnsFields : Prop :=
  ∀ (s : State) (reg : Byte) (v : Nat), s.stack = [] → registerValue s reg.toNat = some v → exec (.rdreg reg) s = .next (done s v)

/-- R112, R113: an unmapped address fails with E_REGADDR, and a write to a read-only register with E_READONLY. -/
def Obligations.RegisterAccessErrors : Prop :=
  ∀ (s : State) (reg : Byte) (data : Word), s.stack = [] →
    (unmappedAddress reg.toNat = true →
      exec (.rdreg reg) s = .next (failed s 0x0A) ∧ exec (.wrreg reg data) s = .next (failed s 0x0A))
    ∧ (readOnlyAddress reg.toNat = true → exec (.wrreg reg data) s = .next (failed s 0x0B))

/-- R114: the unchecked writes of ERRFLAGS, IFLAGS, IENABLE, IPRIO, GIE and DBNCFG store the field bits and nothing else: a write of ERRFLAGS clears
exactly the flags n in 1..13 written as 1, and BTNIP stays 1. -/
def Obligations.WrregStoresFields : Prop :=
  ∀ (s : State) (data : Word), s.stack = [] →
    (∃ f : BitVec 14, exec (.wrreg 0x01 data) s = .next (done { s with errflags := f } 0)
      ∧ ∀ n : Nat, 1 ≤ n → n ≤ 13 → f.getLsbD n = (s.errflags.getLsbD n && !data.getLsbD n))
    ∧ exec (.wrreg 0x02 data) s = .next (done { s with iflags := BitVec.ofNat 4 (data.toNat % 16) } 0)
    ∧ exec (.wrreg 0x03 data) s = .next (done { s with ienable := BitVec.ofNat 4 (data.toNat % 16) } 0)
    ∧ exec (.wrreg 0x05 data) s = .next (done { s with gieh := data.getLsbD 0, giel := data.getLsbD 1 } 0)
    ∧ exec (.wrreg 0x10 data) s = .next (done { s with dbncfg := BitVec.ofNat 16 (data.toNat % 65536) } 0)
    ∧ ∃ p : BitVec 4, exec (.wrreg 0x04 data) s = .next (done { s with iprio := p } 0)
        ∧ p.getLsbD 0 = data.getLsbD 0 ∧ p.getLsbD 1 = data.getLsbD 1 ∧ p.getLsbD 2 = true ∧ p.getLsbD 3 = data.getLsbD 3

/-- R114, R115, R203: MODE 12 to 15 is refused; a new value clears the mode-local state and changes no output; the same value changes nothing. -/
def Obligations.WrregModeChangesPolicy : Prop :=
  ∀ (s : State) (data : Word), s.stack = [] →
    (12 ≤ data.toNat % 16 → exec (.wrreg 0x06 data) s = .next (failed s 0x0C))
    ∧ ∀ m : Mode, m.code.toNat = data.toNat % 16 →
        exec (.wrreg 0x06 data) s =
          .next (done (if m = s.mode then s else { s with mode := m, inc := false, zone := 0, zcnt := 0, blink := false, mstate := 0 }) 0)

/-- R114, R152: PWMPR refuses a period below the current duty, PWPS refuses 0, OUT refuses while MODE owns LED; else the field is stored. -/
def Obligations.WrregCheckedRegisters : Prop :=
  ∀ (s : State) (data : Word), s.stack = [] →
    (exec (.wrreg 0x08 data) s =
      .next (if s.dch.toNat * fineScale s + s.dcl.toNat % fineScale s ≤ (data.toNat % 256 + 1) * fineScale s
        then done { s with pr := BitVec.ofNat 8 (data.toNat % 256) } 0 else failed s 0x07))
    ∧ (exec (.wrreg 0x0B data) s =
      .next (if data.toNat % 65536 = 0 then failed s 0x03 else done { s with pwps := BitVec.ofNat 16 (data.toNat % 65536) } 0))
    ∧ (ledFree s → exec (.wrreg 0x0D data) s = .next (done { s with out := BitVec.ofNat 8 (data.toNat % 256) } 0))
    ∧ (¬ ledFree s → exec (.wrreg 0x0D data) s = .next (failed s 0x09))

/-- R116, R117: SRST sets the counters, the unit state machines and the line buffer to their reset values and leaves everything else. -/
def Obligations.SrstResetsUnits : Prop :=
  ∀ s : State, s.stack = [] →
    ∃ m : Memory, exec .srst s = .next (done { s with
        btncnt := 0, tmrcnt := 0, svang := 0, armed := false, dbncnt := 0, sflast := 0, sfsmooth := 0, inc := false, zone := 0
        zcnt := 0, blink := false, mstate := 0, len := 0, lastch := 0, linecnt := 0, rxrstcnt := 0, lbuf := m } 0)
      ∧ (∀ i, i < 64 → m.peek i = 0) ∧ ∀ i, 64 ≤ i → m.peek i = s.lbuf.peek i

/-- R111, R196, R245: NOP returns 0; ADSTART starts a conversion or fails with E_ADBUSY; TXBYTE with room appends its byte to TXQ. -/
def Obligations.NopAdstartTxbyteEffects : Prop :=
  ∀ s : State, s.stack = [] →
    exec .nop s = .next (done s 0)
    ∧ (s.adBusy = false → exec .adstart s = .next (done { s with adBusy := true } 0))
    ∧ (s.adBusy = true → exec .adstart s = .next (failed s 0x0D))
    ∧ ∀ b : Byte, s.txq.length < s.params.txqDepth → exec (.txbyte b) s = .next (done { s with txq := s.txq ++ [b] } 0)

/-! ## Timing calculator -/

/-- R132, R133: a TCALC whose count lies in 1..2^w returns 2^w − count, and with C = 1 commits it with its width. -/
def Obligations.TcalcComputesReload : Prop :=
  ∀ (s : State) (c w : Bool) (ps : BitVec 16) (per : Word), s.stack = [] → ps ≠ 0 →
    1 ≤ ticks s per.toNat ps.toNat → ticks s per.toNat ps.toNat ≤ 2 ^ (if w then 16 else 8) →
    exec (.tcalc c w ps per) s =
      .next (done (if c then { s with reload := BitVec.ofNat 16 (2 ^ (if w then 16 else 8) - ticks s per.toNat ps.toNat), relw := w } else s)
        (2 ^ (if w then 16 else 8) - ticks s per.toNat ps.toNat))

/-- R132, R134: a TCALC with prescale 0, count 0 or count above 2^w fails with its code in that order, and with C = 1 sets CFGFAULT. -/
def Obligations.TcalcRejectsUnrepresentable : Prop :=
  ∀ (s : State) (c w : Bool) (ps : BitVec 16) (per : Word), s.stack = [] →
    (ps = 0 → exec (.tcalc c w ps per) s = .next (failed { s with cfgFault := s.cfgFault || c } 0x03))
    ∧ (ps ≠ 0 → ticks s per.toNat ps.toNat = 0 →
        exec (.tcalc c w ps per) s = .next (failed { s with cfgFault := s.cfgFault || c } 0x04))
    ∧ (ps ≠ 0 → 2 ^ (if w then 16 else 8) < ticks s per.toNat ps.toNat →
        exec (.tcalc c w ps per) s = .next (failed { s with cfgFault := s.cfgFault || c } 0x05))

/-- R131, and the spec's own inference R137: for a fixed prescale and width the count never falls and `reload_exact` never rises as the period grows, not always strictly; a period is
valid exactly when its count is 1 to 2^w, which at a tick of 1/1 is the range from `ps` to `(2^w + 1) × ps − 1`. -/
def Obligations.ReloadMonotone : Prop :=
  ∀ (c : Params) (ps w : Nat), 0 < ps →
    (∀ p1 p2, p1 ≤ p2 → timerCount c p1 ps ≤ timerCount c p2 ps ∧ reloadExact c p2 ps w ≤ reloadExact c p1 ps w)
    ∧ (∀ p, tcCheck c p ps w = none ↔ 1 ≤ timerCount c p ps ∧ timerCount c p ps ≤ 2 ^ w)
    ∧ (c.tickNum = 1 → c.tickDen = 1 →
        (∀ p, tcCheck c p ps w = none ↔ ps ≤ p ∧ p ≤ (2 ^ w + 1) * ps - 1)
        ∧ (2 ≤ ps → ∃ p1 p2, p1 < p2 ∧ reloadExact c p1 ps w = reloadExact c p2 ps w))

/-- R136, R182, R183: the TMR service emits the reload, counts, ticks the debouncer and clears TMRIF; at DBNCNT ≤ 1 of an open window it presses. -/
def Obligations.TmrServiceTicks : Prop :=
  ∀ s : State, ∃ t : State, s.serve .tmr = .ok t
    ∧ t.tmrload = s.tmrload ++ [(s.reload, s.relw)] ∧ t.tmrcnt = s.tmrcnt + 1 ∧ t.iflags = s.iflags &&& 0b1110#4
    ∧ (s.armed = false → t.armed = false ∧ t.dbncnt = s.dbncnt ∧ t.btncnt = s.btncnt ∧ t.press = s.press)
    ∧ (s.armed = true → s.dbncnt.toNat ≤ 1 → t.armed = false ∧ t.dbncnt = 0 ∧ t.btncnt = s.btncnt + 1 ∧ t.press = s.press ++ [()])
    ∧ (s.armed = true → 2 ≤ s.dbncnt.toNat →
        t.armed = true ∧ t.dbncnt.toNat + 1 = s.dbncnt.toNat ∧ t.btncnt = s.btncnt ∧ t.press = s.press)
    ∧ t = { s with tmrload := t.tmrload, tmrcnt := t.tmrcnt, iflags := t.iflags, armed := t.armed, dbncnt := t.dbncnt
                   btncnt := t.btncnt, press := t.press }

/-! ## PWM -/

/-- R156, R153, R164: PWMSET of an accepted duty, with PWM not owned, splits it into DCH and DCL and returns both with the value. -/
def Obligations.PwmsetWritesDuty : Prop :=
  ∀ (s : State) (val : Word), s.stack = [] → dutyAccepted s val.toNat → pwmFree s →
    exec (.pwmset val) s = .next (done (withDuty s val.toNat) (dutyResult s val.toNat))

/-- R157: PWMDUTY computes its duty count, and with C = 1 and PWM not owned writes it. -/
def Obligations.PwmdutyComputesDuty : Prop :=
  ∀ (s : State) (c : Bool) (ps : BitVec 16) (val : Word), s.stack = [] → ps ≠ 0 →
    dutyAccepted s (ticks s val.toNat ps.toNat) → (c = true → pwmFree s) →
    exec (.pwmduty c ps val) s =
      .next (done (if c then withDuty s (ticks s val.toNat ps.toNat) else s) (dutyResult s (ticks s val.toNat ps.toNat)))

/-- R159, R155: PWMANGLE of an angle up to 180 computes the duty of its pulse, and with C = 1 and PWM not owned writes it and SVANG. -/
def Obligations.PwmangleComputesDuty : Prop :=
  ∀ (s : State) (c : Bool) (ps : BitVec 16) (val : Word), s.stack = [] → ps ≠ 0 → val.toNat ≤ 180 →
    dutyAccepted s (ticks s (450 + val.toNat * 2000 / 180) ps.toNat) → (c = true → pwmFree s) →
    exec (.pwmangle c ps val) s =
      .next (done (if c then { withDuty s (ticks s (450 + val.toNat * 2000 / 180) ps.toNat) with svang := BitVec.ofNat 8 val.toNat } else s)
        (dutyResult s (ticks s (450 + val.toNat * 2000 / 180) ps.toNat)))

/-- R161: SVFOLD returns the folded angle; with C = 1 an accepted servo write sets the duty and SVANG, with C = 0 nothing is checked. -/
def Obligations.SvfoldFoldsInput : Prop :=
  ∀ (s : State) (ps : BitVec 16) (val : Word), s.stack = [] →
    exec (.svfold false ps val) s = .next (done s (fold val.toInt))
    ∧ (ps ≠ 0 → dutyAccepted s (ticks s (450 + fold val.toInt * 2000 / 180) ps.toNat) → pwmFree s →
      exec (.svfold true ps val) s =
        .next (done { withDuty s (ticks s (450 + fold val.toInt * 2000 / 180) ps.toNat) with svang := BitVec.ofNat 8 (fold val.toInt) }
          (fold val.toInt)))

/-- R160: `fold` is 0..180; it is `i + 90` modulo 181 from −90 up, 0 at the multiples of 181 below, and elsewhere below one less than the modulus. -/
def Obligations.FoldOfInput : Prop :=
  ∀ i : Int, fold i ≤ 180
    ∧ (0 ≤ i + 90 → (fold i : Int) = (i + 90) % 181)
    ∧ (i + 90 < 0 → (i + 90) % 181 = 0 → fold i = 0)
    ∧ (i + 90 < 0 → (i + 90) % 181 ≠ 0 → (fold i : Int) = (i + 90) % 181 - 1)

/-- R263, R162: the errors of PWMSET, PWMDUTY, PWMANGLE and SVFOLD.C are reported in order: zero prescale, angle, range, period, and ownership last
and only where the command would write. -/
def Obligations.PwmErrorsInOrder : Prop :=
  ∀ (s : State) (c : Bool) (ps : BitVec 16) (val : Word), s.stack = [] →
    (ps = 0 → exec (.pwmduty c ps val) s = .next (failed s 0x03) ∧ exec (.pwmangle c ps val) s = .next (failed s 0x03)
      ∧ exec (.svfold true ps val) s = .next (failed s 0x03))
    ∧ (ps ≠ 0 → 180 < val.toNat → exec (.pwmangle c ps val) s = .next (failed s 0x08))
    ∧ ∀ e : Nat,
      (dutyError s true val.toNat = some e → exec (.pwmset val) s = .next (failed s e))
      ∧ (ps ≠ 0 → dutyError s c (ticks s val.toNat ps.toNat) = some e → exec (.pwmduty c ps val) s = .next (failed s e))
      ∧ (ps ≠ 0 → val.toNat ≤ 180 → dutyError s c (ticks s (450 + val.toNat * 2000 / 180) ps.toNat) = some e →
          exec (.pwmangle c ps val) s = .next (failed s e))
      ∧ (ps ≠ 0 → dutyError s true (ticks s (450 + fold val.toInt * 2000 / 180) ps.toNat) = some e →
          exec (.svfold true ps val) s = .next (failed s e))

/-- R151, R153, and the spec's own inference R158: `pwm_write` of a representable duty splits it into the coarse byte `v >> L` and the `L` fine bits, writes nothing else, and the
fields join to the value again; the duty count never falls as the high time grows. -/
def Obligations.DutySplitJoins : Prop :=
  ∀ s : State,
    (∀ v, v ≤ dutyTop s → (s.pwmWrite v).dch.toNat = v / fineScale s ∧ (s.pwmWrite v).dcl.toNat = v % fineScale s
      ∧ (s.pwmWrite v).duty = v ∧ s.pwmWrite v = { s with dch := (s.pwmWrite v).dch, dcl := (s.pwmWrite v).dcl })
    ∧ (∀ v, v / fineScale s * fineScale s + v % fineScale s = v)
    ∧ ∀ t1 t2 ps, t1 ≤ t2 → dutyCount s.params t1 ps ≤ dutyCount s.params t2 ps

/-! ## Events -/

/-- R135, R180, R197, R230, R247, R266: what each event writes where it is enabled, and nothing else; an event whose enabling condition is false
is not delivered, and by the model's choice its turn changes nothing (log 4). -/
def Obligations.EventsLatch : Prop :=
  ∀ s : State,
    exec .evTmr s = .next { s with iflags := s.iflags ||| 0b0001#4 }
    ∧ exec .evBtn s = .next { s with iflags := s.iflags ||| 0b0100#4 }
    ∧ (∀ x, s.adBusy = true → exec (.evAdc x) s = .next { s with adcdata := x, adBusy := false, iflags := s.iflags ||| 0b0010#4 })
    ∧ (∀ x, s.adBusy = false → exec (.evAdc x) s = .next s)
    ∧ (∀ b oe fe, s.iflags.getLsbD 3 = false →
        exec (.evRx b oe fe) s = .next { s with rxbyte := b, rxoerr := oe, rxferr := fe, iflags := s.iflags ||| 0b1000#4 })
    ∧ (∀ b oe fe, s.iflags.getLsbD 3 = true → exec (.evRx b oe fe) s = .next s)
    ∧ (∀ b rest, s.txq = b :: rest → exec .evTxtake s = .next { s with txq := rest, txout := s.txout ++ [b] })
    ∧ (s.txq = [] → exec .evTxtake s = .next s)

/-! ## Debouncer -/

/-- R181: the BTN service opens a window of DBNCFG ticks in IDLE, suppresses the edge in an open window, and clears BTNIF. From an open window
of `n` ticks (0 acts as 1), no press comes before the last of them and exactly one comes with it: the spec's own inference R185. -/
def Obligations.OnePressPerWindow : Prop :=
  ∀ (s : State) (k : Nat),
    s.serve .btn = .ok (if s.armed then { s with iflags := s.iflags &&& 0b1011#4 }
      else { s with armed := true, dbncnt := s.dbncfg, iflags := s.iflags &&& 0b1011#4 })
    ∧ (s.armed = true → k < max s.dbncnt.toNat 1 → (State.serviceTmr^[k] s).armed = true ∧ (State.serviceTmr^[k] s).press = s.press)
    ∧ (s.armed = true → k = max s.dbncnt.toNat 1 → (State.serviceTmr^[k] s).armed = false ∧ (State.serviceTmr^[k] s).press = s.press ++ [()]
        ∧ (State.serviceTmr^[k] s).btncnt = s.btncnt + 1)

/-! ## Sample filter -/

/-- R199, R200, R202: in every mode the ADC service stores the sample, the truncated mean and clears ADIF, and touches no other unit. -/
def Obligations.AdcServiceFilters : Prop :=
  ∀ s : State, ∃ t : State, s.serve .adc = .ok t
    ∧ t.sflast = s.adcdata ∧ t.sfsmooth.toNat = nextSmoothed s ∧ t.iflags = s.iflags &&& 0b1101#4
    ∧ t = { filtered s with errflags := t.errflags, dch := t.dch, dcl := t.dcl, svang := t.svang, out := t.out, inc := t.inc
                            zone := t.zone, zcnt := t.zcnt, blink := t.blink, mstate := t.mstate }
    ∧ (¬ pwmFree s ∨ (t.dch = s.dch ∧ t.dcl = s.dcl ∧ t.svang = s.svang)) ∧ (¬ ledFree s ∨ t.out = s.out)
    ∧ (s.mode = .none ∨ s.mode = .servoInput ∨ s.mode = .binaryInput → t = filtered s)

/-- R205, R207, R204: BINARY, STATE10 and STATE7 show their quantized state on OUT[3:0] and change nothing else. -/
def Obligations.QuantizersDisplayState : Prop :=
  ∀ s : State,
    (s.mode = .binary → s.serve .adc = .ok { filtered s with out := lowNibble s.out (nextSmoothed s * 15 / 1023) })
    ∧ (s.mode = .state10 → s.serve .adc = .ok { filtered s with out := lowNibble s.out (min (nextSmoothed s / 102) 9) })
    ∧ (s.mode = .state7 → s.serve .adc = .ok { filtered s with out := lowNibble s.out (min (nextSmoothed s / 146) 6) })

/-- R208: PARITY_DIR updates INC only outside the band of 5, and shows twice the state plus INC. -/
def Obligations.ParityShowsDirection : Prop :=
  ∀ s : State, s.mode = .parityDir →
    ∃ inc : Bool,
      (s.sflast.toNat + 5 < s.adcdata.toNat → inc = true) ∧ (s.adcdata.toNat + 5 < s.sflast.toNat → inc = false)
      ∧ (s.adcdata.toNat ≤ s.sflast.toNat + 5 → s.sflast.toNat ≤ s.adcdata.toNat + 5 → inc = s.inc)
      ∧ s.serve .adc = .ok { filtered s with inc := inc, out := lowNibble s.out (2 * (nextSmoothed s / 128) + inc.toNat) }

/-- The spec's own inference R211: over a run of samples each rising by more than 5, every display is odd; each falling by more than 5, every display is even. -/
def Obligations.ParityRunsKeepDirection : Prop :=
  ∀ (s : State) (x : BitVec 10) (xs : List (BitVec 10)), s.mode = .parityDir →
    ((s.sflast :: x :: xs).IsChain (fun a b => a.toNat + 5 < b.toNat) → ((x :: xs).foldl State.sampled s).display % 2 = 1)
    ∧ ((s.sflast :: x :: xs).IsChain (fun a b => b.toNat + 5 < a.toNat) → ((x :: xs).foldl State.sampled s).display % 2 = 0)

/-- R209, R210: in ZONE_BLINK the ADC service takes the zone of the smoothed value, counts on within a zone and from 0 on a change, and at the
zone's threshold restarts the count, toggles BLINK, shows it on OUT[0] and sets the duty full or 0; nothing else changes. So, the spec's own
inference R212, with the smoothed value at rest in a zone, BLINK, OUT[0] and the duty stay for THR − 1 services and toggle at the THR-th. -/
def Obligations.ZoneBlinkPeriod : Prop :=
  (∀ s : State, s.mode = .zoneBlink → s.serve .adc = .ok (
    let z := nextSmoothed s / 256
    let n := (if s.zone.toNat = z then s.zcnt.toNat else 0) + 1
    if 50 * (z + 1) ≤ n then
      { withDuty (filtered s) (if s.blink then 0 else min (period s) (dutyTop s)) with
          zone := BitVec.ofNat 2 z, zcnt := 0, blink := !s.blink, out := (s.out &&& 0xFE) ||| (if s.blink then 0 else 1) }
    else { filtered s with zone := BitVec.ofNat 2 z, zcnt := BitVec.ofNat 8 n }))
  ∧ ∀ (s : State) (x : BitVec 10) (k : Nat), s.mode = .zoneBlink → s.sflast = x → s.zone.toNat = x.toNat / 256 → s.zcnt = 0 →
    (k < 50 * (x.toNat / 256 + 1) →
      ((State.sampled · x)^[k] s).blink = s.blink ∧ ((State.sampled · x)^[k] s).out = s.out
      ∧ ((State.sampled · x)^[k] s).dch = s.dch ∧ ((State.sampled · x)^[k] s).dcl = s.dcl)
    ∧ (k = 50 * (x.toNat / 256 + 1) →
      ((State.sampled · x)^[k] s).blink = !s.blink ∧ ((State.sampled · x)^[k] s).out.getLsbD 0 = !s.blink
      ∧ ((State.sampled · x)^[k] s).zcnt = 0
      ∧ ((State.sampled · x)^[k] s).duty = if s.blink then 0 else min (period s) (dutyTop s))

/-- R214 to R217: the mappings given as parameters write the owned outputs, whatever the parameters answer (log 7), and a check that fails is
recorded in ERRFLAGS and nowhere else. -/
def Obligations.ParameterMappingsWrite : Prop :=
  ∀ s : State,
    (s.mode = .angleSample → s.serve .adc = .ok (
      let a := Config.pMapAngle (BitVec.ofNat 10 (nextSmoothed s))
      let v := ticks s (450 + a * 2000 / 180) s.pwps.toNat
      let t := filtered s
      if 180 < a then { t with errflags := s.errflags ||| (1#14 <<< 8) }
      else if dutyTop s < v then { t with errflags := s.errflags ||| (1#14 <<< 6) }
      else if period s < v then { t with errflags := s.errflags ||| (1#14 <<< 7) }
      else { withDuty t v with svang := BitVec.ofNat 8 a }))
    ∧ (s.mode = .brightSample → s.serve .adc = .ok (
      let v := Config.pMapBright (BitVec.ofNat 10 (nextSmoothed s)) (period s) (dutyTop s)
      let t := filtered s
      if dutyTop s < v then { t with errflags := s.errflags ||| (1#14 <<< 6) }
      else if period s < v then { t with errflags := s.errflags ||| (1#14 <<< 7) }
      else withDuty t v))
    ∧ (s.mode = .marquee → s.serve .adc = .ok { filtered s with
        out := (Config.pMapMarquee (BitVec.ofNat 10 (nextSmoothed s)) s.mstate).1
        mstate := (Config.pMapMarquee (BitVec.ofNat 10 (nextSmoothed s)) s.mstate).2 })
    ∧ (s.mode = .singleMarquee → s.serve .adc = .ok { filtered s with
        out := (Config.pMapSingle (BitVec.ofNat 10 (nextSmoothed s)) s.mstate).1
        mstate := (Config.pMapSingle (BitVec.ofNat 10 (nextSmoothed s)) s.mstate).2 })

/-- R219: BINOUT clamps its signed input to 0..15; with C = 1 it writes OUT[3:0], or fails with E_OWNER where MODE owns LED. -/
def Obligations.BinoutClampsInput : Prop :=
  ∀ (s : State) (c : Bool) (val : Word) (v : Nat), s.stack = [] →
    (val.toInt < 0 → v = 0) → (15 < val.toInt → v = 15) → (0 ≤ val.toInt → val.toInt ≤ 15 → (v : Int) = val.toInt) →
    ((c = true → ledFree s) → exec (.binout c val) s = .next (done (if c then { s with out := lowNibble s.out v } else s) v))
    ∧ (c = true → ¬ ledFree s → exec (.binout c val) s = .next (failed s 0x09))

/-! ## Serial line -/

/-- R235, R236, R239: DEL on a held line, a terminator that ends a line, and an ordinary byte with room: line, buffer bytes and echo. -/
def Obligations.RxServiceEditsLine : Prop :=
  ∀ s : State, s.rxferr = false → s.len.toNat ≤ 63 → s.lbuf.wf = true →
    (s.rxbyte = 0x7F → s.len ≠ 0 →
      ∃ m : Memory, s.serve .rx = .ok (rxEnd s { afterOverrun s with len := s.len - 1, lbuf := m, txq := s.txq ++ [0x08, 0x20, 0x08] })
        ∧ ∀ i, m.peek i = if i + 1 = s.len.toNat then 0 else s.lbuf.peek i)
    ∧ (s.rxbyte = 0x0D ∨ (s.rxbyte = 0x0A ∧ ¬ (s.len = 0 ∧ s.lastch = 0x0D)) →
      ∃ m : Memory, s.serve .rx = .ok (rxEnd s { afterOverrun s with
          lines := s.lines ++ [heldLine s], linecnt := s.linecnt + 1, len := 0, lbuf := m, txq := s.txq ++ [s.rxbyte] })
        ∧ ∀ i, m.peek i = if i < s.len.toNat then 0 else s.lbuf.peek i)
    ∧ (ordinaryByte s.rxbyte = true → s.len.toNat < 63 →
      ∃ m : Memory, s.serve .rx = .ok (rxEnd s { afterOverrun s with len := s.len + 1, lbuf := m, txq := s.txq ++ [s.rxbyte] })
        ∧ ∀ i, m.peek i = if i = s.len.toNat then s.rxbyte else s.lbuf.peek i)

/-- R233, R235, R237, R238, R239: a framing error, DEL on an empty line, the LF of a CRLF pair, 0xFF, and a byte past the 63rd leave the
line, the buffer and TXQ as they are; only the last character, the overrun toggle and the flags change. -/
def Obligations.RxServiceIgnores : Prop :=
  ∀ s : State,
    (s.rxferr = true → s.serve .rx = .ok (rxEnd s (afterOverrun s)))
    ∧ (s.rxferr = false → s.rxbyte = 0x7F → s.len = 0 → s.serve .rx = .ok (rxEnd s (afterOverrun s)))
    ∧ (s.rxferr = false → s.rxbyte = 0x0A → s.len = 0 → s.lastch = 0x0D → s.serve .rx = .ok (rxEnd s (afterOverrun s)))
    ∧ (s.rxferr = false → s.rxbyte = 0xFF → s.serve .rx = .ok (rxEnd s (afterOverrun s)))
    ∧ (s.rxferr = false → ordinaryByte s.rxbyte = true → 63 ≤ s.len.toNat → s.serve .rx = .ok (rxEnd s (afterOverrun s)))

/-- The spec's own inference R243: N ordinary bytes into an empty line and then DEL leave LEN = min(N, 63) − 1, and 0 for N = 0. -/
def Obligations.BackspaceProperty : Prop :=
  ∀ (s : State) (bs : List Byte), s.len = 0 → (∀ b ∈ bs, ordinaryByte b = true) →
    ∃ t : State, s.receivedAll (bs ++ [0x7F]) = .ok t ∧ t.len.toNat = min bs.length 63 - 1

/-- R236, R239, and the spec's own inference R244: up to 63 ordinary bytes into an empty line, then CR and LF, give exactly one LINES element, those bytes in order,
echoed once with the CR; the LF adds nothing, and the buffer is clear. -/
def Obligations.LineIsDelivered : Prop :=
  ∀ (s : State) (bs : List Byte), s.len = 0 → s.lbuf = [] → bs.length ≤ 63 → (∀ b ∈ bs, ordinaryByte b = true) →
    ∃ t : State, s.receivedAll (bs ++ [0x0D, 0x0A]) = .ok t ∧ t.lines = s.lines ++ [bs] ∧ t.linecnt = s.linecnt + 1
      ∧ t.txq = s.txq ++ bs ++ [0x0D] ∧ t.len = 0 ∧ t.lbuf = [] ∧ t.lastch = 0x0A
end

