-- ==== Sys2Proof/Laws/State.lean ====
section
/-! SUPPORT. What every named update of State does to every field: one lemma per field per update, so that no proof unfolds a record update. -/

namespace Sys2Proof.Machine

/-! ## succeed -/

@[simp] theorem State.succeed_lasterr (s : State) (r : Word) : (s.succeed r).lasterr = 0x00 := rfl
@[simp] theorem State.succeed_cfgFault (s : State) (r : Word) : (s.succeed r).cfgFault = s.cfgFault := rfl
@[simp] theorem State.succeed_adBusy (s : State) (r : Word) : (s.succeed r).adBusy = s.adBusy := rfl
@[simp] theorem State.succeed_errflags (s : State) (r : Word) : (s.succeed r).errflags = s.errflags := rfl
@[simp] theorem State.succeed_iflags (s : State) (r : Word) : (s.succeed r).iflags = s.iflags := rfl
@[simp] theorem State.succeed_ienable (s : State) (r : Word) : (s.succeed r).ienable = s.ienable := rfl
@[simp] theorem State.succeed_iprio (s : State) (r : Word) : (s.succeed r).iprio = s.iprio := rfl
@[simp] theorem State.succeed_gieh (s : State) (r : Word) : (s.succeed r).gieh = s.gieh := rfl
@[simp] theorem State.succeed_giel (s : State) (r : Word) : (s.succeed r).giel = s.giel := rfl
@[simp] theorem State.succeed_mode (s : State) (r : Word) : (s.succeed r).mode = s.mode := rfl
@[simp] theorem State.succeed_reload (s : State) (r : Word) : (s.succeed r).reload = s.reload := rfl
@[simp] theorem State.succeed_relw (s : State) (r : Word) : (s.succeed r).relw = s.relw := rfl
@[simp] theorem State.succeed_pr (s : State) (r : Word) : (s.succeed r).pr = s.pr := rfl
@[simp] theorem State.succeed_dch (s : State) (r : Word) : (s.succeed r).dch = s.dch := rfl
@[simp] theorem State.succeed_dcl (s : State) (r : Word) : (s.succeed r).dcl = s.dcl := rfl
@[simp] theorem State.succeed_pwps (s : State) (r : Word) : (s.succeed r).pwps = s.pwps := rfl
@[simp] theorem State.succeed_svang (s : State) (r : Word) : (s.succeed r).svang = s.svang := rfl
@[simp] theorem State.succeed_out (s : State) (r : Word) : (s.succeed r).out = s.out := rfl
@[simp] theorem State.succeed_btncnt (s : State) (r : Word) : (s.succeed r).btncnt = s.btncnt := rfl
@[simp] theorem State.succeed_tmrcnt (s : State) (r : Word) : (s.succeed r).tmrcnt = s.tmrcnt := rfl
@[simp] theorem State.succeed_dbncfg (s : State) (r : Word) : (s.succeed r).dbncfg = s.dbncfg := rfl
@[simp] theorem State.succeed_dbncnt (s : State) (r : Word) : (s.succeed r).dbncnt = s.dbncnt := rfl
@[simp] theorem State.succeed_armed (s : State) (r : Word) : (s.succeed r).armed = s.armed := rfl
@[simp] theorem State.succeed_sflast (s : State) (r : Word) : (s.succeed r).sflast = s.sflast := rfl
@[simp] theorem State.succeed_sfsmooth (s : State) (r : Word) : (s.succeed r).sfsmooth = s.sfsmooth := rfl
@[simp] theorem State.succeed_inc (s : State) (r : Word) : (s.succeed r).inc = s.inc := rfl
@[simp] theorem State.succeed_zone (s : State) (r : Word) : (s.succeed r).zone = s.zone := rfl
@[simp] theorem State.succeed_zcnt (s : State) (r : Word) : (s.succeed r).zcnt = s.zcnt := rfl
@[simp] theorem State.succeed_blink (s : State) (r : Word) : (s.succeed r).blink = s.blink := rfl
@[simp] theorem State.succeed_mstate (s : State) (r : Word) : (s.succeed r).mstate = s.mstate := rfl
@[simp] theorem State.succeed_len (s : State) (r : Word) : (s.succeed r).len = s.len := rfl
@[simp] theorem State.succeed_lastch (s : State) (r : Word) : (s.succeed r).lastch = s.lastch := rfl
@[simp] theorem State.succeed_linecnt (s : State) (r : Word) : (s.succeed r).linecnt = s.linecnt := rfl
@[simp] theorem State.succeed_rxbyte (s : State) (r : Word) : (s.succeed r).rxbyte = s.rxbyte := rfl
@[simp] theorem State.succeed_rxoerr (s : State) (r : Word) : (s.succeed r).rxoerr = s.rxoerr := rfl
@[simp] theorem State.succeed_rxferr (s : State) (r : Word) : (s.succeed r).rxferr = s.rxferr := rfl
@[simp] theorem State.succeed_adcdata (s : State) (r : Word) : (s.succeed r).adcdata = s.adcdata := rfl
@[simp] theorem State.succeed_rxrstcnt (s : State) (r : Word) : (s.succeed r).rxrstcnt = s.rxrstcnt := rfl
@[simp] theorem State.succeed_lbuf (s : State) (r : Word) : (s.succeed r).lbuf = s.lbuf := rfl
@[simp] theorem State.succeed_stack (s : State) (r : Word) : (s.succeed r).stack = s.stack := rfl
@[simp] theorem State.succeed_rxWaits (s : State) (r : Word) : (s.succeed r).rxWaits = s.rxWaits := rfl
@[simp] theorem State.succeed_txq (s : State) (r : Word) : (s.succeed r).txq = s.txq := rfl
@[simp] theorem State.succeed_tmrload (s : State) (r : Word) : (s.succeed r).tmrload = s.tmrload := rfl
@[simp] theorem State.succeed_press (s : State) (r : Word) : (s.succeed r).press = s.press := rfl
@[simp] theorem State.succeed_lines (s : State) (r : Word) : (s.succeed r).lines = s.lines := rfl
@[simp] theorem State.succeed_rxtoggle (s : State) (r : Word) : (s.succeed r).rxtoggle = s.rxtoggle := rfl
@[simp] theorem State.succeed_txout (s : State) (r : Word) : (s.succeed r).txout = s.txout := rfl
@[simp] theorem State.succeed_resp (s : State) (r : Word) : (s.succeed r).resp = some { status := 0x00, result := r } := rfl
@[simp] theorem State.succeed_params (s : State) (r : Word) : (s.succeed r).params = s.params := rfl
@[simp] theorem State.succeed_cmdPort (s : State) (r : Word) : (s.succeed r).cmdPort = s.cmdPort := rfl
@[simp] theorem State.succeed_evtPort (s : State) (r : Word) : (s.succeed r).evtPort = s.evtPort := rfl
@[simp] theorem State.succeed_turns (s : State) (r : Word) : (s.succeed r).turns = s.turns := rfl

/-! ## raise -/

@[simp] theorem State.raise_lasterr (s : State) (e : Err) : (s.raise e).lasterr = e.code := rfl
@[simp] theorem State.raise_cfgFault (s : State) (e : Err) : (s.raise e).cfgFault = s.cfgFault := rfl
@[simp] theorem State.raise_adBusy (s : State) (e : Err) : (s.raise e).adBusy = s.adBusy := rfl
@[simp] theorem State.raise_errflags (s : State) (e : Err) : (s.raise e).errflags = flagsWith s.errflags e := rfl
@[simp] theorem State.raise_iflags (s : State) (e : Err) : (s.raise e).iflags = s.iflags := rfl
@[simp] theorem State.raise_ienable (s : State) (e : Err) : (s.raise e).ienable = s.ienable := rfl
@[simp] theorem State.raise_iprio (s : State) (e : Err) : (s.raise e).iprio = s.iprio := rfl
@[simp] theorem State.raise_gieh (s : State) (e : Err) : (s.raise e).gieh = s.gieh := rfl
@[simp] theorem State.raise_giel (s : State) (e : Err) : (s.raise e).giel = s.giel := rfl
@[simp] theorem State.raise_mode (s : State) (e : Err) : (s.raise e).mode = s.mode := rfl
@[simp] theorem State.raise_reload (s : State) (e : Err) : (s.raise e).reload = s.reload := rfl
@[simp] theorem State.raise_relw (s : State) (e : Err) : (s.raise e).relw = s.relw := rfl
@[simp] theorem State.raise_pr (s : State) (e : Err) : (s.raise e).pr = s.pr := rfl
@[simp] theorem State.raise_dch (s : State) (e : Err) : (s.raise e).dch = s.dch := rfl
@[simp] theorem State.raise_dcl (s : State) (e : Err) : (s.raise e).dcl = s.dcl := rfl
@[simp] theorem State.raise_pwps (s : State) (e : Err) : (s.raise e).pwps = s.pwps := rfl
@[simp] theorem State.raise_svang (s : State) (e : Err) : (s.raise e).svang = s.svang := rfl
@[simp] theorem State.raise_out (s : State) (e : Err) : (s.raise e).out = s.out := rfl
@[simp] theorem State.raise_btncnt (s : State) (e : Err) : (s.raise e).btncnt = s.btncnt := rfl
@[simp] theorem State.raise_tmrcnt (s : State) (e : Err) : (s.raise e).tmrcnt = s.tmrcnt := rfl
@[simp] theorem State.raise_dbncfg (s : State) (e : Err) : (s.raise e).dbncfg = s.dbncfg := rfl
@[simp] theorem State.raise_dbncnt (s : State) (e : Err) : (s.raise e).dbncnt = s.dbncnt := rfl
@[simp] theorem State.raise_armed (s : State) (e : Err) : (s.raise e).armed = s.armed := rfl
@[simp] theorem State.raise_sflast (s : State) (e : Err) : (s.raise e).sflast = s.sflast := rfl
@[simp] theorem State.raise_sfsmooth (s : State) (e : Err) : (s.raise e).sfsmooth = s.sfsmooth := rfl
@[simp] theorem State.raise_inc (s : State) (e : Err) : (s.raise e).inc = s.inc := rfl
@[simp] theorem State.raise_zone (s : State) (e : Err) : (s.raise e).zone = s.zone := rfl
@[simp] theorem State.raise_zcnt (s : State) (e : Err) : (s.raise e).zcnt = s.zcnt := rfl
@[simp] theorem State.raise_blink (s : State) (e : Err) : (s.raise e).blink = s.blink := rfl
@[simp] theorem State.raise_mstate (s : State) (e : Err) : (s.raise e).mstate = s.mstate := rfl
@[simp] theorem State.raise_len (s : State) (e : Err) : (s.raise e).len = s.len := rfl
@[simp] theorem State.raise_lastch (s : State) (e : Err) : (s.raise e).lastch = s.lastch := rfl
@[simp] theorem State.raise_linecnt (s : State) (e : Err) : (s.raise e).linecnt = s.linecnt := rfl
@[simp] theorem State.raise_rxbyte (s : State) (e : Err) : (s.raise e).rxbyte = s.rxbyte := rfl
@[simp] theorem State.raise_rxoerr (s : State) (e : Err) : (s.raise e).rxoerr = s.rxoerr := rfl
@[simp] theorem State.raise_rxferr (s : State) (e : Err) : (s.raise e).rxferr = s.rxferr := rfl
@[simp] theorem State.raise_adcdata (s : State) (e : Err) : (s.raise e).adcdata = s.adcdata := rfl
@[simp] theorem State.raise_rxrstcnt (s : State) (e : Err) : (s.raise e).rxrstcnt = s.rxrstcnt := rfl
@[simp] theorem State.raise_lbuf (s : State) (e : Err) : (s.raise e).lbuf = s.lbuf := rfl
@[simp] theorem State.raise_stack (s : State) (e : Err) : (s.raise e).stack = s.stack := rfl
@[simp] theorem State.raise_rxWaits (s : State) (e : Err) : (s.raise e).rxWaits = s.rxWaits := rfl
@[simp] theorem State.raise_txq (s : State) (e : Err) : (s.raise e).txq = s.txq := rfl
@[simp] theorem State.raise_tmrload (s : State) (e : Err) : (s.raise e).tmrload = s.tmrload := rfl
@[simp] theorem State.raise_press (s : State) (e : Err) : (s.raise e).press = s.press := rfl
@[simp] theorem State.raise_lines (s : State) (e : Err) : (s.raise e).lines = s.lines := rfl
@[simp] theorem State.raise_rxtoggle (s : State) (e : Err) : (s.raise e).rxtoggle = s.rxtoggle := rfl
@[simp] theorem State.raise_txout (s : State) (e : Err) : (s.raise e).txout = s.txout := rfl
@[simp] theorem State.raise_resp (s : State) (e : Err) : (s.raise e).resp = some { status := e.code, result := 0 } := rfl
@[simp] theorem State.raise_params (s : State) (e : Err) : (s.raise e).params = s.params := rfl
@[simp] theorem State.raise_cmdPort (s : State) (e : Err) : (s.raise e).cmdPort = s.cmdPort := rfl
@[simp] theorem State.raise_evtPort (s : State) (e : Err) : (s.raise e).evtPort = s.evtPort := rfl
@[simp] theorem State.raise_turns (s : State) (e : Err) : (s.raise e).turns = s.turns := rfl

/-! ## record -/

@[simp] theorem State.record_lasterr (s : State) (e : Err) : (s.record e).lasterr = s.lasterr := rfl
@[simp] theorem State.record_cfgFault (s : State) (e : Err) : (s.record e).cfgFault = s.cfgFault := rfl
@[simp] theorem State.record_adBusy (s : State) (e : Err) : (s.record e).adBusy = s.adBusy := rfl
@[simp] theorem State.record_errflags (s : State) (e : Err) : (s.record e).errflags = flagsWith s.errflags e := rfl
@[simp] theorem State.record_iflags (s : State) (e : Err) : (s.record e).iflags = s.iflags := rfl
@[simp] theorem State.record_ienable (s : State) (e : Err) : (s.record e).ienable = s.ienable := rfl
@[simp] theorem State.record_iprio (s : State) (e : Err) : (s.record e).iprio = s.iprio := rfl
@[simp] theorem State.record_gieh (s : State) (e : Err) : (s.record e).gieh = s.gieh := rfl
@[simp] theorem State.record_giel (s : State) (e : Err) : (s.record e).giel = s.giel := rfl
@[simp] theorem State.record_mode (s : State) (e : Err) : (s.record e).mode = s.mode := rfl
@[simp] theorem State.record_reload (s : State) (e : Err) : (s.record e).reload = s.reload := rfl
@[simp] theorem State.record_relw (s : State) (e : Err) : (s.record e).relw = s.relw := rfl
@[simp] theorem State.record_pr (s : State) (e : Err) : (s.record e).pr = s.pr := rfl
@[simp] theorem State.record_dch (s : State) (e : Err) : (s.record e).dch = s.dch := rfl
@[simp] theorem State.record_dcl (s : State) (e : Err) : (s.record e).dcl = s.dcl := rfl
@[simp] theorem State.record_pwps (s : State) (e : Err) : (s.record e).pwps = s.pwps := rfl
@[simp] theorem State.record_svang (s : State) (e : Err) : (s.record e).svang = s.svang := rfl
@[simp] theorem State.record_out (s : State) (e : Err) : (s.record e).out = s.out := rfl
@[simp] theorem State.record_btncnt (s : State) (e : Err) : (s.record e).btncnt = s.btncnt := rfl
@[simp] theorem State.record_tmrcnt (s : State) (e : Err) : (s.record e).tmrcnt = s.tmrcnt := rfl
@[simp] theorem State.record_dbncfg (s : State) (e : Err) : (s.record e).dbncfg = s.dbncfg := rfl
@[simp] theorem State.record_dbncnt (s : State) (e : Err) : (s.record e).dbncnt = s.dbncnt := rfl
@[simp] theorem State.record_armed (s : State) (e : Err) : (s.record e).armed = s.armed := rfl
@[simp] theorem State.record_sflast (s : State) (e : Err) : (s.record e).sflast = s.sflast := rfl
@[simp] theorem State.record_sfsmooth (s : State) (e : Err) : (s.record e).sfsmooth = s.sfsmooth := rfl
@[simp] theorem State.record_inc (s : State) (e : Err) : (s.record e).inc = s.inc := rfl
@[simp] theorem State.record_zone (s : State) (e : Err) : (s.record e).zone = s.zone := rfl
@[simp] theorem State.record_zcnt (s : State) (e : Err) : (s.record e).zcnt = s.zcnt := rfl
@[simp] theorem State.record_blink (s : State) (e : Err) : (s.record e).blink = s.blink := rfl
@[simp] theorem State.record_mstate (s : State) (e : Err) : (s.record e).mstate = s.mstate := rfl
@[simp] theorem State.record_len (s : State) (e : Err) : (s.record e).len = s.len := rfl
@[simp] theorem State.record_lastch (s : State) (e : Err) : (s.record e).lastch = s.lastch := rfl
@[simp] theorem State.record_linecnt (s : State) (e : Err) : (s.record e).linecnt = s.linecnt := rfl
@[simp] theorem State.record_rxbyte (s : State) (e : Err) : (s.record e).rxbyte = s.rxbyte := rfl
@[simp] theorem State.record_rxoerr (s : State) (e : Err) : (s.record e).rxoerr = s.rxoerr := rfl
@[simp] theorem State.record_rxferr (s : State) (e : Err) : (s.record e).rxferr = s.rxferr := rfl
@[simp] theorem State.record_adcdata (s : State) (e : Err) : (s.record e).adcdata = s.adcdata := rfl
@[simp] theorem State.record_rxrstcnt (s : State) (e : Err) : (s.record e).rxrstcnt = s.rxrstcnt := rfl
@[simp] theorem State.record_lbuf (s : State) (e : Err) : (s.record e).lbuf = s.lbuf := rfl
@[simp] theorem State.record_stack (s : State) (e : Err) : (s.record e).stack = s.stack := rfl
@[simp] theorem State.record_rxWaits (s : State) (e : Err) : (s.record e).rxWaits = s.rxWaits := rfl
@[simp] theorem State.record_txq (s : State) (e : Err) : (s.record e).txq = s.txq := rfl
@[simp] theorem State.record_tmrload (s : State) (e : Err) : (s.record e).tmrload = s.tmrload := rfl
@[simp] theorem State.record_press (s : State) (e : Err) : (s.record e).press = s.press := rfl
@[simp] theorem State.record_lines (s : State) (e : Err) : (s.record e).lines = s.lines := rfl
@[simp] theorem State.record_rxtoggle (s : State) (e : Err) : (s.record e).rxtoggle = s.rxtoggle := rfl
@[simp] theorem State.record_txout (s : State) (e : Err) : (s.record e).txout = s.txout := rfl
@[simp] theorem State.record_resp (s : State) (e : Err) : (s.record e).resp = s.resp := rfl
@[simp] theorem State.record_params (s : State) (e : Err) : (s.record e).params = s.params := rfl
@[simp] theorem State.record_cmdPort (s : State) (e : Err) : (s.record e).cmdPort = s.cmdPort := rfl
@[simp] theorem State.record_evtPort (s : State) (e : Err) : (s.record e).evtPort = s.evtPort := rfl
@[simp] theorem State.record_turns (s : State) (e : Err) : (s.record e).turns = s.turns := rfl

/-! ## setPending -/

@[simp] theorem State.setPending_lasterr (s : State) (x : Src) : (s.setPending x).lasterr = s.lasterr := rfl
@[simp] theorem State.setPending_cfgFault (s : State) (x : Src) : (s.setPending x).cfgFault = s.cfgFault := rfl
@[simp] theorem State.setPending_adBusy (s : State) (x : Src) : (s.setPending x).adBusy = s.adBusy := rfl
@[simp] theorem State.setPending_errflags (s : State) (x : Src) : (s.setPending x).errflags = s.errflags := rfl
@[simp] theorem State.setPending_iflags (s : State) (x : Src) : (s.setPending x).iflags = s.iflags ||| (1#4 <<< x.index) := rfl
@[simp] theorem State.setPending_ienable (s : State) (x : Src) : (s.setPending x).ienable = s.ienable := rfl
@[simp] theorem State.setPending_iprio (s : State) (x : Src) : (s.setPending x).iprio = s.iprio := rfl
@[simp] theorem State.setPending_gieh (s : State) (x : Src) : (s.setPending x).gieh = s.gieh := rfl
@[simp] theorem State.setPending_giel (s : State) (x : Src) : (s.setPending x).giel = s.giel := rfl
@[simp] theorem State.setPending_mode (s : State) (x : Src) : (s.setPending x).mode = s.mode := rfl
@[simp] theorem State.setPending_reload (s : State) (x : Src) : (s.setPending x).reload = s.reload := rfl
@[simp] theorem State.setPending_relw (s : State) (x : Src) : (s.setPending x).relw = s.relw := rfl
@[simp] theorem State.setPending_pr (s : State) (x : Src) : (s.setPending x).pr = s.pr := rfl
@[simp] theorem State.setPending_dch (s : State) (x : Src) : (s.setPending x).dch = s.dch := rfl
@[simp] theorem State.setPending_dcl (s : State) (x : Src) : (s.setPending x).dcl = s.dcl := rfl
@[simp] theorem State.setPending_pwps (s : State) (x : Src) : (s.setPending x).pwps = s.pwps := rfl
@[simp] theorem State.setPending_svang (s : State) (x : Src) : (s.setPending x).svang = s.svang := rfl
@[simp] theorem State.setPending_out (s : State) (x : Src) : (s.setPending x).out = s.out := rfl
@[simp] theorem State.setPending_btncnt (s : State) (x : Src) : (s.setPending x).btncnt = s.btncnt := rfl
@[simp] theorem State.setPending_tmrcnt (s : State) (x : Src) : (s.setPending x).tmrcnt = s.tmrcnt := rfl
@[simp] theorem State.setPending_dbncfg (s : State) (x : Src) : (s.setPending x).dbncfg = s.dbncfg := rfl
@[simp] theorem State.setPending_dbncnt (s : State) (x : Src) : (s.setPending x).dbncnt = s.dbncnt := rfl
@[simp] theorem State.setPending_armed (s : State) (x : Src) : (s.setPending x).armed = s.armed := rfl
@[simp] theorem State.setPending_sflast (s : State) (x : Src) : (s.setPending x).sflast = s.sflast := rfl
@[simp] theorem State.setPending_sfsmooth (s : State) (x : Src) : (s.setPending x).sfsmooth = s.sfsmooth := rfl
@[simp] theorem State.setPending_inc (s : State) (x : Src) : (s.setPending x).inc = s.inc := rfl
@[simp] theorem State.setPending_zone (s : State) (x : Src) : (s.setPending x).zone = s.zone := rfl
@[simp] theorem State.setPending_zcnt (s : State) (x : Src) : (s.setPending x).zcnt = s.zcnt := rfl
@[simp] theorem State.setPending_blink (s : State) (x : Src) : (s.setPending x).blink = s.blink := rfl
@[simp] theorem State.setPending_mstate (s : State) (x : Src) : (s.setPending x).mstate = s.mstate := rfl
@[simp] theorem State.setPending_len (s : State) (x : Src) : (s.setPending x).len = s.len := rfl
@[simp] theorem State.setPending_lastch (s : State) (x : Src) : (s.setPending x).lastch = s.lastch := rfl
@[simp] theorem State.setPending_linecnt (s : State) (x : Src) : (s.setPending x).linecnt = s.linecnt := rfl
@[simp] theorem State.setPending_rxbyte (s : State) (x : Src) : (s.setPending x).rxbyte = s.rxbyte := rfl
@[simp] theorem State.setPending_rxoerr (s : State) (x : Src) : (s.setPending x).rxoerr = s.rxoerr := rfl
@[simp] theorem State.setPending_rxferr (s : State) (x : Src) : (s.setPending x).rxferr = s.rxferr := rfl
@[simp] theorem State.setPending_adcdata (s : State) (x : Src) : (s.setPending x).adcdata = s.adcdata := rfl
@[simp] theorem State.setPending_rxrstcnt (s : State) (x : Src) : (s.setPending x).rxrstcnt = s.rxrstcnt := rfl
@[simp] theorem State.setPending_lbuf (s : State) (x : Src) : (s.setPending x).lbuf = s.lbuf := rfl
@[simp] theorem State.setPending_stack (s : State) (x : Src) : (s.setPending x).stack = s.stack := rfl
@[simp] theorem State.setPending_rxWaits (s : State) (x : Src) : (s.setPending x).rxWaits = s.rxWaits := rfl
@[simp] theorem State.setPending_txq (s : State) (x : Src) : (s.setPending x).txq = s.txq := rfl
@[simp] theorem State.setPending_tmrload (s : State) (x : Src) : (s.setPending x).tmrload = s.tmrload := rfl
@[simp] theorem State.setPending_press (s : State) (x : Src) : (s.setPending x).press = s.press := rfl
@[simp] theorem State.setPending_lines (s : State) (x : Src) : (s.setPending x).lines = s.lines := rfl
@[simp] theorem State.setPending_rxtoggle (s : State) (x : Src) : (s.setPending x).rxtoggle = s.rxtoggle := rfl
@[simp] theorem State.setPending_txout (s : State) (x : Src) : (s.setPending x).txout = s.txout := rfl
@[simp] theorem State.setPending_resp (s : State) (x : Src) : (s.setPending x).resp = s.resp := rfl
@[simp] theorem State.setPending_params (s : State) (x : Src) : (s.setPending x).params = s.params := rfl
@[simp] theorem State.setPending_cmdPort (s : State) (x : Src) : (s.setPending x).cmdPort = s.cmdPort := rfl
@[simp] theorem State.setPending_evtPort (s : State) (x : Src) : (s.setPending x).evtPort = s.evtPort := rfl
@[simp] theorem State.setPending_turns (s : State) (x : Src) : (s.setPending x).turns = s.turns := rfl

/-! ## clearPending -/

@[simp] theorem State.clearPending_lasterr (s : State) (x : Src) : (s.clearPending x).lasterr = s.lasterr := rfl
@[simp] theorem State.clearPending_cfgFault (s : State) (x : Src) : (s.clearPending x).cfgFault = s.cfgFault := rfl
@[simp] theorem State.clearPending_adBusy (s : State) (x : Src) : (s.clearPending x).adBusy = s.adBusy := rfl
@[simp] theorem State.clearPending_errflags (s : State) (x : Src) : (s.clearPending x).errflags = s.errflags := rfl
@[simp] theorem State.clearPending_iflags (s : State) (x : Src) : (s.clearPending x).iflags = s.iflags &&& ~~~(1#4 <<< x.index) := rfl
@[simp] theorem State.clearPending_ienable (s : State) (x : Src) : (s.clearPending x).ienable = s.ienable := rfl
@[simp] theorem State.clearPending_iprio (s : State) (x : Src) : (s.clearPending x).iprio = s.iprio := rfl
@[simp] theorem State.clearPending_gieh (s : State) (x : Src) : (s.clearPending x).gieh = s.gieh := rfl
@[simp] theorem State.clearPending_giel (s : State) (x : Src) : (s.clearPending x).giel = s.giel := rfl
@[simp] theorem State.clearPending_mode (s : State) (x : Src) : (s.clearPending x).mode = s.mode := rfl
@[simp] theorem State.clearPending_reload (s : State) (x : Src) : (s.clearPending x).reload = s.reload := rfl
@[simp] theorem State.clearPending_relw (s : State) (x : Src) : (s.clearPending x).relw = s.relw := rfl
@[simp] theorem State.clearPending_pr (s : State) (x : Src) : (s.clearPending x).pr = s.pr := rfl
@[simp] theorem State.clearPending_dch (s : State) (x : Src) : (s.clearPending x).dch = s.dch := rfl
@[simp] theorem State.clearPending_dcl (s : State) (x : Src) : (s.clearPending x).dcl = s.dcl := rfl
@[simp] theorem State.clearPending_pwps (s : State) (x : Src) : (s.clearPending x).pwps = s.pwps := rfl
@[simp] theorem State.clearPending_svang (s : State) (x : Src) : (s.clearPending x).svang = s.svang := rfl
@[simp] theorem State.clearPending_out (s : State) (x : Src) : (s.clearPending x).out = s.out := rfl
@[simp] theorem State.clearPending_btncnt (s : State) (x : Src) : (s.clearPending x).btncnt = s.btncnt := rfl
@[simp] theorem State.clearPending_tmrcnt (s : State) (x : Src) : (s.clearPending x).tmrcnt = s.tmrcnt := rfl
@[simp] theorem State.clearPending_dbncfg (s : State) (x : Src) : (s.clearPending x).dbncfg = s.dbncfg := rfl
@[simp] theorem State.clearPending_dbncnt (s : State) (x : Src) : (s.clearPending x).dbncnt = s.dbncnt := rfl
@[simp] theorem State.clearPending_armed (s : State) (x : Src) : (s.clearPending x).armed = s.armed := rfl
@[simp] theorem State.clearPending_sflast (s : State) (x : Src) : (s.clearPending x).sflast = s.sflast := rfl
@[simp] theorem State.clearPending_sfsmooth (s : State) (x : Src) : (s.clearPending x).sfsmooth = s.sfsmooth := rfl
@[simp] theorem State.clearPending_inc (s : State) (x : Src) : (s.clearPending x).inc = s.inc := rfl
@[simp] theorem State.clearPending_zone (s : State) (x : Src) : (s.clearPending x).zone = s.zone := rfl
@[simp] theorem State.clearPending_zcnt (s : State) (x : Src) : (s.clearPending x).zcnt = s.zcnt := rfl
@[simp] theorem State.clearPending_blink (s : State) (x : Src) : (s.clearPending x).blink = s.blink := rfl
@[simp] theorem State.clearPending_mstate (s : State) (x : Src) : (s.clearPending x).mstate = s.mstate := rfl
@[simp] theorem State.clearPending_len (s : State) (x : Src) : (s.clearPending x).len = s.len := rfl
@[simp] theorem State.clearPending_lastch (s : State) (x : Src) : (s.clearPending x).lastch = s.lastch := rfl
@[simp] theorem State.clearPending_linecnt (s : State) (x : Src) : (s.clearPending x).linecnt = s.linecnt := rfl
@[simp] theorem State.clearPending_rxbyte (s : State) (x : Src) : (s.clearPending x).rxbyte = s.rxbyte := rfl
@[simp] theorem State.clearPending_rxoerr (s : State) (x : Src) : (s.clearPending x).rxoerr = s.rxoerr := rfl
@[simp] theorem State.clearPending_rxferr (s : State) (x : Src) : (s.clearPending x).rxferr = s.rxferr := rfl
@[simp] theorem State.clearPending_adcdata (s : State) (x : Src) : (s.clearPending x).adcdata = s.adcdata := rfl
@[simp] theorem State.clearPending_rxrstcnt (s : State) (x : Src) : (s.clearPending x).rxrstcnt = s.rxrstcnt := rfl
@[simp] theorem State.clearPending_lbuf (s : State) (x : Src) : (s.clearPending x).lbuf = s.lbuf := rfl
@[simp] theorem State.clearPending_stack (s : State) (x : Src) : (s.clearPending x).stack = s.stack := rfl
@[simp] theorem State.clearPending_rxWaits (s : State) (x : Src) : (s.clearPending x).rxWaits = s.rxWaits := rfl
@[simp] theorem State.clearPending_txq (s : State) (x : Src) : (s.clearPending x).txq = s.txq := rfl
@[simp] theorem State.clearPending_tmrload (s : State) (x : Src) : (s.clearPending x).tmrload = s.tmrload := rfl
@[simp] theorem State.clearPending_press (s : State) (x : Src) : (s.clearPending x).press = s.press := rfl
@[simp] theorem State.clearPending_lines (s : State) (x : Src) : (s.clearPending x).lines = s.lines := rfl
@[simp] theorem State.clearPending_rxtoggle (s : State) (x : Src) : (s.clearPending x).rxtoggle = s.rxtoggle := rfl
@[simp] theorem State.clearPending_txout (s : State) (x : Src) : (s.clearPending x).txout = s.txout := rfl
@[simp] theorem State.clearPending_resp (s : State) (x : Src) : (s.clearPending x).resp = s.resp := rfl
@[simp] theorem State.clearPending_params (s : State) (x : Src) : (s.clearPending x).params = s.params := rfl
@[simp] theorem State.clearPending_cmdPort (s : State) (x : Src) : (s.clearPending x).cmdPort = s.cmdPort := rfl
@[simp] theorem State.clearPending_evtPort (s : State) (x : Src) : (s.clearPending x).evtPort = s.evtPort := rfl
@[simp] theorem State.clearPending_turns (s : State) (x : Src) : (s.clearPending x).turns = s.turns := rfl

/-! ## enter -/

@[simp] theorem State.enter_lasterr (s : State) (lv : Level) : (s.enter lv).lasterr = s.lasterr := rfl
@[simp] theorem State.enter_cfgFault (s : State) (lv : Level) : (s.enter lv).cfgFault = s.cfgFault := rfl
@[simp] theorem State.enter_adBusy (s : State) (lv : Level) : (s.enter lv).adBusy = s.adBusy := rfl
@[simp] theorem State.enter_errflags (s : State) (lv : Level) : (s.enter lv).errflags = s.errflags := rfl
@[simp] theorem State.enter_iflags (s : State) (lv : Level) : (s.enter lv).iflags = s.iflags := rfl
@[simp] theorem State.enter_ienable (s : State) (lv : Level) : (s.enter lv).ienable = s.ienable := rfl
@[simp] theorem State.enter_iprio (s : State) (lv : Level) : (s.enter lv).iprio = s.iprio := rfl
@[simp] theorem State.enter_gieh (s : State) (lv : Level) : (s.enter lv).gieh = s.gieh := rfl
@[simp] theorem State.enter_giel (s : State) (lv : Level) : (s.enter lv).giel = s.giel := rfl
@[simp] theorem State.enter_mode (s : State) (lv : Level) : (s.enter lv).mode = s.mode := rfl
@[simp] theorem State.enter_reload (s : State) (lv : Level) : (s.enter lv).reload = s.reload := rfl
@[simp] theorem State.enter_relw (s : State) (lv : Level) : (s.enter lv).relw = s.relw := rfl
@[simp] theorem State.enter_pr (s : State) (lv : Level) : (s.enter lv).pr = s.pr := rfl
@[simp] theorem State.enter_dch (s : State) (lv : Level) : (s.enter lv).dch = s.dch := rfl
@[simp] theorem State.enter_dcl (s : State) (lv : Level) : (s.enter lv).dcl = s.dcl := rfl
@[simp] theorem State.enter_pwps (s : State) (lv : Level) : (s.enter lv).pwps = s.pwps := rfl
@[simp] theorem State.enter_svang (s : State) (lv : Level) : (s.enter lv).svang = s.svang := rfl
@[simp] theorem State.enter_out (s : State) (lv : Level) : (s.enter lv).out = s.out := rfl
@[simp] theorem State.enter_btncnt (s : State) (lv : Level) : (s.enter lv).btncnt = s.btncnt := rfl
@[simp] theorem State.enter_tmrcnt (s : State) (lv : Level) : (s.enter lv).tmrcnt = s.tmrcnt := rfl
@[simp] theorem State.enter_dbncfg (s : State) (lv : Level) : (s.enter lv).dbncfg = s.dbncfg := rfl
@[simp] theorem State.enter_dbncnt (s : State) (lv : Level) : (s.enter lv).dbncnt = s.dbncnt := rfl
@[simp] theorem State.enter_armed (s : State) (lv : Level) : (s.enter lv).armed = s.armed := rfl
@[simp] theorem State.enter_sflast (s : State) (lv : Level) : (s.enter lv).sflast = s.sflast := rfl
@[simp] theorem State.enter_sfsmooth (s : State) (lv : Level) : (s.enter lv).sfsmooth = s.sfsmooth := rfl
@[simp] theorem State.enter_inc (s : State) (lv : Level) : (s.enter lv).inc = s.inc := rfl
@[simp] theorem State.enter_zone (s : State) (lv : Level) : (s.enter lv).zone = s.zone := rfl
@[simp] theorem State.enter_zcnt (s : State) (lv : Level) : (s.enter lv).zcnt = s.zcnt := rfl
@[simp] theorem State.enter_blink (s : State) (lv : Level) : (s.enter lv).blink = s.blink := rfl
@[simp] theorem State.enter_mstate (s : State) (lv : Level) : (s.enter lv).mstate = s.mstate := rfl
@[simp] theorem State.enter_len (s : State) (lv : Level) : (s.enter lv).len = s.len := rfl
@[simp] theorem State.enter_lastch (s : State) (lv : Level) : (s.enter lv).lastch = s.lastch := rfl
@[simp] theorem State.enter_linecnt (s : State) (lv : Level) : (s.enter lv).linecnt = s.linecnt := rfl
@[simp] theorem State.enter_rxbyte (s : State) (lv : Level) : (s.enter lv).rxbyte = s.rxbyte := rfl
@[simp] theorem State.enter_rxoerr (s : State) (lv : Level) : (s.enter lv).rxoerr = s.rxoerr := rfl
@[simp] theorem State.enter_rxferr (s : State) (lv : Level) : (s.enter lv).rxferr = s.rxferr := rfl
@[simp] theorem State.enter_adcdata (s : State) (lv : Level) : (s.enter lv).adcdata = s.adcdata := rfl
@[simp] theorem State.enter_rxrstcnt (s : State) (lv : Level) : (s.enter lv).rxrstcnt = s.rxrstcnt := rfl
@[simp] theorem State.enter_lbuf (s : State) (lv : Level) : (s.enter lv).lbuf = s.lbuf := rfl
@[simp] theorem State.enter_stack (s : State) (lv : Level) : (s.enter lv).stack = { level := lv, cursor := 0 } :: s.stack := rfl
@[simp] theorem State.enter_rxWaits (s : State) (lv : Level) : (s.enter lv).rxWaits = s.rxWaits := rfl
@[simp] theorem State.enter_txq (s : State) (lv : Level) : (s.enter lv).txq = s.txq := rfl
@[simp] theorem State.enter_tmrload (s : State) (lv : Level) : (s.enter lv).tmrload = s.tmrload := rfl
@[simp] theorem State.enter_press (s : State) (lv : Level) : (s.enter lv).press = s.press := rfl
@[simp] theorem State.enter_lines (s : State) (lv : Level) : (s.enter lv).lines = s.lines := rfl
@[simp] theorem State.enter_rxtoggle (s : State) (lv : Level) : (s.enter lv).rxtoggle = s.rxtoggle := rfl
@[simp] theorem State.enter_txout (s : State) (lv : Level) : (s.enter lv).txout = s.txout := rfl
@[simp] theorem State.enter_resp (s : State) (lv : Level) : (s.enter lv).resp = s.resp := rfl
@[simp] theorem State.enter_params (s : State) (lv : Level) : (s.enter lv).params = s.params := rfl
@[simp] theorem State.enter_cmdPort (s : State) (lv : Level) : (s.enter lv).cmdPort = s.cmdPort := rfl
@[simp] theorem State.enter_evtPort (s : State) (lv : Level) : (s.enter lv).evtPort = s.evtPort := rfl
@[simp] theorem State.enter_turns (s : State) (lv : Level) : (s.enter lv).turns = s.turns := rfl

/-! ## leave -/

@[simp] theorem State.leave_lasterr (s : State) : (s.leave).lasterr = s.lasterr := rfl
@[simp] theorem State.leave_cfgFault (s : State) : (s.leave).cfgFault = s.cfgFault := rfl
@[simp] theorem State.leave_adBusy (s : State) : (s.leave).adBusy = s.adBusy := rfl
@[simp] theorem State.leave_errflags (s : State) : (s.leave).errflags = s.errflags := rfl
@[simp] theorem State.leave_iflags (s : State) : (s.leave).iflags = s.iflags := rfl
@[simp] theorem State.leave_ienable (s : State) : (s.leave).ienable = s.ienable := rfl
@[simp] theorem State.leave_iprio (s : State) : (s.leave).iprio = s.iprio := rfl
@[simp] theorem State.leave_gieh (s : State) : (s.leave).gieh = s.gieh := rfl
@[simp] theorem State.leave_giel (s : State) : (s.leave).giel = s.giel := rfl
@[simp] theorem State.leave_mode (s : State) : (s.leave).mode = s.mode := rfl
@[simp] theorem State.leave_reload (s : State) : (s.leave).reload = s.reload := rfl
@[simp] theorem State.leave_relw (s : State) : (s.leave).relw = s.relw := rfl
@[simp] theorem State.leave_pr (s : State) : (s.leave).pr = s.pr := rfl
@[simp] theorem State.leave_dch (s : State) : (s.leave).dch = s.dch := rfl
@[simp] theorem State.leave_dcl (s : State) : (s.leave).dcl = s.dcl := rfl
@[simp] theorem State.leave_pwps (s : State) : (s.leave).pwps = s.pwps := rfl
@[simp] theorem State.leave_svang (s : State) : (s.leave).svang = s.svang := rfl
@[simp] theorem State.leave_out (s : State) : (s.leave).out = s.out := rfl
@[simp] theorem State.leave_btncnt (s : State) : (s.leave).btncnt = s.btncnt := rfl
@[simp] theorem State.leave_tmrcnt (s : State) : (s.leave).tmrcnt = s.tmrcnt := rfl
@[simp] theorem State.leave_dbncfg (s : State) : (s.leave).dbncfg = s.dbncfg := rfl
@[simp] theorem State.leave_dbncnt (s : State) : (s.leave).dbncnt = s.dbncnt := rfl
@[simp] theorem State.leave_armed (s : State) : (s.leave).armed = s.armed := rfl
@[simp] theorem State.leave_sflast (s : State) : (s.leave).sflast = s.sflast := rfl
@[simp] theorem State.leave_sfsmooth (s : State) : (s.leave).sfsmooth = s.sfsmooth := rfl
@[simp] theorem State.leave_inc (s : State) : (s.leave).inc = s.inc := rfl
@[simp] theorem State.leave_zone (s : State) : (s.leave).zone = s.zone := rfl
@[simp] theorem State.leave_zcnt (s : State) : (s.leave).zcnt = s.zcnt := rfl
@[simp] theorem State.leave_blink (s : State) : (s.leave).blink = s.blink := rfl
@[simp] theorem State.leave_mstate (s : State) : (s.leave).mstate = s.mstate := rfl
@[simp] theorem State.leave_len (s : State) : (s.leave).len = s.len := rfl
@[simp] theorem State.leave_lastch (s : State) : (s.leave).lastch = s.lastch := rfl
@[simp] theorem State.leave_linecnt (s : State) : (s.leave).linecnt = s.linecnt := rfl
@[simp] theorem State.leave_rxbyte (s : State) : (s.leave).rxbyte = s.rxbyte := rfl
@[simp] theorem State.leave_rxoerr (s : State) : (s.leave).rxoerr = s.rxoerr := rfl
@[simp] theorem State.leave_rxferr (s : State) : (s.leave).rxferr = s.rxferr := rfl
@[simp] theorem State.leave_adcdata (s : State) : (s.leave).adcdata = s.adcdata := rfl
@[simp] theorem State.leave_rxrstcnt (s : State) : (s.leave).rxrstcnt = s.rxrstcnt := rfl
@[simp] theorem State.leave_lbuf (s : State) : (s.leave).lbuf = s.lbuf := rfl
@[simp] theorem State.leave_stack (s : State) : (s.leave).stack = s.stack.tail := rfl
@[simp] theorem State.leave_rxWaits (s : State) : (s.leave).rxWaits = s.rxWaits := rfl
@[simp] theorem State.leave_txq (s : State) : (s.leave).txq = s.txq := rfl
@[simp] theorem State.leave_tmrload (s : State) : (s.leave).tmrload = s.tmrload := rfl
@[simp] theorem State.leave_press (s : State) : (s.leave).press = s.press := rfl
@[simp] theorem State.leave_lines (s : State) : (s.leave).lines = s.lines := rfl
@[simp] theorem State.leave_rxtoggle (s : State) : (s.leave).rxtoggle = s.rxtoggle := rfl
@[simp] theorem State.leave_txout (s : State) : (s.leave).txout = s.txout := rfl
@[simp] theorem State.leave_resp (s : State) : (s.leave).resp = s.resp := rfl
@[simp] theorem State.leave_params (s : State) : (s.leave).params = s.params := rfl
@[simp] theorem State.leave_cmdPort (s : State) : (s.leave).cmdPort = s.cmdPort := rfl
@[simp] theorem State.leave_evtPort (s : State) : (s.leave).evtPort = s.evtPort := rfl
@[simp] theorem State.leave_turns (s : State) : (s.leave).turns = s.turns := rfl

/-! ## enqueueTx -/

@[simp] theorem State.enqueueTx_lasterr (s : State) (bs : List Byte) : (s.enqueueTx bs).lasterr = s.lasterr := rfl
@[simp] theorem State.enqueueTx_cfgFault (s : State) (bs : List Byte) : (s.enqueueTx bs).cfgFault = s.cfgFault := rfl
@[simp] theorem State.enqueueTx_adBusy (s : State) (bs : List Byte) : (s.enqueueTx bs).adBusy = s.adBusy := rfl
@[simp] theorem State.enqueueTx_errflags (s : State) (bs : List Byte) : (s.enqueueTx bs).errflags = s.errflags := rfl
@[simp] theorem State.enqueueTx_iflags (s : State) (bs : List Byte) : (s.enqueueTx bs).iflags = s.iflags := rfl
@[simp] theorem State.enqueueTx_ienable (s : State) (bs : List Byte) : (s.enqueueTx bs).ienable = s.ienable := rfl
@[simp] theorem State.enqueueTx_iprio (s : State) (bs : List Byte) : (s.enqueueTx bs).iprio = s.iprio := rfl
@[simp] theorem State.enqueueTx_gieh (s : State) (bs : List Byte) : (s.enqueueTx bs).gieh = s.gieh := rfl
@[simp] theorem State.enqueueTx_giel (s : State) (bs : List Byte) : (s.enqueueTx bs).giel = s.giel := rfl
@[simp] theorem State.enqueueTx_mode (s : State) (bs : List Byte) : (s.enqueueTx bs).mode = s.mode := rfl
@[simp] theorem State.enqueueTx_reload (s : State) (bs : List Byte) : (s.enqueueTx bs).reload = s.reload := rfl
@[simp] theorem State.enqueueTx_relw (s : State) (bs : List Byte) : (s.enqueueTx bs).relw = s.relw := rfl
@[simp] theorem State.enqueueTx_pr (s : State) (bs : List Byte) : (s.enqueueTx bs).pr = s.pr := rfl
@[simp] theorem State.enqueueTx_dch (s : State) (bs : List Byte) : (s.enqueueTx bs).dch = s.dch := rfl
@[simp] theorem State.enqueueTx_dcl (s : State) (bs : List Byte) : (s.enqueueTx bs).dcl = s.dcl := rfl
@[simp] theorem State.enqueueTx_pwps (s : State) (bs : List Byte) : (s.enqueueTx bs).pwps = s.pwps := rfl
@[simp] theorem State.enqueueTx_svang (s : State) (bs : List Byte) : (s.enqueueTx bs).svang = s.svang := rfl
@[simp] theorem State.enqueueTx_out (s : State) (bs : List Byte) : (s.enqueueTx bs).out = s.out := rfl
@[simp] theorem State.enqueueTx_btncnt (s : State) (bs : List Byte) : (s.enqueueTx bs).btncnt = s.btncnt := rfl
@[simp] theorem State.enqueueTx_tmrcnt (s : State) (bs : List Byte) : (s.enqueueTx bs).tmrcnt = s.tmrcnt := rfl
@[simp] theorem State.enqueueTx_dbncfg (s : State) (bs : List Byte) : (s.enqueueTx bs).dbncfg = s.dbncfg := rfl
@[simp] theorem State.enqueueTx_dbncnt (s : State) (bs : List Byte) : (s.enqueueTx bs).dbncnt = s.dbncnt := rfl
@[simp] theorem State.enqueueTx_armed (s : State) (bs : List Byte) : (s.enqueueTx bs).armed = s.armed := rfl
@[simp] theorem State.enqueueTx_sflast (s : State) (bs : List Byte) : (s.enqueueTx bs).sflast = s.sflast := rfl
@[simp] theorem State.enqueueTx_sfsmooth (s : State) (bs : List Byte) : (s.enqueueTx bs).sfsmooth = s.sfsmooth := rfl
@[simp] theorem State.enqueueTx_inc (s : State) (bs : List Byte) : (s.enqueueTx bs).inc = s.inc := rfl
@[simp] theorem State.enqueueTx_zone (s : State) (bs : List Byte) : (s.enqueueTx bs).zone = s.zone := rfl
@[simp] theorem State.enqueueTx_zcnt (s : State) (bs : List Byte) : (s.enqueueTx bs).zcnt = s.zcnt := rfl
@[simp] theorem State.enqueueTx_blink (s : State) (bs : List Byte) : (s.enqueueTx bs).blink = s.blink := rfl
@[simp] theorem State.enqueueTx_mstate (s : State) (bs : List Byte) : (s.enqueueTx bs).mstate = s.mstate := rfl
@[simp] theorem State.enqueueTx_len (s : State) (bs : List Byte) : (s.enqueueTx bs).len = s.len := rfl
@[simp] theorem State.enqueueTx_lastch (s : State) (bs : List Byte) : (s.enqueueTx bs).lastch = s.lastch := rfl
@[simp] theorem State.enqueueTx_linecnt (s : State) (bs : List Byte) : (s.enqueueTx bs).linecnt = s.linecnt := rfl
@[simp] theorem State.enqueueTx_rxbyte (s : State) (bs : List Byte) : (s.enqueueTx bs).rxbyte = s.rxbyte := rfl
@[simp] theorem State.enqueueTx_rxoerr (s : State) (bs : List Byte) : (s.enqueueTx bs).rxoerr = s.rxoerr := rfl
@[simp] theorem State.enqueueTx_rxferr (s : State) (bs : List Byte) : (s.enqueueTx bs).rxferr = s.rxferr := rfl
@[simp] theorem State.enqueueTx_adcdata (s : State) (bs : List Byte) : (s.enqueueTx bs).adcdata = s.adcdata := rfl
@[simp] theorem State.enqueueTx_rxrstcnt (s : State) (bs : List Byte) : (s.enqueueTx bs).rxrstcnt = s.rxrstcnt := rfl
@[simp] theorem State.enqueueTx_lbuf (s : State) (bs : List Byte) : (s.enqueueTx bs).lbuf = s.lbuf := rfl
@[simp] theorem State.enqueueTx_stack (s : State) (bs : List Byte) : (s.enqueueTx bs).stack = s.stack := rfl
@[simp] theorem State.enqueueTx_rxWaits (s : State) (bs : List Byte) : (s.enqueueTx bs).rxWaits = s.rxWaits := rfl
@[simp] theorem State.enqueueTx_txq (s : State) (bs : List Byte) : (s.enqueueTx bs).txq = s.txq ++ bs := rfl
@[simp] theorem State.enqueueTx_tmrload (s : State) (bs : List Byte) : (s.enqueueTx bs).tmrload = s.tmrload := rfl
@[simp] theorem State.enqueueTx_press (s : State) (bs : List Byte) : (s.enqueueTx bs).press = s.press := rfl
@[simp] theorem State.enqueueTx_lines (s : State) (bs : List Byte) : (s.enqueueTx bs).lines = s.lines := rfl
@[simp] theorem State.enqueueTx_rxtoggle (s : State) (bs : List Byte) : (s.enqueueTx bs).rxtoggle = s.rxtoggle := rfl
@[simp] theorem State.enqueueTx_txout (s : State) (bs : List Byte) : (s.enqueueTx bs).txout = s.txout := rfl
@[simp] theorem State.enqueueTx_resp (s : State) (bs : List Byte) : (s.enqueueTx bs).resp = s.resp := rfl
@[simp] theorem State.enqueueTx_params (s : State) (bs : List Byte) : (s.enqueueTx bs).params = s.params := rfl
@[simp] theorem State.enqueueTx_cmdPort (s : State) (bs : List Byte) : (s.enqueueTx bs).cmdPort = s.cmdPort := rfl
@[simp] theorem State.enqueueTx_evtPort (s : State) (bs : List Byte) : (s.enqueueTx bs).evtPort = s.evtPort := rfl
@[simp] theorem State.enqueueTx_turns (s : State) (bs : List Byte) : (s.enqueueTx bs).turns = s.turns := rfl

/-! ## out4 -/

@[simp] theorem State.out4_lasterr (s : State) (v : Nat) : (s.out4 v).lasterr = s.lasterr := rfl
@[simp] theorem State.out4_cfgFault (s : State) (v : Nat) : (s.out4 v).cfgFault = s.cfgFault := rfl
@[simp] theorem State.out4_adBusy (s : State) (v : Nat) : (s.out4 v).adBusy = s.adBusy := rfl
@[simp] theorem State.out4_errflags (s : State) (v : Nat) : (s.out4 v).errflags = s.errflags := rfl
@[simp] theorem State.out4_iflags (s : State) (v : Nat) : (s.out4 v).iflags = s.iflags := rfl
@[simp] theorem State.out4_ienable (s : State) (v : Nat) : (s.out4 v).ienable = s.ienable := rfl
@[simp] theorem State.out4_iprio (s : State) (v : Nat) : (s.out4 v).iprio = s.iprio := rfl
@[simp] theorem State.out4_gieh (s : State) (v : Nat) : (s.out4 v).gieh = s.gieh := rfl
@[simp] theorem State.out4_giel (s : State) (v : Nat) : (s.out4 v).giel = s.giel := rfl
@[simp] theorem State.out4_mode (s : State) (v : Nat) : (s.out4 v).mode = s.mode := rfl
@[simp] theorem State.out4_reload (s : State) (v : Nat) : (s.out4 v).reload = s.reload := rfl
@[simp] theorem State.out4_relw (s : State) (v : Nat) : (s.out4 v).relw = s.relw := rfl
@[simp] theorem State.out4_pr (s : State) (v : Nat) : (s.out4 v).pr = s.pr := rfl
@[simp] theorem State.out4_dch (s : State) (v : Nat) : (s.out4 v).dch = s.dch := rfl
@[simp] theorem State.out4_dcl (s : State) (v : Nat) : (s.out4 v).dcl = s.dcl := rfl
@[simp] theorem State.out4_pwps (s : State) (v : Nat) : (s.out4 v).pwps = s.pwps := rfl
@[simp] theorem State.out4_svang (s : State) (v : Nat) : (s.out4 v).svang = s.svang := rfl
@[simp] theorem State.out4_out (s : State) (v : Nat) : (s.out4 v).out = s.out.extractLsb' 4 4 ++ BitVec.ofNat 4 v := rfl
@[simp] theorem State.out4_btncnt (s : State) (v : Nat) : (s.out4 v).btncnt = s.btncnt := rfl
@[simp] theorem State.out4_tmrcnt (s : State) (v : Nat) : (s.out4 v).tmrcnt = s.tmrcnt := rfl
@[simp] theorem State.out4_dbncfg (s : State) (v : Nat) : (s.out4 v).dbncfg = s.dbncfg := rfl
@[simp] theorem State.out4_dbncnt (s : State) (v : Nat) : (s.out4 v).dbncnt = s.dbncnt := rfl
@[simp] theorem State.out4_armed (s : State) (v : Nat) : (s.out4 v).armed = s.armed := rfl
@[simp] theorem State.out4_sflast (s : State) (v : Nat) : (s.out4 v).sflast = s.sflast := rfl
@[simp] theorem State.out4_sfsmooth (s : State) (v : Nat) : (s.out4 v).sfsmooth = s.sfsmooth := rfl
@[simp] theorem State.out4_inc (s : State) (v : Nat) : (s.out4 v).inc = s.inc := rfl
@[simp] theorem State.out4_zone (s : State) (v : Nat) : (s.out4 v).zone = s.zone := rfl
@[simp] theorem State.out4_zcnt (s : State) (v : Nat) : (s.out4 v).zcnt = s.zcnt := rfl
@[simp] theorem State.out4_blink (s : State) (v : Nat) : (s.out4 v).blink = s.blink := rfl
@[simp] theorem State.out4_mstate (s : State) (v : Nat) : (s.out4 v).mstate = s.mstate := rfl
@[simp] theorem State.out4_len (s : State) (v : Nat) : (s.out4 v).len = s.len := rfl
@[simp] theorem State.out4_lastch (s : State) (v : Nat) : (s.out4 v).lastch = s.lastch := rfl
@[simp] theorem State.out4_linecnt (s : State) (v : Nat) : (s.out4 v).linecnt = s.linecnt := rfl
@[simp] theorem State.out4_rxbyte (s : State) (v : Nat) : (s.out4 v).rxbyte = s.rxbyte := rfl
@[simp] theorem State.out4_rxoerr (s : State) (v : Nat) : (s.out4 v).rxoerr = s.rxoerr := rfl
@[simp] theorem State.out4_rxferr (s : State) (v : Nat) : (s.out4 v).rxferr = s.rxferr := rfl
@[simp] theorem State.out4_adcdata (s : State) (v : Nat) : (s.out4 v).adcdata = s.adcdata := rfl
@[simp] theorem State.out4_rxrstcnt (s : State) (v : Nat) : (s.out4 v).rxrstcnt = s.rxrstcnt := rfl
@[simp] theorem State.out4_lbuf (s : State) (v : Nat) : (s.out4 v).lbuf = s.lbuf := rfl
@[simp] theorem State.out4_stack (s : State) (v : Nat) : (s.out4 v).stack = s.stack := rfl
@[simp] theorem State.out4_rxWaits (s : State) (v : Nat) : (s.out4 v).rxWaits = s.rxWaits := rfl
@[simp] theorem State.out4_txq (s : State) (v : Nat) : (s.out4 v).txq = s.txq := rfl
@[simp] theorem State.out4_tmrload (s : State) (v : Nat) : (s.out4 v).tmrload = s.tmrload := rfl
@[simp] theorem State.out4_press (s : State) (v : Nat) : (s.out4 v).press = s.press := rfl
@[simp] theorem State.out4_lines (s : State) (v : Nat) : (s.out4 v).lines = s.lines := rfl
@[simp] theorem State.out4_rxtoggle (s : State) (v : Nat) : (s.out4 v).rxtoggle = s.rxtoggle := rfl
@[simp] theorem State.out4_txout (s : State) (v : Nat) : (s.out4 v).txout = s.txout := rfl
@[simp] theorem State.out4_resp (s : State) (v : Nat) : (s.out4 v).resp = s.resp := rfl
@[simp] theorem State.out4_params (s : State) (v : Nat) : (s.out4 v).params = s.params := rfl
@[simp] theorem State.out4_cmdPort (s : State) (v : Nat) : (s.out4 v).cmdPort = s.cmdPort := rfl
@[simp] theorem State.out4_evtPort (s : State) (v : Nat) : (s.out4 v).evtPort = s.evtPort := rfl
@[simp] theorem State.out4_turns (s : State) (v : Nat) : (s.out4 v).turns = s.turns := rfl

/-! ## clearModeLocal -/

@[simp] theorem State.clearModeLocal_lasterr (s : State) : (s.clearModeLocal).lasterr = s.lasterr := rfl
@[simp] theorem State.clearModeLocal_cfgFault (s : State) : (s.clearModeLocal).cfgFault = s.cfgFault := rfl
@[simp] theorem State.clearModeLocal_adBusy (s : State) : (s.clearModeLocal).adBusy = s.adBusy := rfl
@[simp] theorem State.clearModeLocal_errflags (s : State) : (s.clearModeLocal).errflags = s.errflags := rfl
@[simp] theorem State.clearModeLocal_iflags (s : State) : (s.clearModeLocal).iflags = s.iflags := rfl
@[simp] theorem State.clearModeLocal_ienable (s : State) : (s.clearModeLocal).ienable = s.ienable := rfl
@[simp] theorem State.clearModeLocal_iprio (s : State) : (s.clearModeLocal).iprio = s.iprio := rfl
@[simp] theorem State.clearModeLocal_gieh (s : State) : (s.clearModeLocal).gieh = s.gieh := rfl
@[simp] theorem State.clearModeLocal_giel (s : State) : (s.clearModeLocal).giel = s.giel := rfl
@[simp] theorem State.clearModeLocal_mode (s : State) : (s.clearModeLocal).mode = s.mode := rfl
@[simp] theorem State.clearModeLocal_reload (s : State) : (s.clearModeLocal).reload = s.reload := rfl
@[simp] theorem State.clearModeLocal_relw (s : State) : (s.clearModeLocal).relw = s.relw := rfl
@[simp] theorem State.clearModeLocal_pr (s : State) : (s.clearModeLocal).pr = s.pr := rfl
@[simp] theorem State.clearModeLocal_dch (s : State) : (s.clearModeLocal).dch = s.dch := rfl
@[simp] theorem State.clearModeLocal_dcl (s : State) : (s.clearModeLocal).dcl = s.dcl := rfl
@[simp] theorem State.clearModeLocal_pwps (s : State) : (s.clearModeLocal).pwps = s.pwps := rfl
@[simp] theorem State.clearModeLocal_svang (s : State) : (s.clearModeLocal).svang = s.svang := rfl
@[simp] theorem State.clearModeLocal_out (s : State) : (s.clearModeLocal).out = s.out := rfl
@[simp] theorem State.clearModeLocal_btncnt (s : State) : (s.clearModeLocal).btncnt = s.btncnt := rfl
@[simp] theorem State.clearModeLocal_tmrcnt (s : State) : (s.clearModeLocal).tmrcnt = s.tmrcnt := rfl
@[simp] theorem State.clearModeLocal_dbncfg (s : State) : (s.clearModeLocal).dbncfg = s.dbncfg := rfl
@[simp] theorem State.clearModeLocal_dbncnt (s : State) : (s.clearModeLocal).dbncnt = s.dbncnt := rfl
@[simp] theorem State.clearModeLocal_armed (s : State) : (s.clearModeLocal).armed = s.armed := rfl
@[simp] theorem State.clearModeLocal_sflast (s : State) : (s.clearModeLocal).sflast = s.sflast := rfl
@[simp] theorem State.clearModeLocal_sfsmooth (s : State) : (s.clearModeLocal).sfsmooth = s.sfsmooth := rfl
@[simp] theorem State.clearModeLocal_inc (s : State) : (s.clearModeLocal).inc = false := rfl
@[simp] theorem State.clearModeLocal_zone (s : State) : (s.clearModeLocal).zone = 0 := rfl
@[simp] theorem State.clearModeLocal_zcnt (s : State) : (s.clearModeLocal).zcnt = 0 := rfl
@[simp] theorem State.clearModeLocal_blink (s : State) : (s.clearModeLocal).blink = false := rfl
@[simp] theorem State.clearModeLocal_mstate (s : State) : (s.clearModeLocal).mstate = 0 := rfl
@[simp] theorem State.clearModeLocal_len (s : State) : (s.clearModeLocal).len = s.len := rfl
@[simp] theorem State.clearModeLocal_lastch (s : State) : (s.clearModeLocal).lastch = s.lastch := rfl
@[simp] theorem State.clearModeLocal_linecnt (s : State) : (s.clearModeLocal).linecnt = s.linecnt := rfl
@[simp] theorem State.clearModeLocal_rxbyte (s : State) : (s.clearModeLocal).rxbyte = s.rxbyte := rfl
@[simp] theorem State.clearModeLocal_rxoerr (s : State) : (s.clearModeLocal).rxoerr = s.rxoerr := rfl
@[simp] theorem State.clearModeLocal_rxferr (s : State) : (s.clearModeLocal).rxferr = s.rxferr := rfl
@[simp] theorem State.clearModeLocal_adcdata (s : State) : (s.clearModeLocal).adcdata = s.adcdata := rfl
@[simp] theorem State.clearModeLocal_rxrstcnt (s : State) : (s.clearModeLocal).rxrstcnt = s.rxrstcnt := rfl
@[simp] theorem State.clearModeLocal_lbuf (s : State) : (s.clearModeLocal).lbuf = s.lbuf := rfl
@[simp] theorem State.clearModeLocal_stack (s : State) : (s.clearModeLocal).stack = s.stack := rfl
@[simp] theorem State.clearModeLocal_rxWaits (s : State) : (s.clearModeLocal).rxWaits = s.rxWaits := rfl
@[simp] theorem State.clearModeLocal_txq (s : State) : (s.clearModeLocal).txq = s.txq := rfl
@[simp] theorem State.clearModeLocal_tmrload (s : State) : (s.clearModeLocal).tmrload = s.tmrload := rfl
@[simp] theorem State.clearModeLocal_press (s : State) : (s.clearModeLocal).press = s.press := rfl
@[simp] theorem State.clearModeLocal_lines (s : State) : (s.clearModeLocal).lines = s.lines := rfl
@[simp] theorem State.clearModeLocal_rxtoggle (s : State) : (s.clearModeLocal).rxtoggle = s.rxtoggle := rfl
@[simp] theorem State.clearModeLocal_txout (s : State) : (s.clearModeLocal).txout = s.txout := rfl
@[simp] theorem State.clearModeLocal_resp (s : State) : (s.clearModeLocal).resp = s.resp := rfl
@[simp] theorem State.clearModeLocal_params (s : State) : (s.clearModeLocal).params = s.params := rfl
@[simp] theorem State.clearModeLocal_cmdPort (s : State) : (s.clearModeLocal).cmdPort = s.cmdPort := rfl
@[simp] theorem State.clearModeLocal_evtPort (s : State) : (s.clearModeLocal).evtPort = s.evtPort := rfl
@[simp] theorem State.clearModeLocal_turns (s : State) : (s.clearModeLocal).turns = s.turns := rfl

/-! ## pwmWrite -/

@[simp] theorem State.pwmWrite_lasterr (s : State) (v : Nat) : (s.pwmWrite v).lasterr = s.lasterr := rfl
@[simp] theorem State.pwmWrite_cfgFault (s : State) (v : Nat) : (s.pwmWrite v).cfgFault = s.cfgFault := rfl
@[simp] theorem State.pwmWrite_adBusy (s : State) (v : Nat) : (s.pwmWrite v).adBusy = s.adBusy := rfl
@[simp] theorem State.pwmWrite_errflags (s : State) (v : Nat) : (s.pwmWrite v).errflags = s.errflags := rfl
@[simp] theorem State.pwmWrite_iflags (s : State) (v : Nat) : (s.pwmWrite v).iflags = s.iflags := rfl
@[simp] theorem State.pwmWrite_ienable (s : State) (v : Nat) : (s.pwmWrite v).ienable = s.ienable := rfl
@[simp] theorem State.pwmWrite_iprio (s : State) (v : Nat) : (s.pwmWrite v).iprio = s.iprio := rfl
@[simp] theorem State.pwmWrite_gieh (s : State) (v : Nat) : (s.pwmWrite v).gieh = s.gieh := rfl
@[simp] theorem State.pwmWrite_giel (s : State) (v : Nat) : (s.pwmWrite v).giel = s.giel := rfl
@[simp] theorem State.pwmWrite_mode (s : State) (v : Nat) : (s.pwmWrite v).mode = s.mode := rfl
@[simp] theorem State.pwmWrite_reload (s : State) (v : Nat) : (s.pwmWrite v).reload = s.reload := rfl
@[simp] theorem State.pwmWrite_relw (s : State) (v : Nat) : (s.pwmWrite v).relw = s.relw := rfl
@[simp] theorem State.pwmWrite_pr (s : State) (v : Nat) : (s.pwmWrite v).pr = s.pr := rfl
@[simp] theorem State.pwmWrite_dch (s : State) (v : Nat) : (s.pwmWrite v).dch = BitVec.ofNat 8 (coarseOf s.params v) := rfl
@[simp] theorem State.pwmWrite_dcl (s : State) (v : Nat) : (s.pwmWrite v).dcl = BitVec.ofNat 2 (fineOf s.params v) := rfl
@[simp] theorem State.pwmWrite_pwps (s : State) (v : Nat) : (s.pwmWrite v).pwps = s.pwps := rfl
@[simp] theorem State.pwmWrite_svang (s : State) (v : Nat) : (s.pwmWrite v).svang = s.svang := rfl
@[simp] theorem State.pwmWrite_out (s : State) (v : Nat) : (s.pwmWrite v).out = s.out := rfl
@[simp] theorem State.pwmWrite_btncnt (s : State) (v : Nat) : (s.pwmWrite v).btncnt = s.btncnt := rfl
@[simp] theorem State.pwmWrite_tmrcnt (s : State) (v : Nat) : (s.pwmWrite v).tmrcnt = s.tmrcnt := rfl
@[simp] theorem State.pwmWrite_dbncfg (s : State) (v : Nat) : (s.pwmWrite v).dbncfg = s.dbncfg := rfl
@[simp] theorem State.pwmWrite_dbncnt (s : State) (v : Nat) : (s.pwmWrite v).dbncnt = s.dbncnt := rfl
@[simp] theorem State.pwmWrite_armed (s : State) (v : Nat) : (s.pwmWrite v).armed = s.armed := rfl
@[simp] theorem State.pwmWrite_sflast (s : State) (v : Nat) : (s.pwmWrite v).sflast = s.sflast := rfl
@[simp] theorem State.pwmWrite_sfsmooth (s : State) (v : Nat) : (s.pwmWrite v).sfsmooth = s.sfsmooth := rfl
@[simp] theorem State.pwmWrite_inc (s : State) (v : Nat) : (s.pwmWrite v).inc = s.inc := rfl
@[simp] theorem State.pwmWrite_zone (s : State) (v : Nat) : (s.pwmWrite v).zone = s.zone := rfl
@[simp] theorem State.pwmWrite_zcnt (s : State) (v : Nat) : (s.pwmWrite v).zcnt = s.zcnt := rfl
@[simp] theorem State.pwmWrite_blink (s : State) (v : Nat) : (s.pwmWrite v).blink = s.blink := rfl
@[simp] theorem State.pwmWrite_mstate (s : State) (v : Nat) : (s.pwmWrite v).mstate = s.mstate := rfl
@[simp] theorem State.pwmWrite_len (s : State) (v : Nat) : (s.pwmWrite v).len = s.len := rfl
@[simp] theorem State.pwmWrite_lastch (s : State) (v : Nat) : (s.pwmWrite v).lastch = s.lastch := rfl
@[simp] theorem State.pwmWrite_linecnt (s : State) (v : Nat) : (s.pwmWrite v).linecnt = s.linecnt := rfl
@[simp] theorem State.pwmWrite_rxbyte (s : State) (v : Nat) : (s.pwmWrite v).rxbyte = s.rxbyte := rfl
@[simp] theorem State.pwmWrite_rxoerr (s : State) (v : Nat) : (s.pwmWrite v).rxoerr = s.rxoerr := rfl
@[simp] theorem State.pwmWrite_rxferr (s : State) (v : Nat) : (s.pwmWrite v).rxferr = s.rxferr := rfl
@[simp] theorem State.pwmWrite_adcdata (s : State) (v : Nat) : (s.pwmWrite v).adcdata = s.adcdata := rfl
@[simp] theorem State.pwmWrite_rxrstcnt (s : State) (v : Nat) : (s.pwmWrite v).rxrstcnt = s.rxrstcnt := rfl
@[simp] theorem State.pwmWrite_lbuf (s : State) (v : Nat) : (s.pwmWrite v).lbuf = s.lbuf := rfl
@[simp] theorem State.pwmWrite_stack (s : State) (v : Nat) : (s.pwmWrite v).stack = s.stack := rfl
@[simp] theorem State.pwmWrite_rxWaits (s : State) (v : Nat) : (s.pwmWrite v).rxWaits = s.rxWaits := rfl
@[simp] theorem State.pwmWrite_txq (s : State) (v : Nat) : (s.pwmWrite v).txq = s.txq := rfl
@[simp] theorem State.pwmWrite_tmrload (s : State) (v : Nat) : (s.pwmWrite v).tmrload = s.tmrload := rfl
@[simp] theorem State.pwmWrite_press (s : State) (v : Nat) : (s.pwmWrite v).press = s.press := rfl
@[simp] theorem State.pwmWrite_lines (s : State) (v : Nat) : (s.pwmWrite v).lines = s.lines := rfl
@[simp] theorem State.pwmWrite_rxtoggle (s : State) (v : Nat) : (s.pwmWrite v).rxtoggle = s.rxtoggle := rfl
@[simp] theorem State.pwmWrite_txout (s : State) (v : Nat) : (s.pwmWrite v).txout = s.txout := rfl
@[simp] theorem State.pwmWrite_resp (s : State) (v : Nat) : (s.pwmWrite v).resp = s.resp := rfl
@[simp] theorem State.pwmWrite_params (s : State) (v : Nat) : (s.pwmWrite v).params = s.params := rfl
@[simp] theorem State.pwmWrite_cmdPort (s : State) (v : Nat) : (s.pwmWrite v).cmdPort = s.cmdPort := rfl
@[simp] theorem State.pwmWrite_evtPort (s : State) (v : Nat) : (s.pwmWrite v).evtPort = s.evtPort := rfl
@[simp] theorem State.pwmWrite_turns (s : State) (v : Nat) : (s.pwmWrite v).turns = s.turns := rfl

/-! ## servoSet -/

@[simp] theorem State.servoSet_lasterr (s : State) (v a : Nat) : (s.servoSet v a).lasterr = s.lasterr := rfl
@[simp] theorem State.servoSet_cfgFault (s : State) (v a : Nat) : (s.servoSet v a).cfgFault = s.cfgFault := rfl
@[simp] theorem State.servoSet_adBusy (s : State) (v a : Nat) : (s.servoSet v a).adBusy = s.adBusy := rfl
@[simp] theorem State.servoSet_errflags (s : State) (v a : Nat) : (s.servoSet v a).errflags = s.errflags := rfl
@[simp] theorem State.servoSet_iflags (s : State) (v a : Nat) : (s.servoSet v a).iflags = s.iflags := rfl
@[simp] theorem State.servoSet_ienable (s : State) (v a : Nat) : (s.servoSet v a).ienable = s.ienable := rfl
@[simp] theorem State.servoSet_iprio (s : State) (v a : Nat) : (s.servoSet v a).iprio = s.iprio := rfl
@[simp] theorem State.servoSet_gieh (s : State) (v a : Nat) : (s.servoSet v a).gieh = s.gieh := rfl
@[simp] theorem State.servoSet_giel (s : State) (v a : Nat) : (s.servoSet v a).giel = s.giel := rfl
@[simp] theorem State.servoSet_mode (s : State) (v a : Nat) : (s.servoSet v a).mode = s.mode := rfl
@[simp] theorem State.servoSet_reload (s : State) (v a : Nat) : (s.servoSet v a).reload = s.reload := rfl
@[simp] theorem State.servoSet_relw (s : State) (v a : Nat) : (s.servoSet v a).relw = s.relw := rfl
@[simp] theorem State.servoSet_pr (s : State) (v a : Nat) : (s.servoSet v a).pr = s.pr := rfl
@[simp] theorem State.servoSet_dch (s : State) (v a : Nat) : (s.servoSet v a).dch = BitVec.ofNat 8 (coarseOf s.params v) := rfl
@[simp] theorem State.servoSet_dcl (s : State) (v a : Nat) : (s.servoSet v a).dcl = BitVec.ofNat 2 (fineOf s.params v) := rfl
@[simp] theorem State.servoSet_pwps (s : State) (v a : Nat) : (s.servoSet v a).pwps = s.pwps := rfl
@[simp] theorem State.servoSet_svang (s : State) (v a : Nat) : (s.servoSet v a).svang = BitVec.ofNat 8 a := rfl
@[simp] theorem State.servoSet_out (s : State) (v a : Nat) : (s.servoSet v a).out = s.out := rfl
@[simp] theorem State.servoSet_btncnt (s : State) (v a : Nat) : (s.servoSet v a).btncnt = s.btncnt := rfl
@[simp] theorem State.servoSet_tmrcnt (s : State) (v a : Nat) : (s.servoSet v a).tmrcnt = s.tmrcnt := rfl
@[simp] theorem State.servoSet_dbncfg (s : State) (v a : Nat) : (s.servoSet v a).dbncfg = s.dbncfg := rfl
@[simp] theorem State.servoSet_dbncnt (s : State) (v a : Nat) : (s.servoSet v a).dbncnt = s.dbncnt := rfl
@[simp] theorem State.servoSet_armed (s : State) (v a : Nat) : (s.servoSet v a).armed = s.armed := rfl
@[simp] theorem State.servoSet_sflast (s : State) (v a : Nat) : (s.servoSet v a).sflast = s.sflast := rfl
@[simp] theorem State.servoSet_sfsmooth (s : State) (v a : Nat) : (s.servoSet v a).sfsmooth = s.sfsmooth := rfl
@[simp] theorem State.servoSet_inc (s : State) (v a : Nat) : (s.servoSet v a).inc = s.inc := rfl
@[simp] theorem State.servoSet_zone (s : State) (v a : Nat) : (s.servoSet v a).zone = s.zone := rfl
@[simp] theorem State.servoSet_zcnt (s : State) (v a : Nat) : (s.servoSet v a).zcnt = s.zcnt := rfl
@[simp] theorem State.servoSet_blink (s : State) (v a : Nat) : (s.servoSet v a).blink = s.blink := rfl
@[simp] theorem State.servoSet_mstate (s : State) (v a : Nat) : (s.servoSet v a).mstate = s.mstate := rfl
@[simp] theorem State.servoSet_len (s : State) (v a : Nat) : (s.servoSet v a).len = s.len := rfl
@[simp] theorem State.servoSet_lastch (s : State) (v a : Nat) : (s.servoSet v a).lastch = s.lastch := rfl
@[simp] theorem State.servoSet_linecnt (s : State) (v a : Nat) : (s.servoSet v a).linecnt = s.linecnt := rfl
@[simp] theorem State.servoSet_rxbyte (s : State) (v a : Nat) : (s.servoSet v a).rxbyte = s.rxbyte := rfl
@[simp] theorem State.servoSet_rxoerr (s : State) (v a : Nat) : (s.servoSet v a).rxoerr = s.rxoerr := rfl
@[simp] theorem State.servoSet_rxferr (s : State) (v a : Nat) : (s.servoSet v a).rxferr = s.rxferr := rfl
@[simp] theorem State.servoSet_adcdata (s : State) (v a : Nat) : (s.servoSet v a).adcdata = s.adcdata := rfl
@[simp] theorem State.servoSet_rxrstcnt (s : State) (v a : Nat) : (s.servoSet v a).rxrstcnt = s.rxrstcnt := rfl
@[simp] theorem State.servoSet_lbuf (s : State) (v a : Nat) : (s.servoSet v a).lbuf = s.lbuf := rfl
@[simp] theorem State.servoSet_stack (s : State) (v a : Nat) : (s.servoSet v a).stack = s.stack := rfl
@[simp] theorem State.servoSet_rxWaits (s : State) (v a : Nat) : (s.servoSet v a).rxWaits = s.rxWaits := rfl
@[simp] theorem State.servoSet_txq (s : State) (v a : Nat) : (s.servoSet v a).txq = s.txq := rfl
@[simp] theorem State.servoSet_tmrload (s : State) (v a : Nat) : (s.servoSet v a).tmrload = s.tmrload := rfl
@[simp] theorem State.servoSet_press (s : State) (v a : Nat) : (s.servoSet v a).press = s.press := rfl
@[simp] theorem State.servoSet_lines (s : State) (v a : Nat) : (s.servoSet v a).lines = s.lines := rfl
@[simp] theorem State.servoSet_rxtoggle (s : State) (v a : Nat) : (s.servoSet v a).rxtoggle = s.rxtoggle := rfl
@[simp] theorem State.servoSet_txout (s : State) (v a : Nat) : (s.servoSet v a).txout = s.txout := rfl
@[simp] theorem State.servoSet_resp (s : State) (v a : Nat) : (s.servoSet v a).resp = s.resp := rfl
@[simp] theorem State.servoSet_params (s : State) (v a : Nat) : (s.servoSet v a).params = s.params := rfl
@[simp] theorem State.servoSet_cmdPort (s : State) (v a : Nat) : (s.servoSet v a).cmdPort = s.cmdPort := rfl
@[simp] theorem State.servoSet_evtPort (s : State) (v a : Nat) : (s.servoSet v a).evtPort = s.evtPort := rfl
@[simp] theorem State.servoSet_turns (s : State) (v a : Nat) : (s.servoSet v a).turns = s.turns := rfl

/-! ## commitReload -/

@[simp] theorem State.commitReload_lasterr (s : State) (r : Nat) (w : Bool) : (s.commitReload r w).lasterr = s.lasterr := rfl
@[simp] theorem State.commitReload_cfgFault (s : State) (r : Nat) (w : Bool) : (s.commitReload r w).cfgFault = s.cfgFault := rfl
@[simp] theorem State.commitReload_adBusy (s : State) (r : Nat) (w : Bool) : (s.commitReload r w).adBusy = s.adBusy := rfl
@[simp] theorem State.commitReload_errflags (s : State) (r : Nat) (w : Bool) : (s.commitReload r w).errflags = s.errflags := rfl
@[simp] theorem State.commitReload_iflags (s : State) (r : Nat) (w : Bool) : (s.commitReload r w).iflags = s.iflags := rfl
@[simp] theorem State.commitReload_ienable (s : State) (r : Nat) (w : Bool) : (s.commitReload r w).ienable = s.ienable := rfl
@[simp] theorem State.commitReload_iprio (s : State) (r : Nat) (w : Bool) : (s.commitReload r w).iprio = s.iprio := rfl
@[simp] theorem State.commitReload_gieh (s : State) (r : Nat) (w : Bool) : (s.commitReload r w).gieh = s.gieh := rfl
@[simp] theorem State.commitReload_giel (s : State) (r : Nat) (w : Bool) : (s.commitReload r w).giel = s.giel := rfl
@[simp] theorem State.commitReload_mode (s : State) (r : Nat) (w : Bool) : (s.commitReload r w).mode = s.mode := rfl
@[simp] theorem State.commitReload_reload (s : State) (r : Nat) (w : Bool) : (s.commitReload r w).reload = BitVec.ofNat 16 r := rfl
@[simp] theorem State.commitReload_relw (s : State) (r : Nat) (w : Bool) : (s.commitReload r w).relw = w := rfl
@[simp] theorem State.commitReload_pr (s : State) (r : Nat) (w : Bool) : (s.commitReload r w).pr = s.pr := rfl
@[simp] theorem State.commitReload_dch (s : State) (r : Nat) (w : Bool) : (s.commitReload r w).dch = s.dch := rfl
@[simp] theorem State.commitReload_dcl (s : State) (r : Nat) (w : Bool) : (s.commitReload r w).dcl = s.dcl := rfl
@[simp] theorem State.commitReload_pwps (s : State) (r : Nat) (w : Bool) : (s.commitReload r w).pwps = s.pwps := rfl
@[simp] theorem State.commitReload_svang (s : State) (r : Nat) (w : Bool) : (s.commitReload r w).svang = s.svang := rfl
@[simp] theorem State.commitReload_out (s : State) (r : Nat) (w : Bool) : (s.commitReload r w).out = s.out := rfl
@[simp] theorem State.commitReload_btncnt (s : State) (r : Nat) (w : Bool) : (s.commitReload r w).btncnt = s.btncnt := rfl
@[simp] theorem State.commitReload_tmrcnt (s : State) (r : Nat) (w : Bool) : (s.commitReload r w).tmrcnt = s.tmrcnt := rfl
@[simp] theorem State.commitReload_dbncfg (s : State) (r : Nat) (w : Bool) : (s.commitReload r w).dbncfg = s.dbncfg := rfl
@[simp] theorem State.commitReload_dbncnt (s : State) (r : Nat) (w : Bool) : (s.commitReload r w).dbncnt = s.dbncnt := rfl
@[simp] theorem State.commitReload_armed (s : State) (r : Nat) (w : Bool) : (s.commitReload r w).armed = s.armed := rfl
@[simp] theorem State.commitReload_sflast (s : State) (r : Nat) (w : Bool) : (s.commitReload r w).sflast = s.sflast := rfl
@[simp] theorem State.commitReload_sfsmooth (s : State) (r : Nat) (w : Bool) : (s.commitReload r w).sfsmooth = s.sfsmooth := rfl
@[simp] theorem State.commitReload_inc (s : State) (r : Nat) (w : Bool) : (s.commitReload r w).inc = s.inc := rfl
@[simp] theorem State.commitReload_zone (s : State) (r : Nat) (w : Bool) : (s.commitReload r w).zone = s.zone := rfl
@[simp] theorem State.commitReload_zcnt (s : State) (r : Nat) (w : Bool) : (s.commitReload r w).zcnt = s.zcnt := rfl
@[simp] theorem State.commitReload_blink (s : State) (r : Nat) (w : Bool) : (s.commitReload r w).blink = s.blink := rfl
@[simp] theorem State.commitReload_mstate (s : State) (r : Nat) (w : Bool) : (s.commitReload r w).mstate = s.mstate := rfl
@[simp] theorem State.commitReload_len (s : State) (r : Nat) (w : Bool) : (s.commitReload r w).len = s.len := rfl
@[simp] theorem State.commitReload_lastch (s : State) (r : Nat) (w : Bool) : (s.commitReload r w).lastch = s.lastch := rfl
@[simp] theorem State.commitReload_linecnt (s : State) (r : Nat) (w : Bool) : (s.commitReload r w).linecnt = s.linecnt := rfl
@[simp] theorem State.commitReload_rxbyte (s : State) (r : Nat) (w : Bool) : (s.commitReload r w).rxbyte = s.rxbyte := rfl
@[simp] theorem State.commitReload_rxoerr (s : State) (r : Nat) (w : Bool) : (s.commitReload r w).rxoerr = s.rxoerr := rfl
@[simp] theorem State.commitReload_rxferr (s : State) (r : Nat) (w : Bool) : (s.commitReload r w).rxferr = s.rxferr := rfl
@[simp] theorem State.commitReload_adcdata (s : State) (r : Nat) (w : Bool) : (s.commitReload r w).adcdata = s.adcdata := rfl
@[simp] theorem State.commitReload_rxrstcnt (s : State) (r : Nat) (w : Bool) : (s.commitReload r w).rxrstcnt = s.rxrstcnt := rfl
@[simp] theorem State.commitReload_lbuf (s : State) (r : Nat) (w : Bool) : (s.commitReload r w).lbuf = s.lbuf := rfl
@[simp] theorem State.commitReload_stack (s : State) (r : Nat) (w : Bool) : (s.commitReload r w).stack = s.stack := rfl
@[simp] theorem State.commitReload_rxWaits (s : State) (r : Nat) (w : Bool) : (s.commitReload r w).rxWaits = s.rxWaits := rfl
@[simp] theorem State.commitReload_txq (s : State) (r : Nat) (w : Bool) : (s.commitReload r w).txq = s.txq := rfl
@[simp] theorem State.commitReload_tmrload (s : State) (r : Nat) (w : Bool) : (s.commitReload r w).tmrload = s.tmrload := rfl
@[simp] theorem State.commitReload_press (s : State) (r : Nat) (w : Bool) : (s.commitReload r w).press = s.press := rfl
@[simp] theorem State.commitReload_lines (s : State) (r : Nat) (w : Bool) : (s.commitReload r w).lines = s.lines := rfl
@[simp] theorem State.commitReload_rxtoggle (s : State) (r : Nat) (w : Bool) : (s.commitReload r w).rxtoggle = s.rxtoggle := rfl
@[simp] theorem State.commitReload_txout (s : State) (r : Nat) (w : Bool) : (s.commitReload r w).txout = s.txout := rfl
@[simp] theorem State.commitReload_resp (s : State) (r : Nat) (w : Bool) : (s.commitReload r w).resp = s.resp := rfl
@[simp] theorem State.commitReload_params (s : State) (r : Nat) (w : Bool) : (s.commitReload r w).params = s.params := rfl
@[simp] theorem State.commitReload_cmdPort (s : State) (r : Nat) (w : Bool) : (s.commitReload r w).cmdPort = s.cmdPort := rfl
@[simp] theorem State.commitReload_evtPort (s : State) (r : Nat) (w : Bool) : (s.commitReload r w).evtPort = s.evtPort := rfl
@[simp] theorem State.commitReload_turns (s : State) (r : Nat) (w : Bool) : (s.commitReload r w).turns = s.turns := rfl

/-! ## faultIf -/

@[simp] theorem State.faultIf_lasterr (s : State) (c : Bool) : (s.faultIf c).lasterr = s.lasterr := rfl
@[simp] theorem State.faultIf_cfgFault (s : State) (c : Bool) : (s.faultIf c).cfgFault = (s.cfgFault || c) := rfl
@[simp] theorem State.faultIf_adBusy (s : State) (c : Bool) : (s.faultIf c).adBusy = s.adBusy := rfl
@[simp] theorem State.faultIf_errflags (s : State) (c : Bool) : (s.faultIf c).errflags = s.errflags := rfl
@[simp] theorem State.faultIf_iflags (s : State) (c : Bool) : (s.faultIf c).iflags = s.iflags := rfl
@[simp] theorem State.faultIf_ienable (s : State) (c : Bool) : (s.faultIf c).ienable = s.ienable := rfl
@[simp] theorem State.faultIf_iprio (s : State) (c : Bool) : (s.faultIf c).iprio = s.iprio := rfl
@[simp] theorem State.faultIf_gieh (s : State) (c : Bool) : (s.faultIf c).gieh = s.gieh := rfl
@[simp] theorem State.faultIf_giel (s : State) (c : Bool) : (s.faultIf c).giel = s.giel := rfl
@[simp] theorem State.faultIf_mode (s : State) (c : Bool) : (s.faultIf c).mode = s.mode := rfl
@[simp] theorem State.faultIf_reload (s : State) (c : Bool) : (s.faultIf c).reload = s.reload := rfl
@[simp] theorem State.faultIf_relw (s : State) (c : Bool) : (s.faultIf c).relw = s.relw := rfl
@[simp] theorem State.faultIf_pr (s : State) (c : Bool) : (s.faultIf c).pr = s.pr := rfl
@[simp] theorem State.faultIf_dch (s : State) (c : Bool) : (s.faultIf c).dch = s.dch := rfl
@[simp] theorem State.faultIf_dcl (s : State) (c : Bool) : (s.faultIf c).dcl = s.dcl := rfl
@[simp] theorem State.faultIf_pwps (s : State) (c : Bool) : (s.faultIf c).pwps = s.pwps := rfl
@[simp] theorem State.faultIf_svang (s : State) (c : Bool) : (s.faultIf c).svang = s.svang := rfl
@[simp] theorem State.faultIf_out (s : State) (c : Bool) : (s.faultIf c).out = s.out := rfl
@[simp] theorem State.faultIf_btncnt (s : State) (c : Bool) : (s.faultIf c).btncnt = s.btncnt := rfl
@[simp] theorem State.faultIf_tmrcnt (s : State) (c : Bool) : (s.faultIf c).tmrcnt = s.tmrcnt := rfl
@[simp] theorem State.faultIf_dbncfg (s : State) (c : Bool) : (s.faultIf c).dbncfg = s.dbncfg := rfl
@[simp] theorem State.faultIf_dbncnt (s : State) (c : Bool) : (s.faultIf c).dbncnt = s.dbncnt := rfl
@[simp] theorem State.faultIf_armed (s : State) (c : Bool) : (s.faultIf c).armed = s.armed := rfl
@[simp] theorem State.faultIf_sflast (s : State) (c : Bool) : (s.faultIf c).sflast = s.sflast := rfl
@[simp] theorem State.faultIf_sfsmooth (s : State) (c : Bool) : (s.faultIf c).sfsmooth = s.sfsmooth := rfl
@[simp] theorem State.faultIf_inc (s : State) (c : Bool) : (s.faultIf c).inc = s.inc := rfl
@[simp] theorem State.faultIf_zone (s : State) (c : Bool) : (s.faultIf c).zone = s.zone := rfl
@[simp] theorem State.faultIf_zcnt (s : State) (c : Bool) : (s.faultIf c).zcnt = s.zcnt := rfl
@[simp] theorem State.faultIf_blink (s : State) (c : Bool) : (s.faultIf c).blink = s.blink := rfl
@[simp] theorem State.faultIf_mstate (s : State) (c : Bool) : (s.faultIf c).mstate = s.mstate := rfl
@[simp] theorem State.faultIf_len (s : State) (c : Bool) : (s.faultIf c).len = s.len := rfl
@[simp] theorem State.faultIf_lastch (s : State) (c : Bool) : (s.faultIf c).lastch = s.lastch := rfl
@[simp] theorem State.faultIf_linecnt (s : State) (c : Bool) : (s.faultIf c).linecnt = s.linecnt := rfl
@[simp] theorem State.faultIf_rxbyte (s : State) (c : Bool) : (s.faultIf c).rxbyte = s.rxbyte := rfl
@[simp] theorem State.faultIf_rxoerr (s : State) (c : Bool) : (s.faultIf c).rxoerr = s.rxoerr := rfl
@[simp] theorem State.faultIf_rxferr (s : State) (c : Bool) : (s.faultIf c).rxferr = s.rxferr := rfl
@[simp] theorem State.faultIf_adcdata (s : State) (c : Bool) : (s.faultIf c).adcdata = s.adcdata := rfl
@[simp] theorem State.faultIf_rxrstcnt (s : State) (c : Bool) : (s.faultIf c).rxrstcnt = s.rxrstcnt := rfl
@[simp] theorem State.faultIf_lbuf (s : State) (c : Bool) : (s.faultIf c).lbuf = s.lbuf := rfl
@[simp] theorem State.faultIf_stack (s : State) (c : Bool) : (s.faultIf c).stack = s.stack := rfl
@[simp] theorem State.faultIf_rxWaits (s : State) (c : Bool) : (s.faultIf c).rxWaits = s.rxWaits := rfl
@[simp] theorem State.faultIf_txq (s : State) (c : Bool) : (s.faultIf c).txq = s.txq := rfl
@[simp] theorem State.faultIf_tmrload (s : State) (c : Bool) : (s.faultIf c).tmrload = s.tmrload := rfl
@[simp] theorem State.faultIf_press (s : State) (c : Bool) : (s.faultIf c).press = s.press := rfl
@[simp] theorem State.faultIf_lines (s : State) (c : Bool) : (s.faultIf c).lines = s.lines := rfl
@[simp] theorem State.faultIf_rxtoggle (s : State) (c : Bool) : (s.faultIf c).rxtoggle = s.rxtoggle := rfl
@[simp] theorem State.faultIf_txout (s : State) (c : Bool) : (s.faultIf c).txout = s.txout := rfl
@[simp] theorem State.faultIf_resp (s : State) (c : Bool) : (s.faultIf c).resp = s.resp := rfl
@[simp] theorem State.faultIf_params (s : State) (c : Bool) : (s.faultIf c).params = s.params := rfl
@[simp] theorem State.faultIf_cmdPort (s : State) (c : Bool) : (s.faultIf c).cmdPort = s.cmdPort := rfl
@[simp] theorem State.faultIf_evtPort (s : State) (c : Bool) : (s.faultIf c).evtPort = s.evtPort := rfl
@[simp] theorem State.faultIf_turns (s : State) (c : Bool) : (s.faultIf c).turns = s.turns := rfl

/-! ## setTop -/

@[simp] theorem State.setTop_lasterr (s : State) (f : Frame) (rest : List Frame) : (s.setTop f rest).lasterr = s.lasterr := rfl
@[simp] theorem State.setTop_cfgFault (s : State) (f : Frame) (rest : List Frame) : (s.setTop f rest).cfgFault = s.cfgFault := rfl
@[simp] theorem State.setTop_adBusy (s : State) (f : Frame) (rest : List Frame) : (s.setTop f rest).adBusy = s.adBusy := rfl
@[simp] theorem State.setTop_errflags (s : State) (f : Frame) (rest : List Frame) : (s.setTop f rest).errflags = s.errflags := rfl
@[simp] theorem State.setTop_iflags (s : State) (f : Frame) (rest : List Frame) : (s.setTop f rest).iflags = s.iflags := rfl
@[simp] theorem State.setTop_ienable (s : State) (f : Frame) (rest : List Frame) : (s.setTop f rest).ienable = s.ienable := rfl
@[simp] theorem State.setTop_iprio (s : State) (f : Frame) (rest : List Frame) : (s.setTop f rest).iprio = s.iprio := rfl
@[simp] theorem State.setTop_gieh (s : State) (f : Frame) (rest : List Frame) : (s.setTop f rest).gieh = s.gieh := rfl
@[simp] theorem State.setTop_giel (s : State) (f : Frame) (rest : List Frame) : (s.setTop f rest).giel = s.giel := rfl
@[simp] theorem State.setTop_mode (s : State) (f : Frame) (rest : List Frame) : (s.setTop f rest).mode = s.mode := rfl
@[simp] theorem State.setTop_reload (s : State) (f : Frame) (rest : List Frame) : (s.setTop f rest).reload = s.reload := rfl
@[simp] theorem State.setTop_relw (s : State) (f : Frame) (rest : List Frame) : (s.setTop f rest).relw = s.relw := rfl
@[simp] theorem State.setTop_pr (s : State) (f : Frame) (rest : List Frame) : (s.setTop f rest).pr = s.pr := rfl
@[simp] theorem State.setTop_dch (s : State) (f : Frame) (rest : List Frame) : (s.setTop f rest).dch = s.dch := rfl
@[simp] theorem State.setTop_dcl (s : State) (f : Frame) (rest : List Frame) : (s.setTop f rest).dcl = s.dcl := rfl
@[simp] theorem State.setTop_pwps (s : State) (f : Frame) (rest : List Frame) : (s.setTop f rest).pwps = s.pwps := rfl
@[simp] theorem State.setTop_svang (s : State) (f : Frame) (rest : List Frame) : (s.setTop f rest).svang = s.svang := rfl
@[simp] theorem State.setTop_out (s : State) (f : Frame) (rest : List Frame) : (s.setTop f rest).out = s.out := rfl
@[simp] theorem State.setTop_btncnt (s : State) (f : Frame) (rest : List Frame) : (s.setTop f rest).btncnt = s.btncnt := rfl
@[simp] theorem State.setTop_tmrcnt (s : State) (f : Frame) (rest : List Frame) : (s.setTop f rest).tmrcnt = s.tmrcnt := rfl
@[simp] theorem State.setTop_dbncfg (s : State) (f : Frame) (rest : List Frame) : (s.setTop f rest).dbncfg = s.dbncfg := rfl
@[simp] theorem State.setTop_dbncnt (s : State) (f : Frame) (rest : List Frame) : (s.setTop f rest).dbncnt = s.dbncnt := rfl
@[simp] theorem State.setTop_armed (s : State) (f : Frame) (rest : List Frame) : (s.setTop f rest).armed = s.armed := rfl
@[simp] theorem State.setTop_sflast (s : State) (f : Frame) (rest : List Frame) : (s.setTop f rest).sflast = s.sflast := rfl
@[simp] theorem State.setTop_sfsmooth (s : State) (f : Frame) (rest : List Frame) : (s.setTop f rest).sfsmooth = s.sfsmooth := rfl
@[simp] theorem State.setTop_inc (s : State) (f : Frame) (rest : List Frame) : (s.setTop f rest).inc = s.inc := rfl
@[simp] theorem State.setTop_zone (s : State) (f : Frame) (rest : List Frame) : (s.setTop f rest).zone = s.zone := rfl
@[simp] theorem State.setTop_zcnt (s : State) (f : Frame) (rest : List Frame) : (s.setTop f rest).zcnt = s.zcnt := rfl
@[simp] theorem State.setTop_blink (s : State) (f : Frame) (rest : List Frame) : (s.setTop f rest).blink = s.blink := rfl
@[simp] theorem State.setTop_mstate (s : State) (f : Frame) (rest : List Frame) : (s.setTop f rest).mstate = s.mstate := rfl
@[simp] theorem State.setTop_len (s : State) (f : Frame) (rest : List Frame) : (s.setTop f rest).len = s.len := rfl
@[simp] theorem State.setTop_lastch (s : State) (f : Frame) (rest : List Frame) : (s.setTop f rest).lastch = s.lastch := rfl
@[simp] theorem State.setTop_linecnt (s : State) (f : Frame) (rest : List Frame) : (s.setTop f rest).linecnt = s.linecnt := rfl
@[simp] theorem State.setTop_rxbyte (s : State) (f : Frame) (rest : List Frame) : (s.setTop f rest).rxbyte = s.rxbyte := rfl
@[simp] theorem State.setTop_rxoerr (s : State) (f : Frame) (rest : List Frame) : (s.setTop f rest).rxoerr = s.rxoerr := rfl
@[simp] theorem State.setTop_rxferr (s : State) (f : Frame) (rest : List Frame) : (s.setTop f rest).rxferr = s.rxferr := rfl
@[simp] theorem State.setTop_adcdata (s : State) (f : Frame) (rest : List Frame) : (s.setTop f rest).adcdata = s.adcdata := rfl
@[simp] theorem State.setTop_rxrstcnt (s : State) (f : Frame) (rest : List Frame) : (s.setTop f rest).rxrstcnt = s.rxrstcnt := rfl
@[simp] theorem State.setTop_lbuf (s : State) (f : Frame) (rest : List Frame) : (s.setTop f rest).lbuf = s.lbuf := rfl
@[simp] theorem State.setTop_stack (s : State) (f : Frame) (rest : List Frame) : (s.setTop f rest).stack = f :: rest := rfl
@[simp] theorem State.setTop_rxWaits (s : State) (f : Frame) (rest : List Frame) : (s.setTop f rest).rxWaits = s.rxWaits := rfl
@[simp] theorem State.setTop_txq (s : State) (f : Frame) (rest : List Frame) : (s.setTop f rest).txq = s.txq := rfl
@[simp] theorem State.setTop_tmrload (s : State) (f : Frame) (rest : List Frame) : (s.setTop f rest).tmrload = s.tmrload := rfl
@[simp] theorem State.setTop_press (s : State) (f : Frame) (rest : List Frame) : (s.setTop f rest).press = s.press := rfl
@[simp] theorem State.setTop_lines (s : State) (f : Frame) (rest : List Frame) : (s.setTop f rest).lines = s.lines := rfl
@[simp] theorem State.setTop_rxtoggle (s : State) (f : Frame) (rest : List Frame) : (s.setTop f rest).rxtoggle = s.rxtoggle := rfl
@[simp] theorem State.setTop_txout (s : State) (f : Frame) (rest : List Frame) : (s.setTop f rest).txout = s.txout := rfl
@[simp] theorem State.setTop_resp (s : State) (f : Frame) (rest : List Frame) : (s.setTop f rest).resp = s.resp := rfl
@[simp] theorem State.setTop_params (s : State) (f : Frame) (rest : List Frame) : (s.setTop f rest).params = s.params := rfl
@[simp] theorem State.setTop_cmdPort (s : State) (f : Frame) (rest : List Frame) : (s.setTop f rest).cmdPort = s.cmdPort := rfl
@[simp] theorem State.setTop_evtPort (s : State) (f : Frame) (rest : List Frame) : (s.setTop f rest).evtPort = s.evtPort := rfl
@[simp] theorem State.setTop_turns (s : State) (f : Frame) (rest : List Frame) : (s.setTop f rest).turns = s.turns := rfl

/-! ## endWait -/

@[simp] theorem State.endWait_lasterr (s : State) (x : Src) : (s.endWait x).lasterr = s.lasterr := rfl
@[simp] theorem State.endWait_cfgFault (s : State) (x : Src) : (s.endWait x).cfgFault = s.cfgFault := rfl
@[simp] theorem State.endWait_adBusy (s : State) (x : Src) : (s.endWait x).adBusy = s.adBusy := rfl
@[simp] theorem State.endWait_errflags (s : State) (x : Src) : (s.endWait x).errflags = s.errflags := rfl
@[simp] theorem State.endWait_iflags (s : State) (x : Src) : (s.endWait x).iflags = s.iflags := rfl
@[simp] theorem State.endWait_ienable (s : State) (x : Src) : (s.endWait x).ienable = s.ienable := rfl
@[simp] theorem State.endWait_iprio (s : State) (x : Src) : (s.endWait x).iprio = s.iprio := rfl
@[simp] theorem State.endWait_gieh (s : State) (x : Src) : (s.endWait x).gieh = s.gieh := rfl
@[simp] theorem State.endWait_giel (s : State) (x : Src) : (s.endWait x).giel = s.giel := rfl
@[simp] theorem State.endWait_mode (s : State) (x : Src) : (s.endWait x).mode = s.mode := rfl
@[simp] theorem State.endWait_reload (s : State) (x : Src) : (s.endWait x).reload = s.reload := rfl
@[simp] theorem State.endWait_relw (s : State) (x : Src) : (s.endWait x).relw = s.relw := rfl
@[simp] theorem State.endWait_pr (s : State) (x : Src) : (s.endWait x).pr = s.pr := rfl
@[simp] theorem State.endWait_dch (s : State) (x : Src) : (s.endWait x).dch = s.dch := rfl
@[simp] theorem State.endWait_dcl (s : State) (x : Src) : (s.endWait x).dcl = s.dcl := rfl
@[simp] theorem State.endWait_pwps (s : State) (x : Src) : (s.endWait x).pwps = s.pwps := rfl
@[simp] theorem State.endWait_svang (s : State) (x : Src) : (s.endWait x).svang = s.svang := rfl
@[simp] theorem State.endWait_out (s : State) (x : Src) : (s.endWait x).out = s.out := rfl
@[simp] theorem State.endWait_btncnt (s : State) (x : Src) : (s.endWait x).btncnt = s.btncnt := rfl
@[simp] theorem State.endWait_tmrcnt (s : State) (x : Src) : (s.endWait x).tmrcnt = s.tmrcnt := rfl
@[simp] theorem State.endWait_dbncfg (s : State) (x : Src) : (s.endWait x).dbncfg = s.dbncfg := rfl
@[simp] theorem State.endWait_dbncnt (s : State) (x : Src) : (s.endWait x).dbncnt = s.dbncnt := rfl
@[simp] theorem State.endWait_armed (s : State) (x : Src) : (s.endWait x).armed = s.armed := rfl
@[simp] theorem State.endWait_sflast (s : State) (x : Src) : (s.endWait x).sflast = s.sflast := rfl
@[simp] theorem State.endWait_sfsmooth (s : State) (x : Src) : (s.endWait x).sfsmooth = s.sfsmooth := rfl
@[simp] theorem State.endWait_inc (s : State) (x : Src) : (s.endWait x).inc = s.inc := rfl
@[simp] theorem State.endWait_zone (s : State) (x : Src) : (s.endWait x).zone = s.zone := rfl
@[simp] theorem State.endWait_zcnt (s : State) (x : Src) : (s.endWait x).zcnt = s.zcnt := rfl
@[simp] theorem State.endWait_blink (s : State) (x : Src) : (s.endWait x).blink = s.blink := rfl
@[simp] theorem State.endWait_mstate (s : State) (x : Src) : (s.endWait x).mstate = s.mstate := rfl
@[simp] theorem State.endWait_len (s : State) (x : Src) : (s.endWait x).len = s.len := rfl
@[simp] theorem State.endWait_lastch (s : State) (x : Src) : (s.endWait x).lastch = s.lastch := rfl
@[simp] theorem State.endWait_linecnt (s : State) (x : Src) : (s.endWait x).linecnt = s.linecnt := rfl
@[simp] theorem State.endWait_rxbyte (s : State) (x : Src) : (s.endWait x).rxbyte = s.rxbyte := rfl
@[simp] theorem State.endWait_rxoerr (s : State) (x : Src) : (s.endWait x).rxoerr = s.rxoerr := rfl
@[simp] theorem State.endWait_rxferr (s : State) (x : Src) : (s.endWait x).rxferr = s.rxferr := rfl
@[simp] theorem State.endWait_adcdata (s : State) (x : Src) : (s.endWait x).adcdata = s.adcdata := rfl
@[simp] theorem State.endWait_rxrstcnt (s : State) (x : Src) : (s.endWait x).rxrstcnt = s.rxrstcnt := rfl
@[simp] theorem State.endWait_lbuf (s : State) (x : Src) : (s.endWait x).lbuf = s.lbuf := rfl
@[simp] theorem State.endWait_stack (s : State) (x : Src) : (s.endWait x).stack = s.stack := rfl
@[simp] theorem State.endWait_rxWaits (s : State) (x : Src) : (s.endWait x).rxWaits = (s.rxWaits && x != .rx) := rfl
@[simp] theorem State.endWait_txq (s : State) (x : Src) : (s.endWait x).txq = s.txq := rfl
@[simp] theorem State.endWait_tmrload (s : State) (x : Src) : (s.endWait x).tmrload = s.tmrload := rfl
@[simp] theorem State.endWait_press (s : State) (x : Src) : (s.endWait x).press = s.press := rfl
@[simp] theorem State.endWait_lines (s : State) (x : Src) : (s.endWait x).lines = s.lines := rfl
@[simp] theorem State.endWait_rxtoggle (s : State) (x : Src) : (s.endWait x).rxtoggle = s.rxtoggle := rfl
@[simp] theorem State.endWait_txout (s : State) (x : Src) : (s.endWait x).txout = s.txout := rfl
@[simp] theorem State.endWait_resp (s : State) (x : Src) : (s.endWait x).resp = s.resp := rfl
@[simp] theorem State.endWait_params (s : State) (x : Src) : (s.endWait x).params = s.params := rfl
@[simp] theorem State.endWait_cmdPort (s : State) (x : Src) : (s.endWait x).cmdPort = s.cmdPort := rfl
@[simp] theorem State.endWait_evtPort (s : State) (x : Src) : (s.endWait x).evtPort = s.evtPort := rfl
@[simp] theorem State.endWait_turns (s : State) (x : Src) : (s.endWait x).turns = s.turns := rfl

/-! ## noteWait -/

@[simp] theorem State.noteWait_lasterr (s : State) : (s.noteWait).lasterr = s.lasterr := rfl
@[simp] theorem State.noteWait_cfgFault (s : State) : (s.noteWait).cfgFault = s.cfgFault := rfl
@[simp] theorem State.noteWait_adBusy (s : State) : (s.noteWait).adBusy = s.adBusy := rfl
@[simp] theorem State.noteWait_errflags (s : State) : (s.noteWait).errflags = s.errflags := rfl
@[simp] theorem State.noteWait_iflags (s : State) : (s.noteWait).iflags = s.iflags := rfl
@[simp] theorem State.noteWait_ienable (s : State) : (s.noteWait).ienable = s.ienable := rfl
@[simp] theorem State.noteWait_iprio (s : State) : (s.noteWait).iprio = s.iprio := rfl
@[simp] theorem State.noteWait_gieh (s : State) : (s.noteWait).gieh = s.gieh := rfl
@[simp] theorem State.noteWait_giel (s : State) : (s.noteWait).giel = s.giel := rfl
@[simp] theorem State.noteWait_mode (s : State) : (s.noteWait).mode = s.mode := rfl
@[simp] theorem State.noteWait_reload (s : State) : (s.noteWait).reload = s.reload := rfl
@[simp] theorem State.noteWait_relw (s : State) : (s.noteWait).relw = s.relw := rfl
@[simp] theorem State.noteWait_pr (s : State) : (s.noteWait).pr = s.pr := rfl
@[simp] theorem State.noteWait_dch (s : State) : (s.noteWait).dch = s.dch := rfl
@[simp] theorem State.noteWait_dcl (s : State) : (s.noteWait).dcl = s.dcl := rfl
@[simp] theorem State.noteWait_pwps (s : State) : (s.noteWait).pwps = s.pwps := rfl
@[simp] theorem State.noteWait_svang (s : State) : (s.noteWait).svang = s.svang := rfl
@[simp] theorem State.noteWait_out (s : State) : (s.noteWait).out = s.out := rfl
@[simp] theorem State.noteWait_btncnt (s : State) : (s.noteWait).btncnt = s.btncnt := rfl
@[simp] theorem State.noteWait_tmrcnt (s : State) : (s.noteWait).tmrcnt = s.tmrcnt := rfl
@[simp] theorem State.noteWait_dbncfg (s : State) : (s.noteWait).dbncfg = s.dbncfg := rfl
@[simp] theorem State.noteWait_dbncnt (s : State) : (s.noteWait).dbncnt = s.dbncnt := rfl
@[simp] theorem State.noteWait_armed (s : State) : (s.noteWait).armed = s.armed := rfl
@[simp] theorem State.noteWait_sflast (s : State) : (s.noteWait).sflast = s.sflast := rfl
@[simp] theorem State.noteWait_sfsmooth (s : State) : (s.noteWait).sfsmooth = s.sfsmooth := rfl
@[simp] theorem State.noteWait_inc (s : State) : (s.noteWait).inc = s.inc := rfl
@[simp] theorem State.noteWait_zone (s : State) : (s.noteWait).zone = s.zone := rfl
@[simp] theorem State.noteWait_zcnt (s : State) : (s.noteWait).zcnt = s.zcnt := rfl
@[simp] theorem State.noteWait_blink (s : State) : (s.noteWait).blink = s.blink := rfl
@[simp] theorem State.noteWait_mstate (s : State) : (s.noteWait).mstate = s.mstate := rfl
@[simp] theorem State.noteWait_len (s : State) : (s.noteWait).len = s.len := rfl
@[simp] theorem State.noteWait_lastch (s : State) : (s.noteWait).lastch = s.lastch := rfl
@[simp] theorem State.noteWait_linecnt (s : State) : (s.noteWait).linecnt = s.linecnt := rfl
@[simp] theorem State.noteWait_rxbyte (s : State) : (s.noteWait).rxbyte = s.rxbyte := rfl
@[simp] theorem State.noteWait_rxoerr (s : State) : (s.noteWait).rxoerr = s.rxoerr := rfl
@[simp] theorem State.noteWait_rxferr (s : State) : (s.noteWait).rxferr = s.rxferr := rfl
@[simp] theorem State.noteWait_adcdata (s : State) : (s.noteWait).adcdata = s.adcdata := rfl
@[simp] theorem State.noteWait_rxrstcnt (s : State) : (s.noteWait).rxrstcnt = s.rxrstcnt := rfl
@[simp] theorem State.noteWait_lbuf (s : State) : (s.noteWait).lbuf = s.lbuf := rfl
@[simp] theorem State.noteWait_stack (s : State) : (s.noteWait).stack = s.stack := rfl
@[simp] theorem State.noteWait_rxWaits (s : State) : (s.noteWait).rxWaits = (s.rxWaits || s.atHeldRx) := rfl
@[simp] theorem State.noteWait_txq (s : State) : (s.noteWait).txq = s.txq := rfl
@[simp] theorem State.noteWait_tmrload (s : State) : (s.noteWait).tmrload = s.tmrload := rfl
@[simp] theorem State.noteWait_press (s : State) : (s.noteWait).press = s.press := rfl
@[simp] theorem State.noteWait_lines (s : State) : (s.noteWait).lines = s.lines := rfl
@[simp] theorem State.noteWait_rxtoggle (s : State) : (s.noteWait).rxtoggle = s.rxtoggle := rfl
@[simp] theorem State.noteWait_txout (s : State) : (s.noteWait).txout = s.txout := rfl
@[simp] theorem State.noteWait_resp (s : State) : (s.noteWait).resp = s.resp := rfl
@[simp] theorem State.noteWait_params (s : State) : (s.noteWait).params = s.params := rfl
@[simp] theorem State.noteWait_cmdPort (s : State) : (s.noteWait).cmdPort = s.cmdPort := rfl
@[simp] theorem State.noteWait_evtPort (s : State) : (s.noteWait).evtPort = s.evtPort := rfl
@[simp] theorem State.noteWait_turns (s : State) : (s.noteWait).turns = s.turns := rfl

/-! ## leaveCommands -/

@[simp] theorem State.leaveCommands_lasterr (s : State) (rest : List Packet) : (s.leaveCommands rest).lasterr = s.lasterr := rfl
@[simp] theorem State.leaveCommands_cfgFault (s : State) (rest : List Packet) : (s.leaveCommands rest).cfgFault = s.cfgFault := rfl
@[simp] theorem State.leaveCommands_adBusy (s : State) (rest : List Packet) : (s.leaveCommands rest).adBusy = s.adBusy := rfl
@[simp] theorem State.leaveCommands_errflags (s : State) (rest : List Packet) : (s.leaveCommands rest).errflags = s.errflags := rfl
@[simp] theorem State.leaveCommands_iflags (s : State) (rest : List Packet) : (s.leaveCommands rest).iflags = s.iflags := rfl
@[simp] theorem State.leaveCommands_ienable (s : State) (rest : List Packet) : (s.leaveCommands rest).ienable = s.ienable := rfl
@[simp] theorem State.leaveCommands_iprio (s : State) (rest : List Packet) : (s.leaveCommands rest).iprio = s.iprio := rfl
@[simp] theorem State.leaveCommands_gieh (s : State) (rest : List Packet) : (s.leaveCommands rest).gieh = s.gieh := rfl
@[simp] theorem State.leaveCommands_giel (s : State) (rest : List Packet) : (s.leaveCommands rest).giel = s.giel := rfl
@[simp] theorem State.leaveCommands_mode (s : State) (rest : List Packet) : (s.leaveCommands rest).mode = s.mode := rfl
@[simp] theorem State.leaveCommands_reload (s : State) (rest : List Packet) : (s.leaveCommands rest).reload = s.reload := rfl
@[simp] theorem State.leaveCommands_relw (s : State) (rest : List Packet) : (s.leaveCommands rest).relw = s.relw := rfl
@[simp] theorem State.leaveCommands_pr (s : State) (rest : List Packet) : (s.leaveCommands rest).pr = s.pr := rfl
@[simp] theorem State.leaveCommands_dch (s : State) (rest : List Packet) : (s.leaveCommands rest).dch = s.dch := rfl
@[simp] theorem State.leaveCommands_dcl (s : State) (rest : List Packet) : (s.leaveCommands rest).dcl = s.dcl := rfl
@[simp] theorem State.leaveCommands_pwps (s : State) (rest : List Packet) : (s.leaveCommands rest).pwps = s.pwps := rfl
@[simp] theorem State.leaveCommands_svang (s : State) (rest : List Packet) : (s.leaveCommands rest).svang = s.svang := rfl
@[simp] theorem State.leaveCommands_out (s : State) (rest : List Packet) : (s.leaveCommands rest).out = s.out := rfl
@[simp] theorem State.leaveCommands_btncnt (s : State) (rest : List Packet) : (s.leaveCommands rest).btncnt = s.btncnt := rfl
@[simp] theorem State.leaveCommands_tmrcnt (s : State) (rest : List Packet) : (s.leaveCommands rest).tmrcnt = s.tmrcnt := rfl
@[simp] theorem State.leaveCommands_dbncfg (s : State) (rest : List Packet) : (s.leaveCommands rest).dbncfg = s.dbncfg := rfl
@[simp] theorem State.leaveCommands_dbncnt (s : State) (rest : List Packet) : (s.leaveCommands rest).dbncnt = s.dbncnt := rfl
@[simp] theorem State.leaveCommands_armed (s : State) (rest : List Packet) : (s.leaveCommands rest).armed = s.armed := rfl
@[simp] theorem State.leaveCommands_sflast (s : State) (rest : List Packet) : (s.leaveCommands rest).sflast = s.sflast := rfl
@[simp] theorem State.leaveCommands_sfsmooth (s : State) (rest : List Packet) : (s.leaveCommands rest).sfsmooth = s.sfsmooth := rfl
@[simp] theorem State.leaveCommands_inc (s : State) (rest : List Packet) : (s.leaveCommands rest).inc = s.inc := rfl
@[simp] theorem State.leaveCommands_zone (s : State) (rest : List Packet) : (s.leaveCommands rest).zone = s.zone := rfl
@[simp] theorem State.leaveCommands_zcnt (s : State) (rest : List Packet) : (s.leaveCommands rest).zcnt = s.zcnt := rfl
@[simp] theorem State.leaveCommands_blink (s : State) (rest : List Packet) : (s.leaveCommands rest).blink = s.blink := rfl
@[simp] theorem State.leaveCommands_mstate (s : State) (rest : List Packet) : (s.leaveCommands rest).mstate = s.mstate := rfl
@[simp] theorem State.leaveCommands_len (s : State) (rest : List Packet) : (s.leaveCommands rest).len = s.len := rfl
@[simp] theorem State.leaveCommands_lastch (s : State) (rest : List Packet) : (s.leaveCommands rest).lastch = s.lastch := rfl
@[simp] theorem State.leaveCommands_linecnt (s : State) (rest : List Packet) : (s.leaveCommands rest).linecnt = s.linecnt := rfl
@[simp] theorem State.leaveCommands_rxbyte (s : State) (rest : List Packet) : (s.leaveCommands rest).rxbyte = s.rxbyte := rfl
@[simp] theorem State.leaveCommands_rxoerr (s : State) (rest : List Packet) : (s.leaveCommands rest).rxoerr = s.rxoerr := rfl
@[simp] theorem State.leaveCommands_rxferr (s : State) (rest : List Packet) : (s.leaveCommands rest).rxferr = s.rxferr := rfl
@[simp] theorem State.leaveCommands_adcdata (s : State) (rest : List Packet) : (s.leaveCommands rest).adcdata = s.adcdata := rfl
@[simp] theorem State.leaveCommands_rxrstcnt (s : State) (rest : List Packet) : (s.leaveCommands rest).rxrstcnt = s.rxrstcnt := rfl
@[simp] theorem State.leaveCommands_lbuf (s : State) (rest : List Packet) : (s.leaveCommands rest).lbuf = s.lbuf := rfl
@[simp] theorem State.leaveCommands_stack (s : State) (rest : List Packet) : (s.leaveCommands rest).stack = s.stack := rfl
@[simp] theorem State.leaveCommands_rxWaits (s : State) (rest : List Packet) : (s.leaveCommands rest).rxWaits = s.rxWaits := rfl
@[simp] theorem State.leaveCommands_txq (s : State) (rest : List Packet) : (s.leaveCommands rest).txq = s.txq := rfl
@[simp] theorem State.leaveCommands_tmrload (s : State) (rest : List Packet) : (s.leaveCommands rest).tmrload = s.tmrload := rfl
@[simp] theorem State.leaveCommands_press (s : State) (rest : List Packet) : (s.leaveCommands rest).press = s.press := rfl
@[simp] theorem State.leaveCommands_lines (s : State) (rest : List Packet) : (s.leaveCommands rest).lines = s.lines := rfl
@[simp] theorem State.leaveCommands_rxtoggle (s : State) (rest : List Packet) : (s.leaveCommands rest).rxtoggle = s.rxtoggle := rfl
@[simp] theorem State.leaveCommands_txout (s : State) (rest : List Packet) : (s.leaveCommands rest).txout = s.txout := rfl
@[simp] theorem State.leaveCommands_resp (s : State) (rest : List Packet) : (s.leaveCommands rest).resp = s.resp := rfl
@[simp] theorem State.leaveCommands_params (s : State) (rest : List Packet) : (s.leaveCommands rest).params = s.params := rfl
@[simp] theorem State.leaveCommands_cmdPort (s : State) (rest : List Packet) : (s.leaveCommands rest).cmdPort = rest := rfl
@[simp] theorem State.leaveCommands_evtPort (s : State) (rest : List Packet) : (s.leaveCommands rest).evtPort = s.evtPort := rfl
@[simp] theorem State.leaveCommands_turns (s : State) (rest : List Packet) : (s.leaveCommands rest).turns = s.turns := rfl

/-! ## leaveEvents -/

@[simp] theorem State.leaveEvents_lasterr (s : State) (rest : List Packet) : (s.leaveEvents rest).lasterr = s.lasterr := rfl
@[simp] theorem State.leaveEvents_cfgFault (s : State) (rest : List Packet) : (s.leaveEvents rest).cfgFault = s.cfgFault := rfl
@[simp] theorem State.leaveEvents_adBusy (s : State) (rest : List Packet) : (s.leaveEvents rest).adBusy = s.adBusy := rfl
@[simp] theorem State.leaveEvents_errflags (s : State) (rest : List Packet) : (s.leaveEvents rest).errflags = s.errflags := rfl
@[simp] theorem State.leaveEvents_iflags (s : State) (rest : List Packet) : (s.leaveEvents rest).iflags = s.iflags := rfl
@[simp] theorem State.leaveEvents_ienable (s : State) (rest : List Packet) : (s.leaveEvents rest).ienable = s.ienable := rfl
@[simp] theorem State.leaveEvents_iprio (s : State) (rest : List Packet) : (s.leaveEvents rest).iprio = s.iprio := rfl
@[simp] theorem State.leaveEvents_gieh (s : State) (rest : List Packet) : (s.leaveEvents rest).gieh = s.gieh := rfl
@[simp] theorem State.leaveEvents_giel (s : State) (rest : List Packet) : (s.leaveEvents rest).giel = s.giel := rfl
@[simp] theorem State.leaveEvents_mode (s : State) (rest : List Packet) : (s.leaveEvents rest).mode = s.mode := rfl
@[simp] theorem State.leaveEvents_reload (s : State) (rest : List Packet) : (s.leaveEvents rest).reload = s.reload := rfl
@[simp] theorem State.leaveEvents_relw (s : State) (rest : List Packet) : (s.leaveEvents rest).relw = s.relw := rfl
@[simp] theorem State.leaveEvents_pr (s : State) (rest : List Packet) : (s.leaveEvents rest).pr = s.pr := rfl
@[simp] theorem State.leaveEvents_dch (s : State) (rest : List Packet) : (s.leaveEvents rest).dch = s.dch := rfl
@[simp] theorem State.leaveEvents_dcl (s : State) (rest : List Packet) : (s.leaveEvents rest).dcl = s.dcl := rfl
@[simp] theorem State.leaveEvents_pwps (s : State) (rest : List Packet) : (s.leaveEvents rest).pwps = s.pwps := rfl
@[simp] theorem State.leaveEvents_svang (s : State) (rest : List Packet) : (s.leaveEvents rest).svang = s.svang := rfl
@[simp] theorem State.leaveEvents_out (s : State) (rest : List Packet) : (s.leaveEvents rest).out = s.out := rfl
@[simp] theorem State.leaveEvents_btncnt (s : State) (rest : List Packet) : (s.leaveEvents rest).btncnt = s.btncnt := rfl
@[simp] theorem State.leaveEvents_tmrcnt (s : State) (rest : List Packet) : (s.leaveEvents rest).tmrcnt = s.tmrcnt := rfl
@[simp] theorem State.leaveEvents_dbncfg (s : State) (rest : List Packet) : (s.leaveEvents rest).dbncfg = s.dbncfg := rfl
@[simp] theorem State.leaveEvents_dbncnt (s : State) (rest : List Packet) : (s.leaveEvents rest).dbncnt = s.dbncnt := rfl
@[simp] theorem State.leaveEvents_armed (s : State) (rest : List Packet) : (s.leaveEvents rest).armed = s.armed := rfl
@[simp] theorem State.leaveEvents_sflast (s : State) (rest : List Packet) : (s.leaveEvents rest).sflast = s.sflast := rfl
@[simp] theorem State.leaveEvents_sfsmooth (s : State) (rest : List Packet) : (s.leaveEvents rest).sfsmooth = s.sfsmooth := rfl
@[simp] theorem State.leaveEvents_inc (s : State) (rest : List Packet) : (s.leaveEvents rest).inc = s.inc := rfl
@[simp] theorem State.leaveEvents_zone (s : State) (rest : List Packet) : (s.leaveEvents rest).zone = s.zone := rfl
@[simp] theorem State.leaveEvents_zcnt (s : State) (rest : List Packet) : (s.leaveEvents rest).zcnt = s.zcnt := rfl
@[simp] theorem State.leaveEvents_blink (s : State) (rest : List Packet) : (s.leaveEvents rest).blink = s.blink := rfl
@[simp] theorem State.leaveEvents_mstate (s : State) (rest : List Packet) : (s.leaveEvents rest).mstate = s.mstate := rfl
@[simp] theorem State.leaveEvents_len (s : State) (rest : List Packet) : (s.leaveEvents rest).len = s.len := rfl
@[simp] theorem State.leaveEvents_lastch (s : State) (rest : List Packet) : (s.leaveEvents rest).lastch = s.lastch := rfl
@[simp] theorem State.leaveEvents_linecnt (s : State) (rest : List Packet) : (s.leaveEvents rest).linecnt = s.linecnt := rfl
@[simp] theorem State.leaveEvents_rxbyte (s : State) (rest : List Packet) : (s.leaveEvents rest).rxbyte = s.rxbyte := rfl
@[simp] theorem State.leaveEvents_rxoerr (s : State) (rest : List Packet) : (s.leaveEvents rest).rxoerr = s.rxoerr := rfl
@[simp] theorem State.leaveEvents_rxferr (s : State) (rest : List Packet) : (s.leaveEvents rest).rxferr = s.rxferr := rfl
@[simp] theorem State.leaveEvents_adcdata (s : State) (rest : List Packet) : (s.leaveEvents rest).adcdata = s.adcdata := rfl
@[simp] theorem State.leaveEvents_rxrstcnt (s : State) (rest : List Packet) : (s.leaveEvents rest).rxrstcnt = s.rxrstcnt := rfl
@[simp] theorem State.leaveEvents_lbuf (s : State) (rest : List Packet) : (s.leaveEvents rest).lbuf = s.lbuf := rfl
@[simp] theorem State.leaveEvents_stack (s : State) (rest : List Packet) : (s.leaveEvents rest).stack = s.stack := rfl
@[simp] theorem State.leaveEvents_rxWaits (s : State) (rest : List Packet) : (s.leaveEvents rest).rxWaits = s.rxWaits := rfl
@[simp] theorem State.leaveEvents_txq (s : State) (rest : List Packet) : (s.leaveEvents rest).txq = s.txq := rfl
@[simp] theorem State.leaveEvents_tmrload (s : State) (rest : List Packet) : (s.leaveEvents rest).tmrload = s.tmrload := rfl
@[simp] theorem State.leaveEvents_press (s : State) (rest : List Packet) : (s.leaveEvents rest).press = s.press := rfl
@[simp] theorem State.leaveEvents_lines (s : State) (rest : List Packet) : (s.leaveEvents rest).lines = s.lines := rfl
@[simp] theorem State.leaveEvents_rxtoggle (s : State) (rest : List Packet) : (s.leaveEvents rest).rxtoggle = s.rxtoggle := rfl
@[simp] theorem State.leaveEvents_txout (s : State) (rest : List Packet) : (s.leaveEvents rest).txout = s.txout := rfl
@[simp] theorem State.leaveEvents_resp (s : State) (rest : List Packet) : (s.leaveEvents rest).resp = s.resp := rfl
@[simp] theorem State.leaveEvents_params (s : State) (rest : List Packet) : (s.leaveEvents rest).params = s.params := rfl
@[simp] theorem State.leaveEvents_cmdPort (s : State) (rest : List Packet) : (s.leaveEvents rest).cmdPort = s.cmdPort := rfl
@[simp] theorem State.leaveEvents_evtPort (s : State) (rest : List Packet) : (s.leaveEvents rest).evtPort = rest := rfl
@[simp] theorem State.leaveEvents_turns (s : State) (rest : List Packet) : (s.leaveEvents rest).turns = s.turns := rfl

/-! ## leaveTurns -/

@[simp] theorem State.leaveTurns_lasterr (s : State) (rest : List Turn) : (s.leaveTurns rest).lasterr = s.lasterr := rfl
@[simp] theorem State.leaveTurns_cfgFault (s : State) (rest : List Turn) : (s.leaveTurns rest).cfgFault = s.cfgFault := rfl
@[simp] theorem State.leaveTurns_adBusy (s : State) (rest : List Turn) : (s.leaveTurns rest).adBusy = s.adBusy := rfl
@[simp] theorem State.leaveTurns_errflags (s : State) (rest : List Turn) : (s.leaveTurns rest).errflags = s.errflags := rfl
@[simp] theorem State.leaveTurns_iflags (s : State) (rest : List Turn) : (s.leaveTurns rest).iflags = s.iflags := rfl
@[simp] theorem State.leaveTurns_ienable (s : State) (rest : List Turn) : (s.leaveTurns rest).ienable = s.ienable := rfl
@[simp] theorem State.leaveTurns_iprio (s : State) (rest : List Turn) : (s.leaveTurns rest).iprio = s.iprio := rfl
@[simp] theorem State.leaveTurns_gieh (s : State) (rest : List Turn) : (s.leaveTurns rest).gieh = s.gieh := rfl
@[simp] theorem State.leaveTurns_giel (s : State) (rest : List Turn) : (s.leaveTurns rest).giel = s.giel := rfl
@[simp] theorem State.leaveTurns_mode (s : State) (rest : List Turn) : (s.leaveTurns rest).mode = s.mode := rfl
@[simp] theorem State.leaveTurns_reload (s : State) (rest : List Turn) : (s.leaveTurns rest).reload = s.reload := rfl
@[simp] theorem State.leaveTurns_relw (s : State) (rest : List Turn) : (s.leaveTurns rest).relw = s.relw := rfl
@[simp] theorem State.leaveTurns_pr (s : State) (rest : List Turn) : (s.leaveTurns rest).pr = s.pr := rfl
@[simp] theorem State.leaveTurns_dch (s : State) (rest : List Turn) : (s.leaveTurns rest).dch = s.dch := rfl
@[simp] theorem State.leaveTurns_dcl (s : State) (rest : List Turn) : (s.leaveTurns rest).dcl = s.dcl := rfl
@[simp] theorem State.leaveTurns_pwps (s : State) (rest : List Turn) : (s.leaveTurns rest).pwps = s.pwps := rfl
@[simp] theorem State.leaveTurns_svang (s : State) (rest : List Turn) : (s.leaveTurns rest).svang = s.svang := rfl
@[simp] theorem State.leaveTurns_out (s : State) (rest : List Turn) : (s.leaveTurns rest).out = s.out := rfl
@[simp] theorem State.leaveTurns_btncnt (s : State) (rest : List Turn) : (s.leaveTurns rest).btncnt = s.btncnt := rfl
@[simp] theorem State.leaveTurns_tmrcnt (s : State) (rest : List Turn) : (s.leaveTurns rest).tmrcnt = s.tmrcnt := rfl
@[simp] theorem State.leaveTurns_dbncfg (s : State) (rest : List Turn) : (s.leaveTurns rest).dbncfg = s.dbncfg := rfl
@[simp] theorem State.leaveTurns_dbncnt (s : State) (rest : List Turn) : (s.leaveTurns rest).dbncnt = s.dbncnt := rfl
@[simp] theorem State.leaveTurns_armed (s : State) (rest : List Turn) : (s.leaveTurns rest).armed = s.armed := rfl
@[simp] theorem State.leaveTurns_sflast (s : State) (rest : List Turn) : (s.leaveTurns rest).sflast = s.sflast := rfl
@[simp] theorem State.leaveTurns_sfsmooth (s : State) (rest : List Turn) : (s.leaveTurns rest).sfsmooth = s.sfsmooth := rfl
@[simp] theorem State.leaveTurns_inc (s : State) (rest : List Turn) : (s.leaveTurns rest).inc = s.inc := rfl
@[simp] theorem State.leaveTurns_zone (s : State) (rest : List Turn) : (s.leaveTurns rest).zone = s.zone := rfl
@[simp] theorem State.leaveTurns_zcnt (s : State) (rest : List Turn) : (s.leaveTurns rest).zcnt = s.zcnt := rfl
@[simp] theorem State.leaveTurns_blink (s : State) (rest : List Turn) : (s.leaveTurns rest).blink = s.blink := rfl
@[simp] theorem State.leaveTurns_mstate (s : State) (rest : List Turn) : (s.leaveTurns rest).mstate = s.mstate := rfl
@[simp] theorem State.leaveTurns_len (s : State) (rest : List Turn) : (s.leaveTurns rest).len = s.len := rfl
@[simp] theorem State.leaveTurns_lastch (s : State) (rest : List Turn) : (s.leaveTurns rest).lastch = s.lastch := rfl
@[simp] theorem State.leaveTurns_linecnt (s : State) (rest : List Turn) : (s.leaveTurns rest).linecnt = s.linecnt := rfl
@[simp] theorem State.leaveTurns_rxbyte (s : State) (rest : List Turn) : (s.leaveTurns rest).rxbyte = s.rxbyte := rfl
@[simp] theorem State.leaveTurns_rxoerr (s : State) (rest : List Turn) : (s.leaveTurns rest).rxoerr = s.rxoerr := rfl
@[simp] theorem State.leaveTurns_rxferr (s : State) (rest : List Turn) : (s.leaveTurns rest).rxferr = s.rxferr := rfl
@[simp] theorem State.leaveTurns_adcdata (s : State) (rest : List Turn) : (s.leaveTurns rest).adcdata = s.adcdata := rfl
@[simp] theorem State.leaveTurns_rxrstcnt (s : State) (rest : List Turn) : (s.leaveTurns rest).rxrstcnt = s.rxrstcnt := rfl
@[simp] theorem State.leaveTurns_lbuf (s : State) (rest : List Turn) : (s.leaveTurns rest).lbuf = s.lbuf := rfl
@[simp] theorem State.leaveTurns_stack (s : State) (rest : List Turn) : (s.leaveTurns rest).stack = s.stack := rfl
@[simp] theorem State.leaveTurns_rxWaits (s : State) (rest : List Turn) : (s.leaveTurns rest).rxWaits = s.rxWaits := rfl
@[simp] theorem State.leaveTurns_txq (s : State) (rest : List Turn) : (s.leaveTurns rest).txq = s.txq := rfl
@[simp] theorem State.leaveTurns_tmrload (s : State) (rest : List Turn) : (s.leaveTurns rest).tmrload = s.tmrload := rfl
@[simp] theorem State.leaveTurns_press (s : State) (rest : List Turn) : (s.leaveTurns rest).press = s.press := rfl
@[simp] theorem State.leaveTurns_lines (s : State) (rest : List Turn) : (s.leaveTurns rest).lines = s.lines := rfl
@[simp] theorem State.leaveTurns_rxtoggle (s : State) (rest : List Turn) : (s.leaveTurns rest).rxtoggle = s.rxtoggle := rfl
@[simp] theorem State.leaveTurns_txout (s : State) (rest : List Turn) : (s.leaveTurns rest).txout = s.txout := rfl
@[simp] theorem State.leaveTurns_resp (s : State) (rest : List Turn) : (s.leaveTurns rest).resp = s.resp := rfl
@[simp] theorem State.leaveTurns_params (s : State) (rest : List Turn) : (s.leaveTurns rest).params = s.params := rfl
@[simp] theorem State.leaveTurns_cmdPort (s : State) (rest : List Turn) : (s.leaveTurns rest).cmdPort = s.cmdPort := rfl
@[simp] theorem State.leaveTurns_evtPort (s : State) (rest : List Turn) : (s.leaveTurns rest).evtPort = s.evtPort := rfl
@[simp] theorem State.leaveTurns_turns (s : State) (rest : List Turn) : (s.leaveTurns rest).turns = rest := rfl

/-! ## openWindow -/

@[simp] theorem State.openWindow_lasterr (s : State) : (s.openWindow).lasterr = s.lasterr := rfl
@[simp] theorem State.openWindow_cfgFault (s : State) : (s.openWindow).cfgFault = s.cfgFault := rfl
@[simp] theorem State.openWindow_adBusy (s : State) : (s.openWindow).adBusy = s.adBusy := rfl
@[simp] theorem State.openWindow_errflags (s : State) : (s.openWindow).errflags = s.errflags := rfl
@[simp] theorem State.openWindow_iflags (s : State) : (s.openWindow).iflags = s.iflags := rfl
@[simp] theorem State.openWindow_ienable (s : State) : (s.openWindow).ienable = s.ienable := rfl
@[simp] theorem State.openWindow_iprio (s : State) : (s.openWindow).iprio = s.iprio := rfl
@[simp] theorem State.openWindow_gieh (s : State) : (s.openWindow).gieh = s.gieh := rfl
@[simp] theorem State.openWindow_giel (s : State) : (s.openWindow).giel = s.giel := rfl
@[simp] theorem State.openWindow_mode (s : State) : (s.openWindow).mode = s.mode := rfl
@[simp] theorem State.openWindow_reload (s : State) : (s.openWindow).reload = s.reload := rfl
@[simp] theorem State.openWindow_relw (s : State) : (s.openWindow).relw = s.relw := rfl
@[simp] theorem State.openWindow_pr (s : State) : (s.openWindow).pr = s.pr := rfl
@[simp] theorem State.openWindow_dch (s : State) : (s.openWindow).dch = s.dch := rfl
@[simp] theorem State.openWindow_dcl (s : State) : (s.openWindow).dcl = s.dcl := rfl
@[simp] theorem State.openWindow_pwps (s : State) : (s.openWindow).pwps = s.pwps := rfl
@[simp] theorem State.openWindow_svang (s : State) : (s.openWindow).svang = s.svang := rfl
@[simp] theorem State.openWindow_out (s : State) : (s.openWindow).out = s.out := rfl
@[simp] theorem State.openWindow_btncnt (s : State) : (s.openWindow).btncnt = s.btncnt := rfl
@[simp] theorem State.openWindow_tmrcnt (s : State) : (s.openWindow).tmrcnt = s.tmrcnt := rfl
@[simp] theorem State.openWindow_dbncfg (s : State) : (s.openWindow).dbncfg = s.dbncfg := rfl
@[simp] theorem State.openWindow_dbncnt (s : State) : (s.openWindow).dbncnt = s.dbncfg := rfl
@[simp] theorem State.openWindow_armed (s : State) : (s.openWindow).armed = true := rfl
@[simp] theorem State.openWindow_sflast (s : State) : (s.openWindow).sflast = s.sflast := rfl
@[simp] theorem State.openWindow_sfsmooth (s : State) : (s.openWindow).sfsmooth = s.sfsmooth := rfl
@[simp] theorem State.openWindow_inc (s : State) : (s.openWindow).inc = s.inc := rfl
@[simp] theorem State.openWindow_zone (s : State) : (s.openWindow).zone = s.zone := rfl
@[simp] theorem State.openWindow_zcnt (s : State) : (s.openWindow).zcnt = s.zcnt := rfl
@[simp] theorem State.openWindow_blink (s : State) : (s.openWindow).blink = s.blink := rfl
@[simp] theorem State.openWindow_mstate (s : State) : (s.openWindow).mstate = s.mstate := rfl
@[simp] theorem State.openWindow_len (s : State) : (s.openWindow).len = s.len := rfl
@[simp] theorem State.openWindow_lastch (s : State) : (s.openWindow).lastch = s.lastch := rfl
@[simp] theorem State.openWindow_linecnt (s : State) : (s.openWindow).linecnt = s.linecnt := rfl
@[simp] theorem State.openWindow_rxbyte (s : State) : (s.openWindow).rxbyte = s.rxbyte := rfl
@[simp] theorem State.openWindow_rxoerr (s : State) : (s.openWindow).rxoerr = s.rxoerr := rfl
@[simp] theorem State.openWindow_rxferr (s : State) : (s.openWindow).rxferr = s.rxferr := rfl
@[simp] theorem State.openWindow_adcdata (s : State) : (s.openWindow).adcdata = s.adcdata := rfl
@[simp] theorem State.openWindow_rxrstcnt (s : State) : (s.openWindow).rxrstcnt = s.rxrstcnt := rfl
@[simp] theorem State.openWindow_lbuf (s : State) : (s.openWindow).lbuf = s.lbuf := rfl
@[simp] theorem State.openWindow_stack (s : State) : (s.openWindow).stack = s.stack := rfl
@[simp] theorem State.openWindow_rxWaits (s : State) : (s.openWindow).rxWaits = s.rxWaits := rfl
@[simp] theorem State.openWindow_txq (s : State) : (s.openWindow).txq = s.txq := rfl
@[simp] theorem State.openWindow_tmrload (s : State) : (s.openWindow).tmrload = s.tmrload := rfl
@[simp] theorem State.openWindow_press (s : State) : (s.openWindow).press = s.press := rfl
@[simp] theorem State.openWindow_lines (s : State) : (s.openWindow).lines = s.lines := rfl
@[simp] theorem State.openWindow_rxtoggle (s : State) : (s.openWindow).rxtoggle = s.rxtoggle := rfl
@[simp] theorem State.openWindow_txout (s : State) : (s.openWindow).txout = s.txout := rfl
@[simp] theorem State.openWindow_resp (s : State) : (s.openWindow).resp = s.resp := rfl
@[simp] theorem State.openWindow_params (s : State) : (s.openWindow).params = s.params := rfl
@[simp] theorem State.openWindow_cmdPort (s : State) : (s.openWindow).cmdPort = s.cmdPort := rfl
@[simp] theorem State.openWindow_evtPort (s : State) : (s.openWindow).evtPort = s.evtPort := rfl
@[simp] theorem State.openWindow_turns (s : State) : (s.openWindow).turns = s.turns := rfl

/-! ## closeWindow -/

@[simp] theorem State.closeWindow_lasterr (s : State) : (s.closeWindow).lasterr = s.lasterr := rfl
@[simp] theorem State.closeWindow_cfgFault (s : State) : (s.closeWindow).cfgFault = s.cfgFault := rfl
@[simp] theorem State.closeWindow_adBusy (s : State) : (s.closeWindow).adBusy = s.adBusy := rfl
@[simp] theorem State.closeWindow_errflags (s : State) : (s.closeWindow).errflags = s.errflags := rfl
@[simp] theorem State.closeWindow_iflags (s : State) : (s.closeWindow).iflags = s.iflags := rfl
@[simp] theorem State.closeWindow_ienable (s : State) : (s.closeWindow).ienable = s.ienable := rfl
@[simp] theorem State.closeWindow_iprio (s : State) : (s.closeWindow).iprio = s.iprio := rfl
@[simp] theorem State.closeWindow_gieh (s : State) : (s.closeWindow).gieh = s.gieh := rfl
@[simp] theorem State.closeWindow_giel (s : State) : (s.closeWindow).giel = s.giel := rfl
@[simp] theorem State.closeWindow_mode (s : State) : (s.closeWindow).mode = s.mode := rfl
@[simp] theorem State.closeWindow_reload (s : State) : (s.closeWindow).reload = s.reload := rfl
@[simp] theorem State.closeWindow_relw (s : State) : (s.closeWindow).relw = s.relw := rfl
@[simp] theorem State.closeWindow_pr (s : State) : (s.closeWindow).pr = s.pr := rfl
@[simp] theorem State.closeWindow_dch (s : State) : (s.closeWindow).dch = s.dch := rfl
@[simp] theorem State.closeWindow_dcl (s : State) : (s.closeWindow).dcl = s.dcl := rfl
@[simp] theorem State.closeWindow_pwps (s : State) : (s.closeWindow).pwps = s.pwps := rfl
@[simp] theorem State.closeWindow_svang (s : State) : (s.closeWindow).svang = s.svang := rfl
@[simp] theorem State.closeWindow_out (s : State) : (s.closeWindow).out = s.out := rfl
@[simp] theorem State.closeWindow_btncnt (s : State) : (s.closeWindow).btncnt = s.btncnt := rfl
@[simp] theorem State.closeWindow_tmrcnt (s : State) : (s.closeWindow).tmrcnt = s.tmrcnt := rfl
@[simp] theorem State.closeWindow_dbncfg (s : State) : (s.closeWindow).dbncfg = s.dbncfg := rfl
@[simp] theorem State.closeWindow_dbncnt (s : State) : (s.closeWindow).dbncnt = 0 := rfl
@[simp] theorem State.closeWindow_armed (s : State) : (s.closeWindow).armed = false := rfl
@[simp] theorem State.closeWindow_sflast (s : State) : (s.closeWindow).sflast = s.sflast := rfl
@[simp] theorem State.closeWindow_sfsmooth (s : State) : (s.closeWindow).sfsmooth = s.sfsmooth := rfl
@[simp] theorem State.closeWindow_inc (s : State) : (s.closeWindow).inc = s.inc := rfl
@[simp] theorem State.closeWindow_zone (s : State) : (s.closeWindow).zone = s.zone := rfl
@[simp] theorem State.closeWindow_zcnt (s : State) : (s.closeWindow).zcnt = s.zcnt := rfl
@[simp] theorem State.closeWindow_blink (s : State) : (s.closeWindow).blink = s.blink := rfl
@[simp] theorem State.closeWindow_mstate (s : State) : (s.closeWindow).mstate = s.mstate := rfl
@[simp] theorem State.closeWindow_len (s : State) : (s.closeWindow).len = s.len := rfl
@[simp] theorem State.closeWindow_lastch (s : State) : (s.closeWindow).lastch = s.lastch := rfl
@[simp] theorem State.closeWindow_linecnt (s : State) : (s.closeWindow).linecnt = s.linecnt := rfl
@[simp] theorem State.closeWindow_rxbyte (s : State) : (s.closeWindow).rxbyte = s.rxbyte := rfl
@[simp] theorem State.closeWindow_rxoerr (s : State) : (s.closeWindow).rxoerr = s.rxoerr := rfl
@[simp] theorem State.closeWindow_rxferr (s : State) : (s.closeWindow).rxferr = s.rxferr := rfl
@[simp] theorem State.closeWindow_adcdata (s : State) : (s.closeWindow).adcdata = s.adcdata := rfl
@[simp] theorem State.closeWindow_rxrstcnt (s : State) : (s.closeWindow).rxrstcnt = s.rxrstcnt := rfl
@[simp] theorem State.closeWindow_lbuf (s : State) : (s.closeWindow).lbuf = s.lbuf := rfl
@[simp] theorem State.closeWindow_stack (s : State) : (s.closeWindow).stack = s.stack := rfl
@[simp] theorem State.closeWindow_rxWaits (s : State) : (s.closeWindow).rxWaits = s.rxWaits := rfl
@[simp] theorem State.closeWindow_txq (s : State) : (s.closeWindow).txq = s.txq := rfl
@[simp] theorem State.closeWindow_tmrload (s : State) : (s.closeWindow).tmrload = s.tmrload := rfl
@[simp] theorem State.closeWindow_press (s : State) : (s.closeWindow).press = s.press := rfl
@[simp] theorem State.closeWindow_lines (s : State) : (s.closeWindow).lines = s.lines := rfl
@[simp] theorem State.closeWindow_rxtoggle (s : State) : (s.closeWindow).rxtoggle = s.rxtoggle := rfl
@[simp] theorem State.closeWindow_txout (s : State) : (s.closeWindow).txout = s.txout := rfl
@[simp] theorem State.closeWindow_resp (s : State) : (s.closeWindow).resp = s.resp := rfl
@[simp] theorem State.closeWindow_params (s : State) : (s.closeWindow).params = s.params := rfl
@[simp] theorem State.closeWindow_cmdPort (s : State) : (s.closeWindow).cmdPort = s.cmdPort := rfl
@[simp] theorem State.closeWindow_evtPort (s : State) : (s.closeWindow).evtPort = s.evtPort := rfl
@[simp] theorem State.closeWindow_turns (s : State) : (s.closeWindow).turns = s.turns := rfl

/-! ## shortenWindow -/

@[simp] theorem State.shortenWindow_lasterr (s : State) : (s.shortenWindow).lasterr = s.lasterr := rfl
@[simp] theorem State.shortenWindow_cfgFault (s : State) : (s.shortenWindow).cfgFault = s.cfgFault := rfl
@[simp] theorem State.shortenWindow_adBusy (s : State) : (s.shortenWindow).adBusy = s.adBusy := rfl
@[simp] theorem State.shortenWindow_errflags (s : State) : (s.shortenWindow).errflags = s.errflags := rfl
@[simp] theorem State.shortenWindow_iflags (s : State) : (s.shortenWindow).iflags = s.iflags := rfl
@[simp] theorem State.shortenWindow_ienable (s : State) : (s.shortenWindow).ienable = s.ienable := rfl
@[simp] theorem State.shortenWindow_iprio (s : State) : (s.shortenWindow).iprio = s.iprio := rfl
@[simp] theorem State.shortenWindow_gieh (s : State) : (s.shortenWindow).gieh = s.gieh := rfl
@[simp] theorem State.shortenWindow_giel (s : State) : (s.shortenWindow).giel = s.giel := rfl
@[simp] theorem State.shortenWindow_mode (s : State) : (s.shortenWindow).mode = s.mode := rfl
@[simp] theorem State.shortenWindow_reload (s : State) : (s.shortenWindow).reload = s.reload := rfl
@[simp] theorem State.shortenWindow_relw (s : State) : (s.shortenWindow).relw = s.relw := rfl
@[simp] theorem State.shortenWindow_pr (s : State) : (s.shortenWindow).pr = s.pr := rfl
@[simp] theorem State.shortenWindow_dch (s : State) : (s.shortenWindow).dch = s.dch := rfl
@[simp] theorem State.shortenWindow_dcl (s : State) : (s.shortenWindow).dcl = s.dcl := rfl
@[simp] theorem State.shortenWindow_pwps (s : State) : (s.shortenWindow).pwps = s.pwps := rfl
@[simp] theorem State.shortenWindow_svang (s : State) : (s.shortenWindow).svang = s.svang := rfl
@[simp] theorem State.shortenWindow_out (s : State) : (s.shortenWindow).out = s.out := rfl
@[simp] theorem State.shortenWindow_btncnt (s : State) : (s.shortenWindow).btncnt = s.btncnt := rfl
@[simp] theorem State.shortenWindow_tmrcnt (s : State) : (s.shortenWindow).tmrcnt = s.tmrcnt := rfl
@[simp] theorem State.shortenWindow_dbncfg (s : State) : (s.shortenWindow).dbncfg = s.dbncfg := rfl
@[simp] theorem State.shortenWindow_dbncnt (s : State) : (s.shortenWindow).dbncnt = s.dbncnt - 1 := rfl
@[simp] theorem State.shortenWindow_armed (s : State) : (s.shortenWindow).armed = s.armed := rfl
@[simp] theorem State.shortenWindow_sflast (s : State) : (s.shortenWindow).sflast = s.sflast := rfl
@[simp] theorem State.shortenWindow_sfsmooth (s : State) : (s.shortenWindow).sfsmooth = s.sfsmooth := rfl
@[simp] theorem State.shortenWindow_inc (s : State) : (s.shortenWindow).inc = s.inc := rfl
@[simp] theorem State.shortenWindow_zone (s : State) : (s.shortenWindow).zone = s.zone := rfl
@[simp] theorem State.shortenWindow_zcnt (s : State) : (s.shortenWindow).zcnt = s.zcnt := rfl
@[simp] theorem State.shortenWindow_blink (s : State) : (s.shortenWindow).blink = s.blink := rfl
@[simp] theorem State.shortenWindow_mstate (s : State) : (s.shortenWindow).mstate = s.mstate := rfl
@[simp] theorem State.shortenWindow_len (s : State) : (s.shortenWindow).len = s.len := rfl
@[simp] theorem State.shortenWindow_lastch (s : State) : (s.shortenWindow).lastch = s.lastch := rfl
@[simp] theorem State.shortenWindow_linecnt (s : State) : (s.shortenWindow).linecnt = s.linecnt := rfl
@[simp] theorem State.shortenWindow_rxbyte (s : State) : (s.shortenWindow).rxbyte = s.rxbyte := rfl
@[simp] theorem State.shortenWindow_rxoerr (s : State) : (s.shortenWindow).rxoerr = s.rxoerr := rfl
@[simp] theorem State.shortenWindow_rxferr (s : State) : (s.shortenWindow).rxferr = s.rxferr := rfl
@[simp] theorem State.shortenWindow_adcdata (s : State) : (s.shortenWindow).adcdata = s.adcdata := rfl
@[simp] theorem State.shortenWindow_rxrstcnt (s : State) : (s.shortenWindow).rxrstcnt = s.rxrstcnt := rfl
@[simp] theorem State.shortenWindow_lbuf (s : State) : (s.shortenWindow).lbuf = s.lbuf := rfl
@[simp] theorem State.shortenWindow_stack (s : State) : (s.shortenWindow).stack = s.stack := rfl
@[simp] theorem State.shortenWindow_rxWaits (s : State) : (s.shortenWindow).rxWaits = s.rxWaits := rfl
@[simp] theorem State.shortenWindow_txq (s : State) : (s.shortenWindow).txq = s.txq := rfl
@[simp] theorem State.shortenWindow_tmrload (s : State) : (s.shortenWindow).tmrload = s.tmrload := rfl
@[simp] theorem State.shortenWindow_press (s : State) : (s.shortenWindow).press = s.press := rfl
@[simp] theorem State.shortenWindow_lines (s : State) : (s.shortenWindow).lines = s.lines := rfl
@[simp] theorem State.shortenWindow_rxtoggle (s : State) : (s.shortenWindow).rxtoggle = s.rxtoggle := rfl
@[simp] theorem State.shortenWindow_txout (s : State) : (s.shortenWindow).txout = s.txout := rfl
@[simp] theorem State.shortenWindow_resp (s : State) : (s.shortenWindow).resp = s.resp := rfl
@[simp] theorem State.shortenWindow_params (s : State) : (s.shortenWindow).params = s.params := rfl
@[simp] theorem State.shortenWindow_cmdPort (s : State) : (s.shortenWindow).cmdPort = s.cmdPort := rfl
@[simp] theorem State.shortenWindow_evtPort (s : State) : (s.shortenWindow).evtPort = s.evtPort := rfl
@[simp] theorem State.shortenWindow_turns (s : State) : (s.shortenWindow).turns = s.turns := rfl

/-! ## loadTimer -/

@[simp] theorem State.loadTimer_lasterr (s : State) : (s.loadTimer).lasterr = s.lasterr := rfl
@[simp] theorem State.loadTimer_cfgFault (s : State) : (s.loadTimer).cfgFault = s.cfgFault := rfl
@[simp] theorem State.loadTimer_adBusy (s : State) : (s.loadTimer).adBusy = s.adBusy := rfl
@[simp] theorem State.loadTimer_errflags (s : State) : (s.loadTimer).errflags = s.errflags := rfl
@[simp] theorem State.loadTimer_iflags (s : State) : (s.loadTimer).iflags = s.iflags := rfl
@[simp] theorem State.loadTimer_ienable (s : State) : (s.loadTimer).ienable = s.ienable := rfl
@[simp] theorem State.loadTimer_iprio (s : State) : (s.loadTimer).iprio = s.iprio := rfl
@[simp] theorem State.loadTimer_gieh (s : State) : (s.loadTimer).gieh = s.gieh := rfl
@[simp] theorem State.loadTimer_giel (s : State) : (s.loadTimer).giel = s.giel := rfl
@[simp] theorem State.loadTimer_mode (s : State) : (s.loadTimer).mode = s.mode := rfl
@[simp] theorem State.loadTimer_reload (s : State) : (s.loadTimer).reload = s.reload := rfl
@[simp] theorem State.loadTimer_relw (s : State) : (s.loadTimer).relw = s.relw := rfl
@[simp] theorem State.loadTimer_pr (s : State) : (s.loadTimer).pr = s.pr := rfl
@[simp] theorem State.loadTimer_dch (s : State) : (s.loadTimer).dch = s.dch := rfl
@[simp] theorem State.loadTimer_dcl (s : State) : (s.loadTimer).dcl = s.dcl := rfl
@[simp] theorem State.loadTimer_pwps (s : State) : (s.loadTimer).pwps = s.pwps := rfl
@[simp] theorem State.loadTimer_svang (s : State) : (s.loadTimer).svang = s.svang := rfl
@[simp] theorem State.loadTimer_out (s : State) : (s.loadTimer).out = s.out := rfl
@[simp] theorem State.loadTimer_btncnt (s : State) : (s.loadTimer).btncnt = s.btncnt := rfl
@[simp] theorem State.loadTimer_tmrcnt (s : State) : (s.loadTimer).tmrcnt = s.tmrcnt + 1 := rfl
@[simp] theorem State.loadTimer_dbncfg (s : State) : (s.loadTimer).dbncfg = s.dbncfg := rfl
@[simp] theorem State.loadTimer_dbncnt (s : State) : (s.loadTimer).dbncnt = s.dbncnt := rfl
@[simp] theorem State.loadTimer_armed (s : State) : (s.loadTimer).armed = s.armed := rfl
@[simp] theorem State.loadTimer_sflast (s : State) : (s.loadTimer).sflast = s.sflast := rfl
@[simp] theorem State.loadTimer_sfsmooth (s : State) : (s.loadTimer).sfsmooth = s.sfsmooth := rfl
@[simp] theorem State.loadTimer_inc (s : State) : (s.loadTimer).inc = s.inc := rfl
@[simp] theorem State.loadTimer_zone (s : State) : (s.loadTimer).zone = s.zone := rfl
@[simp] theorem State.loadTimer_zcnt (s : State) : (s.loadTimer).zcnt = s.zcnt := rfl
@[simp] theorem State.loadTimer_blink (s : State) : (s.loadTimer).blink = s.blink := rfl
@[simp] theorem State.loadTimer_mstate (s : State) : (s.loadTimer).mstate = s.mstate := rfl
@[simp] theorem State.loadTimer_len (s : State) : (s.loadTimer).len = s.len := rfl
@[simp] theorem State.loadTimer_lastch (s : State) : (s.loadTimer).lastch = s.lastch := rfl
@[simp] theorem State.loadTimer_linecnt (s : State) : (s.loadTimer).linecnt = s.linecnt := rfl
@[simp] theorem State.loadTimer_rxbyte (s : State) : (s.loadTimer).rxbyte = s.rxbyte := rfl
@[simp] theorem State.loadTimer_rxoerr (s : State) : (s.loadTimer).rxoerr = s.rxoerr := rfl
@[simp] theorem State.loadTimer_rxferr (s : State) : (s.loadTimer).rxferr = s.rxferr := rfl
@[simp] theorem State.loadTimer_adcdata (s : State) : (s.loadTimer).adcdata = s.adcdata := rfl
@[simp] theorem State.loadTimer_rxrstcnt (s : State) : (s.loadTimer).rxrstcnt = s.rxrstcnt := rfl
@[simp] theorem State.loadTimer_lbuf (s : State) : (s.loadTimer).lbuf = s.lbuf := rfl
@[simp] theorem State.loadTimer_stack (s : State) : (s.loadTimer).stack = s.stack := rfl
@[simp] theorem State.loadTimer_rxWaits (s : State) : (s.loadTimer).rxWaits = s.rxWaits := rfl
@[simp] theorem State.loadTimer_txq (s : State) : (s.loadTimer).txq = s.txq := rfl
@[simp] theorem State.loadTimer_tmrload (s : State) : (s.loadTimer).tmrload = s.tmrload ++ [(s.reload, s.relw)] := rfl
@[simp] theorem State.loadTimer_press (s : State) : (s.loadTimer).press = s.press := rfl
@[simp] theorem State.loadTimer_lines (s : State) : (s.loadTimer).lines = s.lines := rfl
@[simp] theorem State.loadTimer_rxtoggle (s : State) : (s.loadTimer).rxtoggle = s.rxtoggle := rfl
@[simp] theorem State.loadTimer_txout (s : State) : (s.loadTimer).txout = s.txout := rfl
@[simp] theorem State.loadTimer_resp (s : State) : (s.loadTimer).resp = s.resp := rfl
@[simp] theorem State.loadTimer_params (s : State) : (s.loadTimer).params = s.params := rfl
@[simp] theorem State.loadTimer_cmdPort (s : State) : (s.loadTimer).cmdPort = s.cmdPort := rfl
@[simp] theorem State.loadTimer_evtPort (s : State) : (s.loadTimer).evtPort = s.evtPort := rfl
@[simp] theorem State.loadTimer_turns (s : State) : (s.loadTimer).turns = s.turns := rfl

/-! ## startConversion -/

@[simp] theorem State.startConversion_lasterr (s : State) : (s.startConversion).lasterr = s.lasterr := rfl
@[simp] theorem State.startConversion_cfgFault (s : State) : (s.startConversion).cfgFault = s.cfgFault := rfl
@[simp] theorem State.startConversion_adBusy (s : State) : (s.startConversion).adBusy = true := rfl
@[simp] theorem State.startConversion_errflags (s : State) : (s.startConversion).errflags = s.errflags := rfl
@[simp] theorem State.startConversion_iflags (s : State) : (s.startConversion).iflags = s.iflags := rfl
@[simp] theorem State.startConversion_ienable (s : State) : (s.startConversion).ienable = s.ienable := rfl
@[simp] theorem State.startConversion_iprio (s : State) : (s.startConversion).iprio = s.iprio := rfl
@[simp] theorem State.startConversion_gieh (s : State) : (s.startConversion).gieh = s.gieh := rfl
@[simp] theorem State.startConversion_giel (s : State) : (s.startConversion).giel = s.giel := rfl
@[simp] theorem State.startConversion_mode (s : State) : (s.startConversion).mode = s.mode := rfl
@[simp] theorem State.startConversion_reload (s : State) : (s.startConversion).reload = s.reload := rfl
@[simp] theorem State.startConversion_relw (s : State) : (s.startConversion).relw = s.relw := rfl
@[simp] theorem State.startConversion_pr (s : State) : (s.startConversion).pr = s.pr := rfl
@[simp] theorem State.startConversion_dch (s : State) : (s.startConversion).dch = s.dch := rfl
@[simp] theorem State.startConversion_dcl (s : State) : (s.startConversion).dcl = s.dcl := rfl
@[simp] theorem State.startConversion_pwps (s : State) : (s.startConversion).pwps = s.pwps := rfl
@[simp] theorem State.startConversion_svang (s : State) : (s.startConversion).svang = s.svang := rfl
@[simp] theorem State.startConversion_out (s : State) : (s.startConversion).out = s.out := rfl
@[simp] theorem State.startConversion_btncnt (s : State) : (s.startConversion).btncnt = s.btncnt := rfl
@[simp] theorem State.startConversion_tmrcnt (s : State) : (s.startConversion).tmrcnt = s.tmrcnt := rfl
@[simp] theorem State.startConversion_dbncfg (s : State) : (s.startConversion).dbncfg = s.dbncfg := rfl
@[simp] theorem State.startConversion_dbncnt (s : State) : (s.startConversion).dbncnt = s.dbncnt := rfl
@[simp] theorem State.startConversion_armed (s : State) : (s.startConversion).armed = s.armed := rfl
@[simp] theorem State.startConversion_sflast (s : State) : (s.startConversion).sflast = s.sflast := rfl
@[simp] theorem State.startConversion_sfsmooth (s : State) : (s.startConversion).sfsmooth = s.sfsmooth := rfl
@[simp] theorem State.startConversion_inc (s : State) : (s.startConversion).inc = s.inc := rfl
@[simp] theorem State.startConversion_zone (s : State) : (s.startConversion).zone = s.zone := rfl
@[simp] theorem State.startConversion_zcnt (s : State) : (s.startConversion).zcnt = s.zcnt := rfl
@[simp] theorem State.startConversion_blink (s : State) : (s.startConversion).blink = s.blink := rfl
@[simp] theorem State.startConversion_mstate (s : State) : (s.startConversion).mstate = s.mstate := rfl
@[simp] theorem State.startConversion_len (s : State) : (s.startConversion).len = s.len := rfl
@[simp] theorem State.startConversion_lastch (s : State) : (s.startConversion).lastch = s.lastch := rfl
@[simp] theorem State.startConversion_linecnt (s : State) : (s.startConversion).linecnt = s.linecnt := rfl
@[simp] theorem State.startConversion_rxbyte (s : State) : (s.startConversion).rxbyte = s.rxbyte := rfl
@[simp] theorem State.startConversion_rxoerr (s : State) : (s.startConversion).rxoerr = s.rxoerr := rfl
@[simp] theorem State.startConversion_rxferr (s : State) : (s.startConversion).rxferr = s.rxferr := rfl
@[simp] theorem State.startConversion_adcdata (s : State) : (s.startConversion).adcdata = s.adcdata := rfl
@[simp] theorem State.startConversion_rxrstcnt (s : State) : (s.startConversion).rxrstcnt = s.rxrstcnt := rfl
@[simp] theorem State.startConversion_lbuf (s : State) : (s.startConversion).lbuf = s.lbuf := rfl
@[simp] theorem State.startConversion_stack (s : State) : (s.startConversion).stack = s.stack := rfl
@[simp] theorem State.startConversion_rxWaits (s : State) : (s.startConversion).rxWaits = s.rxWaits := rfl
@[simp] theorem State.startConversion_txq (s : State) : (s.startConversion).txq = s.txq := rfl
@[simp] theorem State.startConversion_tmrload (s : State) : (s.startConversion).tmrload = s.tmrload := rfl
@[simp] theorem State.startConversion_press (s : State) : (s.startConversion).press = s.press := rfl
@[simp] theorem State.startConversion_lines (s : State) : (s.startConversion).lines = s.lines := rfl
@[simp] theorem State.startConversion_rxtoggle (s : State) : (s.startConversion).rxtoggle = s.rxtoggle := rfl
@[simp] theorem State.startConversion_txout (s : State) : (s.startConversion).txout = s.txout := rfl
@[simp] theorem State.startConversion_resp (s : State) : (s.startConversion).resp = s.resp := rfl
@[simp] theorem State.startConversion_params (s : State) : (s.startConversion).params = s.params := rfl
@[simp] theorem State.startConversion_cmdPort (s : State) : (s.startConversion).cmdPort = s.cmdPort := rfl
@[simp] theorem State.startConversion_evtPort (s : State) : (s.startConversion).evtPort = s.evtPort := rfl
@[simp] theorem State.startConversion_turns (s : State) : (s.startConversion).turns = s.turns := rfl

/-! ## latchSample -/

@[simp] theorem State.latchSample_lasterr (s : State) (x : BitVec 10) : (s.latchSample x).lasterr = s.lasterr := rfl
@[simp] theorem State.latchSample_cfgFault (s : State) (x : BitVec 10) : (s.latchSample x).cfgFault = s.cfgFault := rfl
@[simp] theorem State.latchSample_adBusy (s : State) (x : BitVec 10) : (s.latchSample x).adBusy = false := rfl
@[simp] theorem State.latchSample_errflags (s : State) (x : BitVec 10) : (s.latchSample x).errflags = s.errflags := rfl
@[simp] theorem State.latchSample_iflags (s : State) (x : BitVec 10) : (s.latchSample x).iflags = s.iflags := rfl
@[simp] theorem State.latchSample_ienable (s : State) (x : BitVec 10) : (s.latchSample x).ienable = s.ienable := rfl
@[simp] theorem State.latchSample_iprio (s : State) (x : BitVec 10) : (s.latchSample x).iprio = s.iprio := rfl
@[simp] theorem State.latchSample_gieh (s : State) (x : BitVec 10) : (s.latchSample x).gieh = s.gieh := rfl
@[simp] theorem State.latchSample_giel (s : State) (x : BitVec 10) : (s.latchSample x).giel = s.giel := rfl
@[simp] theorem State.latchSample_mode (s : State) (x : BitVec 10) : (s.latchSample x).mode = s.mode := rfl
@[simp] theorem State.latchSample_reload (s : State) (x : BitVec 10) : (s.latchSample x).reload = s.reload := rfl
@[simp] theorem State.latchSample_relw (s : State) (x : BitVec 10) : (s.latchSample x).relw = s.relw := rfl
@[simp] theorem State.latchSample_pr (s : State) (x : BitVec 10) : (s.latchSample x).pr = s.pr := rfl
@[simp] theorem State.latchSample_dch (s : State) (x : BitVec 10) : (s.latchSample x).dch = s.dch := rfl
@[simp] theorem State.latchSample_dcl (s : State) (x : BitVec 10) : (s.latchSample x).dcl = s.dcl := rfl
@[simp] theorem State.latchSample_pwps (s : State) (x : BitVec 10) : (s.latchSample x).pwps = s.pwps := rfl
@[simp] theorem State.latchSample_svang (s : State) (x : BitVec 10) : (s.latchSample x).svang = s.svang := rfl
@[simp] theorem State.latchSample_out (s : State) (x : BitVec 10) : (s.latchSample x).out = s.out := rfl
@[simp] theorem State.latchSample_btncnt (s : State) (x : BitVec 10) : (s.latchSample x).btncnt = s.btncnt := rfl
@[simp] theorem State.latchSample_tmrcnt (s : State) (x : BitVec 10) : (s.latchSample x).tmrcnt = s.tmrcnt := rfl
@[simp] theorem State.latchSample_dbncfg (s : State) (x : BitVec 10) : (s.latchSample x).dbncfg = s.dbncfg := rfl
@[simp] theorem State.latchSample_dbncnt (s : State) (x : BitVec 10) : (s.latchSample x).dbncnt = s.dbncnt := rfl
@[simp] theorem State.latchSample_armed (s : State) (x : BitVec 10) : (s.latchSample x).armed = s.armed := rfl
@[simp] theorem State.latchSample_sflast (s : State) (x : BitVec 10) : (s.latchSample x).sflast = s.sflast := rfl
@[simp] theorem State.latchSample_sfsmooth (s : State) (x : BitVec 10) : (s.latchSample x).sfsmooth = s.sfsmooth := rfl
@[simp] theorem State.latchSample_inc (s : State) (x : BitVec 10) : (s.latchSample x).inc = s.inc := rfl
@[simp] theorem State.latchSample_zone (s : State) (x : BitVec 10) : (s.latchSample x).zone = s.zone := rfl
@[simp] theorem State.latchSample_zcnt (s : State) (x : BitVec 10) : (s.latchSample x).zcnt = s.zcnt := rfl
@[simp] theorem State.latchSample_blink (s : State) (x : BitVec 10) : (s.latchSample x).blink = s.blink := rfl
@[simp] theorem State.latchSample_mstate (s : State) (x : BitVec 10) : (s.latchSample x).mstate = s.mstate := rfl
@[simp] theorem State.latchSample_len (s : State) (x : BitVec 10) : (s.latchSample x).len = s.len := rfl
@[simp] theorem State.latchSample_lastch (s : State) (x : BitVec 10) : (s.latchSample x).lastch = s.lastch := rfl
@[simp] theorem State.latchSample_linecnt (s : State) (x : BitVec 10) : (s.latchSample x).linecnt = s.linecnt := rfl
@[simp] theorem State.latchSample_rxbyte (s : State) (x : BitVec 10) : (s.latchSample x).rxbyte = s.rxbyte := rfl
@[simp] theorem State.latchSample_rxoerr (s : State) (x : BitVec 10) : (s.latchSample x).rxoerr = s.rxoerr := rfl
@[simp] theorem State.latchSample_rxferr (s : State) (x : BitVec 10) : (s.latchSample x).rxferr = s.rxferr := rfl
@[simp] theorem State.latchSample_adcdata (s : State) (x : BitVec 10) : (s.latchSample x).adcdata = x := rfl
@[simp] theorem State.latchSample_rxrstcnt (s : State) (x : BitVec 10) : (s.latchSample x).rxrstcnt = s.rxrstcnt := rfl
@[simp] theorem State.latchSample_lbuf (s : State) (x : BitVec 10) : (s.latchSample x).lbuf = s.lbuf := rfl
@[simp] theorem State.latchSample_stack (s : State) (x : BitVec 10) : (s.latchSample x).stack = s.stack := rfl
@[simp] theorem State.latchSample_rxWaits (s : State) (x : BitVec 10) : (s.latchSample x).rxWaits = s.rxWaits := rfl
@[simp] theorem State.latchSample_txq (s : State) (x : BitVec 10) : (s.latchSample x).txq = s.txq := rfl
@[simp] theorem State.latchSample_tmrload (s : State) (x : BitVec 10) : (s.latchSample x).tmrload = s.tmrload := rfl
@[simp] theorem State.latchSample_press (s : State) (x : BitVec 10) : (s.latchSample x).press = s.press := rfl
@[simp] theorem State.latchSample_lines (s : State) (x : BitVec 10) : (s.latchSample x).lines = s.lines := rfl
@[simp] theorem State.latchSample_rxtoggle (s : State) (x : BitVec 10) : (s.latchSample x).rxtoggle = s.rxtoggle := rfl
@[simp] theorem State.latchSample_txout (s : State) (x : BitVec 10) : (s.latchSample x).txout = s.txout := rfl
@[simp] theorem State.latchSample_resp (s : State) (x : BitVec 10) : (s.latchSample x).resp = s.resp := rfl
@[simp] theorem State.latchSample_params (s : State) (x : BitVec 10) : (s.latchSample x).params = s.params := rfl
@[simp] theorem State.latchSample_cmdPort (s : State) (x : BitVec 10) : (s.latchSample x).cmdPort = s.cmdPort := rfl
@[simp] theorem State.latchSample_evtPort (s : State) (x : BitVec 10) : (s.latchSample x).evtPort = s.evtPort := rfl
@[simp] theorem State.latchSample_turns (s : State) (x : BitVec 10) : (s.latchSample x).turns = s.turns := rfl

/-! ## setInc -/

@[simp] theorem State.setInc_lasterr (s : State) (inc : Bool) : (s.setInc inc).lasterr = s.lasterr := rfl
@[simp] theorem State.setInc_cfgFault (s : State) (inc : Bool) : (s.setInc inc).cfgFault = s.cfgFault := rfl
@[simp] theorem State.setInc_adBusy (s : State) (inc : Bool) : (s.setInc inc).adBusy = s.adBusy := rfl
@[simp] theorem State.setInc_errflags (s : State) (inc : Bool) : (s.setInc inc).errflags = s.errflags := rfl
@[simp] theorem State.setInc_iflags (s : State) (inc : Bool) : (s.setInc inc).iflags = s.iflags := rfl
@[simp] theorem State.setInc_ienable (s : State) (inc : Bool) : (s.setInc inc).ienable = s.ienable := rfl
@[simp] theorem State.setInc_iprio (s : State) (inc : Bool) : (s.setInc inc).iprio = s.iprio := rfl
@[simp] theorem State.setInc_gieh (s : State) (inc : Bool) : (s.setInc inc).gieh = s.gieh := rfl
@[simp] theorem State.setInc_giel (s : State) (inc : Bool) : (s.setInc inc).giel = s.giel := rfl
@[simp] theorem State.setInc_mode (s : State) (inc : Bool) : (s.setInc inc).mode = s.mode := rfl
@[simp] theorem State.setInc_reload (s : State) (inc : Bool) : (s.setInc inc).reload = s.reload := rfl
@[simp] theorem State.setInc_relw (s : State) (inc : Bool) : (s.setInc inc).relw = s.relw := rfl
@[simp] theorem State.setInc_pr (s : State) (inc : Bool) : (s.setInc inc).pr = s.pr := rfl
@[simp] theorem State.setInc_dch (s : State) (inc : Bool) : (s.setInc inc).dch = s.dch := rfl
@[simp] theorem State.setInc_dcl (s : State) (inc : Bool) : (s.setInc inc).dcl = s.dcl := rfl
@[simp] theorem State.setInc_pwps (s : State) (inc : Bool) : (s.setInc inc).pwps = s.pwps := rfl
@[simp] theorem State.setInc_svang (s : State) (inc : Bool) : (s.setInc inc).svang = s.svang := rfl
@[simp] theorem State.setInc_out (s : State) (inc : Bool) : (s.setInc inc).out = s.out := rfl
@[simp] theorem State.setInc_btncnt (s : State) (inc : Bool) : (s.setInc inc).btncnt = s.btncnt := rfl
@[simp] theorem State.setInc_tmrcnt (s : State) (inc : Bool) : (s.setInc inc).tmrcnt = s.tmrcnt := rfl
@[simp] theorem State.setInc_dbncfg (s : State) (inc : Bool) : (s.setInc inc).dbncfg = s.dbncfg := rfl
@[simp] theorem State.setInc_dbncnt (s : State) (inc : Bool) : (s.setInc inc).dbncnt = s.dbncnt := rfl
@[simp] theorem State.setInc_armed (s : State) (inc : Bool) : (s.setInc inc).armed = s.armed := rfl
@[simp] theorem State.setInc_sflast (s : State) (inc : Bool) : (s.setInc inc).sflast = s.sflast := rfl
@[simp] theorem State.setInc_sfsmooth (s : State) (inc : Bool) : (s.setInc inc).sfsmooth = s.sfsmooth := rfl
@[simp] theorem State.setInc_inc (s : State) (inc : Bool) : (s.setInc inc).inc = inc := rfl
@[simp] theorem State.setInc_zone (s : State) (inc : Bool) : (s.setInc inc).zone = s.zone := rfl
@[simp] theorem State.setInc_zcnt (s : State) (inc : Bool) : (s.setInc inc).zcnt = s.zcnt := rfl
@[simp] theorem State.setInc_blink (s : State) (inc : Bool) : (s.setInc inc).blink = s.blink := rfl
@[simp] theorem State.setInc_mstate (s : State) (inc : Bool) : (s.setInc inc).mstate = s.mstate := rfl
@[simp] theorem State.setInc_len (s : State) (inc : Bool) : (s.setInc inc).len = s.len := rfl
@[simp] theorem State.setInc_lastch (s : State) (inc : Bool) : (s.setInc inc).lastch = s.lastch := rfl
@[simp] theorem State.setInc_linecnt (s : State) (inc : Bool) : (s.setInc inc).linecnt = s.linecnt := rfl
@[simp] theorem State.setInc_rxbyte (s : State) (inc : Bool) : (s.setInc inc).rxbyte = s.rxbyte := rfl
@[simp] theorem State.setInc_rxoerr (s : State) (inc : Bool) : (s.setInc inc).rxoerr = s.rxoerr := rfl
@[simp] theorem State.setInc_rxferr (s : State) (inc : Bool) : (s.setInc inc).rxferr = s.rxferr := rfl
@[simp] theorem State.setInc_adcdata (s : State) (inc : Bool) : (s.setInc inc).adcdata = s.adcdata := rfl
@[simp] theorem State.setInc_rxrstcnt (s : State) (inc : Bool) : (s.setInc inc).rxrstcnt = s.rxrstcnt := rfl
@[simp] theorem State.setInc_lbuf (s : State) (inc : Bool) : (s.setInc inc).lbuf = s.lbuf := rfl
@[simp] theorem State.setInc_stack (s : State) (inc : Bool) : (s.setInc inc).stack = s.stack := rfl
@[simp] theorem State.setInc_rxWaits (s : State) (inc : Bool) : (s.setInc inc).rxWaits = s.rxWaits := rfl
@[simp] theorem State.setInc_txq (s : State) (inc : Bool) : (s.setInc inc).txq = s.txq := rfl
@[simp] theorem State.setInc_tmrload (s : State) (inc : Bool) : (s.setInc inc).tmrload = s.tmrload := rfl
@[simp] theorem State.setInc_press (s : State) (inc : Bool) : (s.setInc inc).press = s.press := rfl
@[simp] theorem State.setInc_lines (s : State) (inc : Bool) : (s.setInc inc).lines = s.lines := rfl
@[simp] theorem State.setInc_rxtoggle (s : State) (inc : Bool) : (s.setInc inc).rxtoggle = s.rxtoggle := rfl
@[simp] theorem State.setInc_txout (s : State) (inc : Bool) : (s.setInc inc).txout = s.txout := rfl
@[simp] theorem State.setInc_resp (s : State) (inc : Bool) : (s.setInc inc).resp = s.resp := rfl
@[simp] theorem State.setInc_params (s : State) (inc : Bool) : (s.setInc inc).params = s.params := rfl
@[simp] theorem State.setInc_cmdPort (s : State) (inc : Bool) : (s.setInc inc).cmdPort = s.cmdPort := rfl
@[simp] theorem State.setInc_evtPort (s : State) (inc : Bool) : (s.setInc inc).evtPort = s.evtPort := rfl
@[simp] theorem State.setInc_turns (s : State) (inc : Bool) : (s.setInc inc).turns = s.turns := rfl

/-! ## setZone -/

@[simp] theorem State.setZone_lasterr (s : State) (z count : Nat) : (s.setZone z count).lasterr = s.lasterr := rfl
@[simp] theorem State.setZone_cfgFault (s : State) (z count : Nat) : (s.setZone z count).cfgFault = s.cfgFault := rfl
@[simp] theorem State.setZone_adBusy (s : State) (z count : Nat) : (s.setZone z count).adBusy = s.adBusy := rfl
@[simp] theorem State.setZone_errflags (s : State) (z count : Nat) : (s.setZone z count).errflags = s.errflags := rfl
@[simp] theorem State.setZone_iflags (s : State) (z count : Nat) : (s.setZone z count).iflags = s.iflags := rfl
@[simp] theorem State.setZone_ienable (s : State) (z count : Nat) : (s.setZone z count).ienable = s.ienable := rfl
@[simp] theorem State.setZone_iprio (s : State) (z count : Nat) : (s.setZone z count).iprio = s.iprio := rfl
@[simp] theorem State.setZone_gieh (s : State) (z count : Nat) : (s.setZone z count).gieh = s.gieh := rfl
@[simp] theorem State.setZone_giel (s : State) (z count : Nat) : (s.setZone z count).giel = s.giel := rfl
@[simp] theorem State.setZone_mode (s : State) (z count : Nat) : (s.setZone z count).mode = s.mode := rfl
@[simp] theorem State.setZone_reload (s : State) (z count : Nat) : (s.setZone z count).reload = s.reload := rfl
@[simp] theorem State.setZone_relw (s : State) (z count : Nat) : (s.setZone z count).relw = s.relw := rfl
@[simp] theorem State.setZone_pr (s : State) (z count : Nat) : (s.setZone z count).pr = s.pr := rfl
@[simp] theorem State.setZone_dch (s : State) (z count : Nat) : (s.setZone z count).dch = s.dch := rfl
@[simp] theorem State.setZone_dcl (s : State) (z count : Nat) : (s.setZone z count).dcl = s.dcl := rfl
@[simp] theorem State.setZone_pwps (s : State) (z count : Nat) : (s.setZone z count).pwps = s.pwps := rfl
@[simp] theorem State.setZone_svang (s : State) (z count : Nat) : (s.setZone z count).svang = s.svang := rfl
@[simp] theorem State.setZone_out (s : State) (z count : Nat) : (s.setZone z count).out = s.out := rfl
@[simp] theorem State.setZone_btncnt (s : State) (z count : Nat) : (s.setZone z count).btncnt = s.btncnt := rfl
@[simp] theorem State.setZone_tmrcnt (s : State) (z count : Nat) : (s.setZone z count).tmrcnt = s.tmrcnt := rfl
@[simp] theorem State.setZone_dbncfg (s : State) (z count : Nat) : (s.setZone z count).dbncfg = s.dbncfg := rfl
@[simp] theorem State.setZone_dbncnt (s : State) (z count : Nat) : (s.setZone z count).dbncnt = s.dbncnt := rfl
@[simp] theorem State.setZone_armed (s : State) (z count : Nat) : (s.setZone z count).armed = s.armed := rfl
@[simp] theorem State.setZone_sflast (s : State) (z count : Nat) : (s.setZone z count).sflast = s.sflast := rfl
@[simp] theorem State.setZone_sfsmooth (s : State) (z count : Nat) : (s.setZone z count).sfsmooth = s.sfsmooth := rfl
@[simp] theorem State.setZone_inc (s : State) (z count : Nat) : (s.setZone z count).inc = s.inc := rfl
@[simp] theorem State.setZone_zone (s : State) (z count : Nat) : (s.setZone z count).zone = BitVec.ofNat 2 z := rfl
@[simp] theorem State.setZone_zcnt (s : State) (z count : Nat) : (s.setZone z count).zcnt = BitVec.ofNat 8 count := rfl
@[simp] theorem State.setZone_blink (s : State) (z count : Nat) : (s.setZone z count).blink = s.blink := rfl
@[simp] theorem State.setZone_mstate (s : State) (z count : Nat) : (s.setZone z count).mstate = s.mstate := rfl
@[simp] theorem State.setZone_len (s : State) (z count : Nat) : (s.setZone z count).len = s.len := rfl
@[simp] theorem State.setZone_lastch (s : State) (z count : Nat) : (s.setZone z count).lastch = s.lastch := rfl
@[simp] theorem State.setZone_linecnt (s : State) (z count : Nat) : (s.setZone z count).linecnt = s.linecnt := rfl
@[simp] theorem State.setZone_rxbyte (s : State) (z count : Nat) : (s.setZone z count).rxbyte = s.rxbyte := rfl
@[simp] theorem State.setZone_rxoerr (s : State) (z count : Nat) : (s.setZone z count).rxoerr = s.rxoerr := rfl
@[simp] theorem State.setZone_rxferr (s : State) (z count : Nat) : (s.setZone z count).rxferr = s.rxferr := rfl
@[simp] theorem State.setZone_adcdata (s : State) (z count : Nat) : (s.setZone z count).adcdata = s.adcdata := rfl
@[simp] theorem State.setZone_rxrstcnt (s : State) (z count : Nat) : (s.setZone z count).rxrstcnt = s.rxrstcnt := rfl
@[simp] theorem State.setZone_lbuf (s : State) (z count : Nat) : (s.setZone z count).lbuf = s.lbuf := rfl
@[simp] theorem State.setZone_stack (s : State) (z count : Nat) : (s.setZone z count).stack = s.stack := rfl
@[simp] theorem State.setZone_rxWaits (s : State) (z count : Nat) : (s.setZone z count).rxWaits = s.rxWaits := rfl
@[simp] theorem State.setZone_txq (s : State) (z count : Nat) : (s.setZone z count).txq = s.txq := rfl
@[simp] theorem State.setZone_tmrload (s : State) (z count : Nat) : (s.setZone z count).tmrload = s.tmrload := rfl
@[simp] theorem State.setZone_press (s : State) (z count : Nat) : (s.setZone z count).press = s.press := rfl
@[simp] theorem State.setZone_lines (s : State) (z count : Nat) : (s.setZone z count).lines = s.lines := rfl
@[simp] theorem State.setZone_rxtoggle (s : State) (z count : Nat) : (s.setZone z count).rxtoggle = s.rxtoggle := rfl
@[simp] theorem State.setZone_txout (s : State) (z count : Nat) : (s.setZone z count).txout = s.txout := rfl
@[simp] theorem State.setZone_resp (s : State) (z count : Nat) : (s.setZone z count).resp = s.resp := rfl
@[simp] theorem State.setZone_params (s : State) (z count : Nat) : (s.setZone z count).params = s.params := rfl
@[simp] theorem State.setZone_cmdPort (s : State) (z count : Nat) : (s.setZone z count).cmdPort = s.cmdPort := rfl
@[simp] theorem State.setZone_evtPort (s : State) (z count : Nat) : (s.setZone z count).evtPort = s.evtPort := rfl
@[simp] theorem State.setZone_turns (s : State) (z count : Nat) : (s.setZone z count).turns = s.turns := rfl

/-! ## showBlink -/

@[simp] theorem State.showBlink_lasterr (s : State) (b : Bool) : (s.showBlink b).lasterr = s.lasterr := rfl
@[simp] theorem State.showBlink_cfgFault (s : State) (b : Bool) : (s.showBlink b).cfgFault = s.cfgFault := rfl
@[simp] theorem State.showBlink_adBusy (s : State) (b : Bool) : (s.showBlink b).adBusy = s.adBusy := rfl
@[simp] theorem State.showBlink_errflags (s : State) (b : Bool) : (s.showBlink b).errflags = s.errflags := rfl
@[simp] theorem State.showBlink_iflags (s : State) (b : Bool) : (s.showBlink b).iflags = s.iflags := rfl
@[simp] theorem State.showBlink_ienable (s : State) (b : Bool) : (s.showBlink b).ienable = s.ienable := rfl
@[simp] theorem State.showBlink_iprio (s : State) (b : Bool) : (s.showBlink b).iprio = s.iprio := rfl
@[simp] theorem State.showBlink_gieh (s : State) (b : Bool) : (s.showBlink b).gieh = s.gieh := rfl
@[simp] theorem State.showBlink_giel (s : State) (b : Bool) : (s.showBlink b).giel = s.giel := rfl
@[simp] theorem State.showBlink_mode (s : State) (b : Bool) : (s.showBlink b).mode = s.mode := rfl
@[simp] theorem State.showBlink_reload (s : State) (b : Bool) : (s.showBlink b).reload = s.reload := rfl
@[simp] theorem State.showBlink_relw (s : State) (b : Bool) : (s.showBlink b).relw = s.relw := rfl
@[simp] theorem State.showBlink_pr (s : State) (b : Bool) : (s.showBlink b).pr = s.pr := rfl
@[simp] theorem State.showBlink_dch (s : State) (b : Bool) : (s.showBlink b).dch = s.dch := rfl
@[simp] theorem State.showBlink_dcl (s : State) (b : Bool) : (s.showBlink b).dcl = s.dcl := rfl
@[simp] theorem State.showBlink_pwps (s : State) (b : Bool) : (s.showBlink b).pwps = s.pwps := rfl
@[simp] theorem State.showBlink_svang (s : State) (b : Bool) : (s.showBlink b).svang = s.svang := rfl
@[simp] theorem State.showBlink_out (s : State) (b : Bool) : (s.showBlink b).out = s.out.extractLsb' 1 7 ++ BitVec.ofBool b := rfl
@[simp] theorem State.showBlink_btncnt (s : State) (b : Bool) : (s.showBlink b).btncnt = s.btncnt := rfl
@[simp] theorem State.showBlink_tmrcnt (s : State) (b : Bool) : (s.showBlink b).tmrcnt = s.tmrcnt := rfl
@[simp] theorem State.showBlink_dbncfg (s : State) (b : Bool) : (s.showBlink b).dbncfg = s.dbncfg := rfl
@[simp] theorem State.showBlink_dbncnt (s : State) (b : Bool) : (s.showBlink b).dbncnt = s.dbncnt := rfl
@[simp] theorem State.showBlink_armed (s : State) (b : Bool) : (s.showBlink b).armed = s.armed := rfl
@[simp] theorem State.showBlink_sflast (s : State) (b : Bool) : (s.showBlink b).sflast = s.sflast := rfl
@[simp] theorem State.showBlink_sfsmooth (s : State) (b : Bool) : (s.showBlink b).sfsmooth = s.sfsmooth := rfl
@[simp] theorem State.showBlink_inc (s : State) (b : Bool) : (s.showBlink b).inc = s.inc := rfl
@[simp] theorem State.showBlink_zone (s : State) (b : Bool) : (s.showBlink b).zone = s.zone := rfl
@[simp] theorem State.showBlink_zcnt (s : State) (b : Bool) : (s.showBlink b).zcnt = s.zcnt := rfl
@[simp] theorem State.showBlink_blink (s : State) (b : Bool) : (s.showBlink b).blink = b := rfl
@[simp] theorem State.showBlink_mstate (s : State) (b : Bool) : (s.showBlink b).mstate = s.mstate := rfl
@[simp] theorem State.showBlink_len (s : State) (b : Bool) : (s.showBlink b).len = s.len := rfl
@[simp] theorem State.showBlink_lastch (s : State) (b : Bool) : (s.showBlink b).lastch = s.lastch := rfl
@[simp] theorem State.showBlink_linecnt (s : State) (b : Bool) : (s.showBlink b).linecnt = s.linecnt := rfl
@[simp] theorem State.showBlink_rxbyte (s : State) (b : Bool) : (s.showBlink b).rxbyte = s.rxbyte := rfl
@[simp] theorem State.showBlink_rxoerr (s : State) (b : Bool) : (s.showBlink b).rxoerr = s.rxoerr := rfl
@[simp] theorem State.showBlink_rxferr (s : State) (b : Bool) : (s.showBlink b).rxferr = s.rxferr := rfl
@[simp] theorem State.showBlink_adcdata (s : State) (b : Bool) : (s.showBlink b).adcdata = s.adcdata := rfl
@[simp] theorem State.showBlink_rxrstcnt (s : State) (b : Bool) : (s.showBlink b).rxrstcnt = s.rxrstcnt := rfl
@[simp] theorem State.showBlink_lbuf (s : State) (b : Bool) : (s.showBlink b).lbuf = s.lbuf := rfl
@[simp] theorem State.showBlink_stack (s : State) (b : Bool) : (s.showBlink b).stack = s.stack := rfl
@[simp] theorem State.showBlink_rxWaits (s : State) (b : Bool) : (s.showBlink b).rxWaits = s.rxWaits := rfl
@[simp] theorem State.showBlink_txq (s : State) (b : Bool) : (s.showBlink b).txq = s.txq := rfl
@[simp] theorem State.showBlink_tmrload (s : State) (b : Bool) : (s.showBlink b).tmrload = s.tmrload := rfl
@[simp] theorem State.showBlink_press (s : State) (b : Bool) : (s.showBlink b).press = s.press := rfl
@[simp] theorem State.showBlink_lines (s : State) (b : Bool) : (s.showBlink b).lines = s.lines := rfl
@[simp] theorem State.showBlink_rxtoggle (s : State) (b : Bool) : (s.showBlink b).rxtoggle = s.rxtoggle := rfl
@[simp] theorem State.showBlink_txout (s : State) (b : Bool) : (s.showBlink b).txout = s.txout := rfl
@[simp] theorem State.showBlink_resp (s : State) (b : Bool) : (s.showBlink b).resp = s.resp := rfl
@[simp] theorem State.showBlink_params (s : State) (b : Bool) : (s.showBlink b).params = s.params := rfl
@[simp] theorem State.showBlink_cmdPort (s : State) (b : Bool) : (s.showBlink b).cmdPort = s.cmdPort := rfl
@[simp] theorem State.showBlink_evtPort (s : State) (b : Bool) : (s.showBlink b).evtPort = s.evtPort := rfl
@[simp] theorem State.showBlink_turns (s : State) (b : Bool) : (s.showBlink b).turns = s.turns := rfl

/-! ## filterWrite -/

@[simp] theorem State.filterWrite_lasterr (s : State) (sm raw : BitVec 10) : (s.filterWrite sm raw).lasterr = s.lasterr := rfl
@[simp] theorem State.filterWrite_cfgFault (s : State) (sm raw : BitVec 10) : (s.filterWrite sm raw).cfgFault = s.cfgFault := rfl
@[simp] theorem State.filterWrite_adBusy (s : State) (sm raw : BitVec 10) : (s.filterWrite sm raw).adBusy = s.adBusy := rfl
@[simp] theorem State.filterWrite_errflags (s : State) (sm raw : BitVec 10) : (s.filterWrite sm raw).errflags = s.errflags := rfl
@[simp] theorem State.filterWrite_iflags (s : State) (sm raw : BitVec 10) : (s.filterWrite sm raw).iflags = s.iflags := rfl
@[simp] theorem State.filterWrite_ienable (s : State) (sm raw : BitVec 10) : (s.filterWrite sm raw).ienable = s.ienable := rfl
@[simp] theorem State.filterWrite_iprio (s : State) (sm raw : BitVec 10) : (s.filterWrite sm raw).iprio = s.iprio := rfl
@[simp] theorem State.filterWrite_gieh (s : State) (sm raw : BitVec 10) : (s.filterWrite sm raw).gieh = s.gieh := rfl
@[simp] theorem State.filterWrite_giel (s : State) (sm raw : BitVec 10) : (s.filterWrite sm raw).giel = s.giel := rfl
@[simp] theorem State.filterWrite_mode (s : State) (sm raw : BitVec 10) : (s.filterWrite sm raw).mode = s.mode := rfl
@[simp] theorem State.filterWrite_reload (s : State) (sm raw : BitVec 10) : (s.filterWrite sm raw).reload = s.reload := rfl
@[simp] theorem State.filterWrite_relw (s : State) (sm raw : BitVec 10) : (s.filterWrite sm raw).relw = s.relw := rfl
@[simp] theorem State.filterWrite_pr (s : State) (sm raw : BitVec 10) : (s.filterWrite sm raw).pr = s.pr := rfl
@[simp] theorem State.filterWrite_dch (s : State) (sm raw : BitVec 10) : (s.filterWrite sm raw).dch = s.dch := rfl
@[simp] theorem State.filterWrite_dcl (s : State) (sm raw : BitVec 10) : (s.filterWrite sm raw).dcl = s.dcl := rfl
@[simp] theorem State.filterWrite_pwps (s : State) (sm raw : BitVec 10) : (s.filterWrite sm raw).pwps = s.pwps := rfl
@[simp] theorem State.filterWrite_svang (s : State) (sm raw : BitVec 10) : (s.filterWrite sm raw).svang = s.svang := rfl
@[simp] theorem State.filterWrite_out (s : State) (sm raw : BitVec 10) : (s.filterWrite sm raw).out = s.out := rfl
@[simp] theorem State.filterWrite_btncnt (s : State) (sm raw : BitVec 10) : (s.filterWrite sm raw).btncnt = s.btncnt := rfl
@[simp] theorem State.filterWrite_tmrcnt (s : State) (sm raw : BitVec 10) : (s.filterWrite sm raw).tmrcnt = s.tmrcnt := rfl
@[simp] theorem State.filterWrite_dbncfg (s : State) (sm raw : BitVec 10) : (s.filterWrite sm raw).dbncfg = s.dbncfg := rfl
@[simp] theorem State.filterWrite_dbncnt (s : State) (sm raw : BitVec 10) : (s.filterWrite sm raw).dbncnt = s.dbncnt := rfl
@[simp] theorem State.filterWrite_armed (s : State) (sm raw : BitVec 10) : (s.filterWrite sm raw).armed = s.armed := rfl
@[simp] theorem State.filterWrite_sflast (s : State) (sm raw : BitVec 10) : (s.filterWrite sm raw).sflast = raw := rfl
@[simp] theorem State.filterWrite_sfsmooth (s : State) (sm raw : BitVec 10) : (s.filterWrite sm raw).sfsmooth = sm := rfl
@[simp] theorem State.filterWrite_inc (s : State) (sm raw : BitVec 10) : (s.filterWrite sm raw).inc = s.inc := rfl
@[simp] theorem State.filterWrite_zone (s : State) (sm raw : BitVec 10) : (s.filterWrite sm raw).zone = s.zone := rfl
@[simp] theorem State.filterWrite_zcnt (s : State) (sm raw : BitVec 10) : (s.filterWrite sm raw).zcnt = s.zcnt := rfl
@[simp] theorem State.filterWrite_blink (s : State) (sm raw : BitVec 10) : (s.filterWrite sm raw).blink = s.blink := rfl
@[simp] theorem State.filterWrite_mstate (s : State) (sm raw : BitVec 10) : (s.filterWrite sm raw).mstate = s.mstate := rfl
@[simp] theorem State.filterWrite_len (s : State) (sm raw : BitVec 10) : (s.filterWrite sm raw).len = s.len := rfl
@[simp] theorem State.filterWrite_lastch (s : State) (sm raw : BitVec 10) : (s.filterWrite sm raw).lastch = s.lastch := rfl
@[simp] theorem State.filterWrite_linecnt (s : State) (sm raw : BitVec 10) : (s.filterWrite sm raw).linecnt = s.linecnt := rfl
@[simp] theorem State.filterWrite_rxbyte (s : State) (sm raw : BitVec 10) : (s.filterWrite sm raw).rxbyte = s.rxbyte := rfl
@[simp] theorem State.filterWrite_rxoerr (s : State) (sm raw : BitVec 10) : (s.filterWrite sm raw).rxoerr = s.rxoerr := rfl
@[simp] theorem State.filterWrite_rxferr (s : State) (sm raw : BitVec 10) : (s.filterWrite sm raw).rxferr = s.rxferr := rfl
@[simp] theorem State.filterWrite_adcdata (s : State) (sm raw : BitVec 10) : (s.filterWrite sm raw).adcdata = s.adcdata := rfl
@[simp] theorem State.filterWrite_rxrstcnt (s : State) (sm raw : BitVec 10) : (s.filterWrite sm raw).rxrstcnt = s.rxrstcnt := rfl
@[simp] theorem State.filterWrite_lbuf (s : State) (sm raw : BitVec 10) : (s.filterWrite sm raw).lbuf = s.lbuf := rfl
@[simp] theorem State.filterWrite_stack (s : State) (sm raw : BitVec 10) : (s.filterWrite sm raw).stack = s.stack := rfl
@[simp] theorem State.filterWrite_rxWaits (s : State) (sm raw : BitVec 10) : (s.filterWrite sm raw).rxWaits = s.rxWaits := rfl
@[simp] theorem State.filterWrite_txq (s : State) (sm raw : BitVec 10) : (s.filterWrite sm raw).txq = s.txq := rfl
@[simp] theorem State.filterWrite_tmrload (s : State) (sm raw : BitVec 10) : (s.filterWrite sm raw).tmrload = s.tmrload := rfl
@[simp] theorem State.filterWrite_press (s : State) (sm raw : BitVec 10) : (s.filterWrite sm raw).press = s.press := rfl
@[simp] theorem State.filterWrite_lines (s : State) (sm raw : BitVec 10) : (s.filterWrite sm raw).lines = s.lines := rfl
@[simp] theorem State.filterWrite_rxtoggle (s : State) (sm raw : BitVec 10) : (s.filterWrite sm raw).rxtoggle = s.rxtoggle := rfl
@[simp] theorem State.filterWrite_txout (s : State) (sm raw : BitVec 10) : (s.filterWrite sm raw).txout = s.txout := rfl
@[simp] theorem State.filterWrite_resp (s : State) (sm raw : BitVec 10) : (s.filterWrite sm raw).resp = s.resp := rfl
@[simp] theorem State.filterWrite_params (s : State) (sm raw : BitVec 10) : (s.filterWrite sm raw).params = s.params := rfl
@[simp] theorem State.filterWrite_cmdPort (s : State) (sm raw : BitVec 10) : (s.filterWrite sm raw).cmdPort = s.cmdPort := rfl
@[simp] theorem State.filterWrite_evtPort (s : State) (sm raw : BitVec 10) : (s.filterWrite sm raw).evtPort = s.evtPort := rfl
@[simp] theorem State.filterWrite_turns (s : State) (sm raw : BitVec 10) : (s.filterWrite sm raw).turns = s.turns := rfl

/-! ## latchByte -/

@[simp] theorem State.latchByte_lasterr (s : State) (b : Byte) (oe fe : Bool) : (s.latchByte b oe fe).lasterr = s.lasterr := rfl
@[simp] theorem State.latchByte_cfgFault (s : State) (b : Byte) (oe fe : Bool) : (s.latchByte b oe fe).cfgFault = s.cfgFault := rfl
@[simp] theorem State.latchByte_adBusy (s : State) (b : Byte) (oe fe : Bool) : (s.latchByte b oe fe).adBusy = s.adBusy := rfl
@[simp] theorem State.latchByte_errflags (s : State) (b : Byte) (oe fe : Bool) : (s.latchByte b oe fe).errflags = s.errflags := rfl
@[simp] theorem State.latchByte_iflags (s : State) (b : Byte) (oe fe : Bool) : (s.latchByte b oe fe).iflags = s.iflags := rfl
@[simp] theorem State.latchByte_ienable (s : State) (b : Byte) (oe fe : Bool) : (s.latchByte b oe fe).ienable = s.ienable := rfl
@[simp] theorem State.latchByte_iprio (s : State) (b : Byte) (oe fe : Bool) : (s.latchByte b oe fe).iprio = s.iprio := rfl
@[simp] theorem State.latchByte_gieh (s : State) (b : Byte) (oe fe : Bool) : (s.latchByte b oe fe).gieh = s.gieh := rfl
@[simp] theorem State.latchByte_giel (s : State) (b : Byte) (oe fe : Bool) : (s.latchByte b oe fe).giel = s.giel := rfl
@[simp] theorem State.latchByte_mode (s : State) (b : Byte) (oe fe : Bool) : (s.latchByte b oe fe).mode = s.mode := rfl
@[simp] theorem State.latchByte_reload (s : State) (b : Byte) (oe fe : Bool) : (s.latchByte b oe fe).reload = s.reload := rfl
@[simp] theorem State.latchByte_relw (s : State) (b : Byte) (oe fe : Bool) : (s.latchByte b oe fe).relw = s.relw := rfl
@[simp] theorem State.latchByte_pr (s : State) (b : Byte) (oe fe : Bool) : (s.latchByte b oe fe).pr = s.pr := rfl
@[simp] theorem State.latchByte_dch (s : State) (b : Byte) (oe fe : Bool) : (s.latchByte b oe fe).dch = s.dch := rfl
@[simp] theorem State.latchByte_dcl (s : State) (b : Byte) (oe fe : Bool) : (s.latchByte b oe fe).dcl = s.dcl := rfl
@[simp] theorem State.latchByte_pwps (s : State) (b : Byte) (oe fe : Bool) : (s.latchByte b oe fe).pwps = s.pwps := rfl
@[simp] theorem State.latchByte_svang (s : State) (b : Byte) (oe fe : Bool) : (s.latchByte b oe fe).svang = s.svang := rfl
@[simp] theorem State.latchByte_out (s : State) (b : Byte) (oe fe : Bool) : (s.latchByte b oe fe).out = s.out := rfl
@[simp] theorem State.latchByte_btncnt (s : State) (b : Byte) (oe fe : Bool) : (s.latchByte b oe fe).btncnt = s.btncnt := rfl
@[simp] theorem State.latchByte_tmrcnt (s : State) (b : Byte) (oe fe : Bool) : (s.latchByte b oe fe).tmrcnt = s.tmrcnt := rfl
@[simp] theorem State.latchByte_dbncfg (s : State) (b : Byte) (oe fe : Bool) : (s.latchByte b oe fe).dbncfg = s.dbncfg := rfl
@[simp] theorem State.latchByte_dbncnt (s : State) (b : Byte) (oe fe : Bool) : (s.latchByte b oe fe).dbncnt = s.dbncnt := rfl
@[simp] theorem State.latchByte_armed (s : State) (b : Byte) (oe fe : Bool) : (s.latchByte b oe fe).armed = s.armed := rfl
@[simp] theorem State.latchByte_sflast (s : State) (b : Byte) (oe fe : Bool) : (s.latchByte b oe fe).sflast = s.sflast := rfl
@[simp] theorem State.latchByte_sfsmooth (s : State) (b : Byte) (oe fe : Bool) : (s.latchByte b oe fe).sfsmooth = s.sfsmooth := rfl
@[simp] theorem State.latchByte_inc (s : State) (b : Byte) (oe fe : Bool) : (s.latchByte b oe fe).inc = s.inc := rfl
@[simp] theorem State.latchByte_zone (s : State) (b : Byte) (oe fe : Bool) : (s.latchByte b oe fe).zone = s.zone := rfl
@[simp] theorem State.latchByte_zcnt (s : State) (b : Byte) (oe fe : Bool) : (s.latchByte b oe fe).zcnt = s.zcnt := rfl
@[simp] theorem State.latchByte_blink (s : State) (b : Byte) (oe fe : Bool) : (s.latchByte b oe fe).blink = s.blink := rfl
@[simp] theorem State.latchByte_mstate (s : State) (b : Byte) (oe fe : Bool) : (s.latchByte b oe fe).mstate = s.mstate := rfl
@[simp] theorem State.latchByte_len (s : State) (b : Byte) (oe fe : Bool) : (s.latchByte b oe fe).len = s.len := rfl
@[simp] theorem State.latchByte_lastch (s : State) (b : Byte) (oe fe : Bool) : (s.latchByte b oe fe).lastch = s.lastch := rfl
@[simp] theorem State.latchByte_linecnt (s : State) (b : Byte) (oe fe : Bool) : (s.latchByte b oe fe).linecnt = s.linecnt := rfl
@[simp] theorem State.latchByte_rxbyte (s : State) (b : Byte) (oe fe : Bool) : (s.latchByte b oe fe).rxbyte = b := rfl
@[simp] theorem State.latchByte_rxoerr (s : State) (b : Byte) (oe fe : Bool) : (s.latchByte b oe fe).rxoerr = oe := rfl
@[simp] theorem State.latchByte_rxferr (s : State) (b : Byte) (oe fe : Bool) : (s.latchByte b oe fe).rxferr = fe := rfl
@[simp] theorem State.latchByte_adcdata (s : State) (b : Byte) (oe fe : Bool) : (s.latchByte b oe fe).adcdata = s.adcdata := rfl
@[simp] theorem State.latchByte_rxrstcnt (s : State) (b : Byte) (oe fe : Bool) : (s.latchByte b oe fe).rxrstcnt = s.rxrstcnt := rfl
@[simp] theorem State.latchByte_lbuf (s : State) (b : Byte) (oe fe : Bool) : (s.latchByte b oe fe).lbuf = s.lbuf := rfl
@[simp] theorem State.latchByte_stack (s : State) (b : Byte) (oe fe : Bool) : (s.latchByte b oe fe).stack = s.stack := rfl
@[simp] theorem State.latchByte_rxWaits (s : State) (b : Byte) (oe fe : Bool) : (s.latchByte b oe fe).rxWaits = s.rxWaits := rfl
@[simp] theorem State.latchByte_txq (s : State) (b : Byte) (oe fe : Bool) : (s.latchByte b oe fe).txq = s.txq := rfl
@[simp] theorem State.latchByte_tmrload (s : State) (b : Byte) (oe fe : Bool) : (s.latchByte b oe fe).tmrload = s.tmrload := rfl
@[simp] theorem State.latchByte_press (s : State) (b : Byte) (oe fe : Bool) : (s.latchByte b oe fe).press = s.press := rfl
@[simp] theorem State.latchByte_lines (s : State) (b : Byte) (oe fe : Bool) : (s.latchByte b oe fe).lines = s.lines := rfl
@[simp] theorem State.latchByte_rxtoggle (s : State) (b : Byte) (oe fe : Bool) : (s.latchByte b oe fe).rxtoggle = s.rxtoggle := rfl
@[simp] theorem State.latchByte_txout (s : State) (b : Byte) (oe fe : Bool) : (s.latchByte b oe fe).txout = s.txout := rfl
@[simp] theorem State.latchByte_resp (s : State) (b : Byte) (oe fe : Bool) : (s.latchByte b oe fe).resp = s.resp := rfl
@[simp] theorem State.latchByte_params (s : State) (b : Byte) (oe fe : Bool) : (s.latchByte b oe fe).params = s.params := rfl
@[simp] theorem State.latchByte_cmdPort (s : State) (b : Byte) (oe fe : Bool) : (s.latchByte b oe fe).cmdPort = s.cmdPort := rfl
@[simp] theorem State.latchByte_evtPort (s : State) (b : Byte) (oe fe : Bool) : (s.latchByte b oe fe).evtPort = s.evtPort := rfl
@[simp] theorem State.latchByte_turns (s : State) (b : Byte) (oe fe : Bool) : (s.latchByte b oe fe).turns = s.turns := rfl

/-! ## takeTx -/

@[simp] theorem State.takeTx_lasterr (s : State) (b : Byte) (rest : List Byte) : (s.takeTx b rest).lasterr = s.lasterr := rfl
@[simp] theorem State.takeTx_cfgFault (s : State) (b : Byte) (rest : List Byte) : (s.takeTx b rest).cfgFault = s.cfgFault := rfl
@[simp] theorem State.takeTx_adBusy (s : State) (b : Byte) (rest : List Byte) : (s.takeTx b rest).adBusy = s.adBusy := rfl
@[simp] theorem State.takeTx_errflags (s : State) (b : Byte) (rest : List Byte) : (s.takeTx b rest).errflags = s.errflags := rfl
@[simp] theorem State.takeTx_iflags (s : State) (b : Byte) (rest : List Byte) : (s.takeTx b rest).iflags = s.iflags := rfl
@[simp] theorem State.takeTx_ienable (s : State) (b : Byte) (rest : List Byte) : (s.takeTx b rest).ienable = s.ienable := rfl
@[simp] theorem State.takeTx_iprio (s : State) (b : Byte) (rest : List Byte) : (s.takeTx b rest).iprio = s.iprio := rfl
@[simp] theorem State.takeTx_gieh (s : State) (b : Byte) (rest : List Byte) : (s.takeTx b rest).gieh = s.gieh := rfl
@[simp] theorem State.takeTx_giel (s : State) (b : Byte) (rest : List Byte) : (s.takeTx b rest).giel = s.giel := rfl
@[simp] theorem State.takeTx_mode (s : State) (b : Byte) (rest : List Byte) : (s.takeTx b rest).mode = s.mode := rfl
@[simp] theorem State.takeTx_reload (s : State) (b : Byte) (rest : List Byte) : (s.takeTx b rest).reload = s.reload := rfl
@[simp] theorem State.takeTx_relw (s : State) (b : Byte) (rest : List Byte) : (s.takeTx b rest).relw = s.relw := rfl
@[simp] theorem State.takeTx_pr (s : State) (b : Byte) (rest : List Byte) : (s.takeTx b rest).pr = s.pr := rfl
@[simp] theorem State.takeTx_dch (s : State) (b : Byte) (rest : List Byte) : (s.takeTx b rest).dch = s.dch := rfl
@[simp] theorem State.takeTx_dcl (s : State) (b : Byte) (rest : List Byte) : (s.takeTx b rest).dcl = s.dcl := rfl
@[simp] theorem State.takeTx_pwps (s : State) (b : Byte) (rest : List Byte) : (s.takeTx b rest).pwps = s.pwps := rfl
@[simp] theorem State.takeTx_svang (s : State) (b : Byte) (rest : List Byte) : (s.takeTx b rest).svang = s.svang := rfl
@[simp] theorem State.takeTx_out (s : State) (b : Byte) (rest : List Byte) : (s.takeTx b rest).out = s.out := rfl
@[simp] theorem State.takeTx_btncnt (s : State) (b : Byte) (rest : List Byte) : (s.takeTx b rest).btncnt = s.btncnt := rfl
@[simp] theorem State.takeTx_tmrcnt (s : State) (b : Byte) (rest : List Byte) : (s.takeTx b rest).tmrcnt = s.tmrcnt := rfl
@[simp] theorem State.takeTx_dbncfg (s : State) (b : Byte) (rest : List Byte) : (s.takeTx b rest).dbncfg = s.dbncfg := rfl
@[simp] theorem State.takeTx_dbncnt (s : State) (b : Byte) (rest : List Byte) : (s.takeTx b rest).dbncnt = s.dbncnt := rfl
@[simp] theorem State.takeTx_armed (s : State) (b : Byte) (rest : List Byte) : (s.takeTx b rest).armed = s.armed := rfl
@[simp] theorem State.takeTx_sflast (s : State) (b : Byte) (rest : List Byte) : (s.takeTx b rest).sflast = s.sflast := rfl
@[simp] theorem State.takeTx_sfsmooth (s : State) (b : Byte) (rest : List Byte) : (s.takeTx b rest).sfsmooth = s.sfsmooth := rfl
@[simp] theorem State.takeTx_inc (s : State) (b : Byte) (rest : List Byte) : (s.takeTx b rest).inc = s.inc := rfl
@[simp] theorem State.takeTx_zone (s : State) (b : Byte) (rest : List Byte) : (s.takeTx b rest).zone = s.zone := rfl
@[simp] theorem State.takeTx_zcnt (s : State) (b : Byte) (rest : List Byte) : (s.takeTx b rest).zcnt = s.zcnt := rfl
@[simp] theorem State.takeTx_blink (s : State) (b : Byte) (rest : List Byte) : (s.takeTx b rest).blink = s.blink := rfl
@[simp] theorem State.takeTx_mstate (s : State) (b : Byte) (rest : List Byte) : (s.takeTx b rest).mstate = s.mstate := rfl
@[simp] theorem State.takeTx_len (s : State) (b : Byte) (rest : List Byte) : (s.takeTx b rest).len = s.len := rfl
@[simp] theorem State.takeTx_lastch (s : State) (b : Byte) (rest : List Byte) : (s.takeTx b rest).lastch = s.lastch := rfl
@[simp] theorem State.takeTx_linecnt (s : State) (b : Byte) (rest : List Byte) : (s.takeTx b rest).linecnt = s.linecnt := rfl
@[simp] theorem State.takeTx_rxbyte (s : State) (b : Byte) (rest : List Byte) : (s.takeTx b rest).rxbyte = s.rxbyte := rfl
@[simp] theorem State.takeTx_rxoerr (s : State) (b : Byte) (rest : List Byte) : (s.takeTx b rest).rxoerr = s.rxoerr := rfl
@[simp] theorem State.takeTx_rxferr (s : State) (b : Byte) (rest : List Byte) : (s.takeTx b rest).rxferr = s.rxferr := rfl
@[simp] theorem State.takeTx_adcdata (s : State) (b : Byte) (rest : List Byte) : (s.takeTx b rest).adcdata = s.adcdata := rfl
@[simp] theorem State.takeTx_rxrstcnt (s : State) (b : Byte) (rest : List Byte) : (s.takeTx b rest).rxrstcnt = s.rxrstcnt := rfl
@[simp] theorem State.takeTx_lbuf (s : State) (b : Byte) (rest : List Byte) : (s.takeTx b rest).lbuf = s.lbuf := rfl
@[simp] theorem State.takeTx_stack (s : State) (b : Byte) (rest : List Byte) : (s.takeTx b rest).stack = s.stack := rfl
@[simp] theorem State.takeTx_rxWaits (s : State) (b : Byte) (rest : List Byte) : (s.takeTx b rest).rxWaits = s.rxWaits := rfl
@[simp] theorem State.takeTx_txq (s : State) (b : Byte) (rest : List Byte) : (s.takeTx b rest).txq = rest := rfl
@[simp] theorem State.takeTx_tmrload (s : State) (b : Byte) (rest : List Byte) : (s.takeTx b rest).tmrload = s.tmrload := rfl
@[simp] theorem State.takeTx_press (s : State) (b : Byte) (rest : List Byte) : (s.takeTx b rest).press = s.press := rfl
@[simp] theorem State.takeTx_lines (s : State) (b : Byte) (rest : List Byte) : (s.takeTx b rest).lines = s.lines := rfl
@[simp] theorem State.takeTx_rxtoggle (s : State) (b : Byte) (rest : List Byte) : (s.takeTx b rest).rxtoggle = s.rxtoggle := rfl
@[simp] theorem State.takeTx_txout (s : State) (b : Byte) (rest : List Byte) : (s.takeTx b rest).txout = s.txout ++ [b] := rfl
@[simp] theorem State.takeTx_resp (s : State) (b : Byte) (rest : List Byte) : (s.takeTx b rest).resp = s.resp := rfl
@[simp] theorem State.takeTx_params (s : State) (b : Byte) (rest : List Byte) : (s.takeTx b rest).params = s.params := rfl
@[simp] theorem State.takeTx_cmdPort (s : State) (b : Byte) (rest : List Byte) : (s.takeTx b rest).cmdPort = s.cmdPort := rfl
@[simp] theorem State.takeTx_evtPort (s : State) (b : Byte) (rest : List Byte) : (s.takeTx b rest).evtPort = s.evtPort := rfl
@[simp] theorem State.takeTx_turns (s : State) (b : Byte) (rest : List Byte) : (s.takeTx b rest).turns = s.turns := rfl

/-! ## setLine -/

@[simp] theorem State.setLine_lasterr (s : State) (n : BitVec 7) (m : Memory) : (s.setLine n m).lasterr = s.lasterr := rfl
@[simp] theorem State.setLine_cfgFault (s : State) (n : BitVec 7) (m : Memory) : (s.setLine n m).cfgFault = s.cfgFault := rfl
@[simp] theorem State.setLine_adBusy (s : State) (n : BitVec 7) (m : Memory) : (s.setLine n m).adBusy = s.adBusy := rfl
@[simp] theorem State.setLine_errflags (s : State) (n : BitVec 7) (m : Memory) : (s.setLine n m).errflags = s.errflags := rfl
@[simp] theorem State.setLine_iflags (s : State) (n : BitVec 7) (m : Memory) : (s.setLine n m).iflags = s.iflags := rfl
@[simp] theorem State.setLine_ienable (s : State) (n : BitVec 7) (m : Memory) : (s.setLine n m).ienable = s.ienable := rfl
@[simp] theorem State.setLine_iprio (s : State) (n : BitVec 7) (m : Memory) : (s.setLine n m).iprio = s.iprio := rfl
@[simp] theorem State.setLine_gieh (s : State) (n : BitVec 7) (m : Memory) : (s.setLine n m).gieh = s.gieh := rfl
@[simp] theorem State.setLine_giel (s : State) (n : BitVec 7) (m : Memory) : (s.setLine n m).giel = s.giel := rfl
@[simp] theorem State.setLine_mode (s : State) (n : BitVec 7) (m : Memory) : (s.setLine n m).mode = s.mode := rfl
@[simp] theorem State.setLine_reload (s : State) (n : BitVec 7) (m : Memory) : (s.setLine n m).reload = s.reload := rfl
@[simp] theorem State.setLine_relw (s : State) (n : BitVec 7) (m : Memory) : (s.setLine n m).relw = s.relw := rfl
@[simp] theorem State.setLine_pr (s : State) (n : BitVec 7) (m : Memory) : (s.setLine n m).pr = s.pr := rfl
@[simp] theorem State.setLine_dch (s : State) (n : BitVec 7) (m : Memory) : (s.setLine n m).dch = s.dch := rfl
@[simp] theorem State.setLine_dcl (s : State) (n : BitVec 7) (m : Memory) : (s.setLine n m).dcl = s.dcl := rfl
@[simp] theorem State.setLine_pwps (s : State) (n : BitVec 7) (m : Memory) : (s.setLine n m).pwps = s.pwps := rfl
@[simp] theorem State.setLine_svang (s : State) (n : BitVec 7) (m : Memory) : (s.setLine n m).svang = s.svang := rfl
@[simp] theorem State.setLine_out (s : State) (n : BitVec 7) (m : Memory) : (s.setLine n m).out = s.out := rfl
@[simp] theorem State.setLine_btncnt (s : State) (n : BitVec 7) (m : Memory) : (s.setLine n m).btncnt = s.btncnt := rfl
@[simp] theorem State.setLine_tmrcnt (s : State) (n : BitVec 7) (m : Memory) : (s.setLine n m).tmrcnt = s.tmrcnt := rfl
@[simp] theorem State.setLine_dbncfg (s : State) (n : BitVec 7) (m : Memory) : (s.setLine n m).dbncfg = s.dbncfg := rfl
@[simp] theorem State.setLine_dbncnt (s : State) (n : BitVec 7) (m : Memory) : (s.setLine n m).dbncnt = s.dbncnt := rfl
@[simp] theorem State.setLine_armed (s : State) (n : BitVec 7) (m : Memory) : (s.setLine n m).armed = s.armed := rfl
@[simp] theorem State.setLine_sflast (s : State) (n : BitVec 7) (m : Memory) : (s.setLine n m).sflast = s.sflast := rfl
@[simp] theorem State.setLine_sfsmooth (s : State) (n : BitVec 7) (m : Memory) : (s.setLine n m).sfsmooth = s.sfsmooth := rfl
@[simp] theorem State.setLine_inc (s : State) (n : BitVec 7) (m : Memory) : (s.setLine n m).inc = s.inc := rfl
@[simp] theorem State.setLine_zone (s : State) (n : BitVec 7) (m : Memory) : (s.setLine n m).zone = s.zone := rfl
@[simp] theorem State.setLine_zcnt (s : State) (n : BitVec 7) (m : Memory) : (s.setLine n m).zcnt = s.zcnt := rfl
@[simp] theorem State.setLine_blink (s : State) (n : BitVec 7) (m : Memory) : (s.setLine n m).blink = s.blink := rfl
@[simp] theorem State.setLine_mstate (s : State) (n : BitVec 7) (m : Memory) : (s.setLine n m).mstate = s.mstate := rfl
@[simp] theorem State.setLine_len (s : State) (n : BitVec 7) (m : Memory) : (s.setLine n m).len = n := rfl
@[simp] theorem State.setLine_lastch (s : State) (n : BitVec 7) (m : Memory) : (s.setLine n m).lastch = s.lastch := rfl
@[simp] theorem State.setLine_linecnt (s : State) (n : BitVec 7) (m : Memory) : (s.setLine n m).linecnt = s.linecnt := rfl
@[simp] theorem State.setLine_rxbyte (s : State) (n : BitVec 7) (m : Memory) : (s.setLine n m).rxbyte = s.rxbyte := rfl
@[simp] theorem State.setLine_rxoerr (s : State) (n : BitVec 7) (m : Memory) : (s.setLine n m).rxoerr = s.rxoerr := rfl
@[simp] theorem State.setLine_rxferr (s : State) (n : BitVec 7) (m : Memory) : (s.setLine n m).rxferr = s.rxferr := rfl
@[simp] theorem State.setLine_adcdata (s : State) (n : BitVec 7) (m : Memory) : (s.setLine n m).adcdata = s.adcdata := rfl
@[simp] theorem State.setLine_rxrstcnt (s : State) (n : BitVec 7) (m : Memory) : (s.setLine n m).rxrstcnt = s.rxrstcnt := rfl
@[simp] theorem State.setLine_lbuf (s : State) (n : BitVec 7) (m : Memory) : (s.setLine n m).lbuf = m := rfl
@[simp] theorem State.setLine_stack (s : State) (n : BitVec 7) (m : Memory) : (s.setLine n m).stack = s.stack := rfl
@[simp] theorem State.setLine_rxWaits (s : State) (n : BitVec 7) (m : Memory) : (s.setLine n m).rxWaits = s.rxWaits := rfl
@[simp] theorem State.setLine_txq (s : State) (n : BitVec 7) (m : Memory) : (s.setLine n m).txq = s.txq := rfl
@[simp] theorem State.setLine_tmrload (s : State) (n : BitVec 7) (m : Memory) : (s.setLine n m).tmrload = s.tmrload := rfl
@[simp] theorem State.setLine_press (s : State) (n : BitVec 7) (m : Memory) : (s.setLine n m).press = s.press := rfl
@[simp] theorem State.setLine_lines (s : State) (n : BitVec 7) (m : Memory) : (s.setLine n m).lines = s.lines := rfl
@[simp] theorem State.setLine_rxtoggle (s : State) (n : BitVec 7) (m : Memory) : (s.setLine n m).rxtoggle = s.rxtoggle := rfl
@[simp] theorem State.setLine_txout (s : State) (n : BitVec 7) (m : Memory) : (s.setLine n m).txout = s.txout := rfl
@[simp] theorem State.setLine_resp (s : State) (n : BitVec 7) (m : Memory) : (s.setLine n m).resp = s.resp := rfl
@[simp] theorem State.setLine_params (s : State) (n : BitVec 7) (m : Memory) : (s.setLine n m).params = s.params := rfl
@[simp] theorem State.setLine_cmdPort (s : State) (n : BitVec 7) (m : Memory) : (s.setLine n m).cmdPort = s.cmdPort := rfl
@[simp] theorem State.setLine_evtPort (s : State) (n : BitVec 7) (m : Memory) : (s.setLine n m).evtPort = s.evtPort := rfl
@[simp] theorem State.setLine_turns (s : State) (n : BitVec 7) (m : Memory) : (s.setLine n m).turns = s.turns := rfl

/-! ## emitLine -/

@[simp] theorem State.emitLine_lasterr (s : State) (line : List Byte) : (s.emitLine line).lasterr = s.lasterr := rfl
@[simp] theorem State.emitLine_cfgFault (s : State) (line : List Byte) : (s.emitLine line).cfgFault = s.cfgFault := rfl
@[simp] theorem State.emitLine_adBusy (s : State) (line : List Byte) : (s.emitLine line).adBusy = s.adBusy := rfl
@[simp] theorem State.emitLine_errflags (s : State) (line : List Byte) : (s.emitLine line).errflags = s.errflags := rfl
@[simp] theorem State.emitLine_iflags (s : State) (line : List Byte) : (s.emitLine line).iflags = s.iflags := rfl
@[simp] theorem State.emitLine_ienable (s : State) (line : List Byte) : (s.emitLine line).ienable = s.ienable := rfl
@[simp] theorem State.emitLine_iprio (s : State) (line : List Byte) : (s.emitLine line).iprio = s.iprio := rfl
@[simp] theorem State.emitLine_gieh (s : State) (line : List Byte) : (s.emitLine line).gieh = s.gieh := rfl
@[simp] theorem State.emitLine_giel (s : State) (line : List Byte) : (s.emitLine line).giel = s.giel := rfl
@[simp] theorem State.emitLine_mode (s : State) (line : List Byte) : (s.emitLine line).mode = s.mode := rfl
@[simp] theorem State.emitLine_reload (s : State) (line : List Byte) : (s.emitLine line).reload = s.reload := rfl
@[simp] theorem State.emitLine_relw (s : State) (line : List Byte) : (s.emitLine line).relw = s.relw := rfl
@[simp] theorem State.emitLine_pr (s : State) (line : List Byte) : (s.emitLine line).pr = s.pr := rfl
@[simp] theorem State.emitLine_dch (s : State) (line : List Byte) : (s.emitLine line).dch = s.dch := rfl
@[simp] theorem State.emitLine_dcl (s : State) (line : List Byte) : (s.emitLine line).dcl = s.dcl := rfl
@[simp] theorem State.emitLine_pwps (s : State) (line : List Byte) : (s.emitLine line).pwps = s.pwps := rfl
@[simp] theorem State.emitLine_svang (s : State) (line : List Byte) : (s.emitLine line).svang = s.svang := rfl
@[simp] theorem State.emitLine_out (s : State) (line : List Byte) : (s.emitLine line).out = s.out := rfl
@[simp] theorem State.emitLine_btncnt (s : State) (line : List Byte) : (s.emitLine line).btncnt = s.btncnt := rfl
@[simp] theorem State.emitLine_tmrcnt (s : State) (line : List Byte) : (s.emitLine line).tmrcnt = s.tmrcnt := rfl
@[simp] theorem State.emitLine_dbncfg (s : State) (line : List Byte) : (s.emitLine line).dbncfg = s.dbncfg := rfl
@[simp] theorem State.emitLine_dbncnt (s : State) (line : List Byte) : (s.emitLine line).dbncnt = s.dbncnt := rfl
@[simp] theorem State.emitLine_armed (s : State) (line : List Byte) : (s.emitLine line).armed = s.armed := rfl
@[simp] theorem State.emitLine_sflast (s : State) (line : List Byte) : (s.emitLine line).sflast = s.sflast := rfl
@[simp] theorem State.emitLine_sfsmooth (s : State) (line : List Byte) : (s.emitLine line).sfsmooth = s.sfsmooth := rfl
@[simp] theorem State.emitLine_inc (s : State) (line : List Byte) : (s.emitLine line).inc = s.inc := rfl
@[simp] theorem State.emitLine_zone (s : State) (line : List Byte) : (s.emitLine line).zone = s.zone := rfl
@[simp] theorem State.emitLine_zcnt (s : State) (line : List Byte) : (s.emitLine line).zcnt = s.zcnt := rfl
@[simp] theorem State.emitLine_blink (s : State) (line : List Byte) : (s.emitLine line).blink = s.blink := rfl
@[simp] theorem State.emitLine_mstate (s : State) (line : List Byte) : (s.emitLine line).mstate = s.mstate := rfl
@[simp] theorem State.emitLine_len (s : State) (line : List Byte) : (s.emitLine line).len = s.len := rfl
@[simp] theorem State.emitLine_lastch (s : State) (line : List Byte) : (s.emitLine line).lastch = s.lastch := rfl
@[simp] theorem State.emitLine_linecnt (s : State) (line : List Byte) : (s.emitLine line).linecnt = s.linecnt + 1 := rfl
@[simp] theorem State.emitLine_rxbyte (s : State) (line : List Byte) : (s.emitLine line).rxbyte = s.rxbyte := rfl
@[simp] theorem State.emitLine_rxoerr (s : State) (line : List Byte) : (s.emitLine line).rxoerr = s.rxoerr := rfl
@[simp] theorem State.emitLine_rxferr (s : State) (line : List Byte) : (s.emitLine line).rxferr = s.rxferr := rfl
@[simp] theorem State.emitLine_adcdata (s : State) (line : List Byte) : (s.emitLine line).adcdata = s.adcdata := rfl
@[simp] theorem State.emitLine_rxrstcnt (s : State) (line : List Byte) : (s.emitLine line).rxrstcnt = s.rxrstcnt := rfl
@[simp] theorem State.emitLine_lbuf (s : State) (line : List Byte) : (s.emitLine line).lbuf = s.lbuf := rfl
@[simp] theorem State.emitLine_stack (s : State) (line : List Byte) : (s.emitLine line).stack = s.stack := rfl
@[simp] theorem State.emitLine_rxWaits (s : State) (line : List Byte) : (s.emitLine line).rxWaits = s.rxWaits := rfl
@[simp] theorem State.emitLine_txq (s : State) (line : List Byte) : (s.emitLine line).txq = s.txq := rfl
@[simp] theorem State.emitLine_tmrload (s : State) (line : List Byte) : (s.emitLine line).tmrload = s.tmrload := rfl
@[simp] theorem State.emitLine_press (s : State) (line : List Byte) : (s.emitLine line).press = s.press := rfl
@[simp] theorem State.emitLine_lines (s : State) (line : List Byte) : (s.emitLine line).lines = s.lines ++ [line] := rfl
@[simp] theorem State.emitLine_rxtoggle (s : State) (line : List Byte) : (s.emitLine line).rxtoggle = s.rxtoggle := rfl
@[simp] theorem State.emitLine_txout (s : State) (line : List Byte) : (s.emitLine line).txout = s.txout := rfl
@[simp] theorem State.emitLine_resp (s : State) (line : List Byte) : (s.emitLine line).resp = s.resp := rfl
@[simp] theorem State.emitLine_params (s : State) (line : List Byte) : (s.emitLine line).params = s.params := rfl
@[simp] theorem State.emitLine_cmdPort (s : State) (line : List Byte) : (s.emitLine line).cmdPort = s.cmdPort := rfl
@[simp] theorem State.emitLine_evtPort (s : State) (line : List Byte) : (s.emitLine line).evtPort = s.evtPort := rfl
@[simp] theorem State.emitLine_turns (s : State) (line : List Byte) : (s.emitLine line).turns = s.turns := rfl

/-! ## endByte -/

@[simp] theorem State.endByte_lasterr (s : State) (b : Byte) : (s.endByte b).lasterr = s.lasterr := rfl
@[simp] theorem State.endByte_cfgFault (s : State) (b : Byte) : (s.endByte b).cfgFault = s.cfgFault := rfl
@[simp] theorem State.endByte_adBusy (s : State) (b : Byte) : (s.endByte b).adBusy = s.adBusy := rfl
@[simp] theorem State.endByte_errflags (s : State) (b : Byte) : (s.endByte b).errflags = s.errflags := rfl
@[simp] theorem State.endByte_iflags (s : State) (b : Byte) : (s.endByte b).iflags = s.iflags := rfl
@[simp] theorem State.endByte_ienable (s : State) (b : Byte) : (s.endByte b).ienable = s.ienable := rfl
@[simp] theorem State.endByte_iprio (s : State) (b : Byte) : (s.endByte b).iprio = s.iprio := rfl
@[simp] theorem State.endByte_gieh (s : State) (b : Byte) : (s.endByte b).gieh = s.gieh := rfl
@[simp] theorem State.endByte_giel (s : State) (b : Byte) : (s.endByte b).giel = s.giel := rfl
@[simp] theorem State.endByte_mode (s : State) (b : Byte) : (s.endByte b).mode = s.mode := rfl
@[simp] theorem State.endByte_reload (s : State) (b : Byte) : (s.endByte b).reload = s.reload := rfl
@[simp] theorem State.endByte_relw (s : State) (b : Byte) : (s.endByte b).relw = s.relw := rfl
@[simp] theorem State.endByte_pr (s : State) (b : Byte) : (s.endByte b).pr = s.pr := rfl
@[simp] theorem State.endByte_dch (s : State) (b : Byte) : (s.endByte b).dch = s.dch := rfl
@[simp] theorem State.endByte_dcl (s : State) (b : Byte) : (s.endByte b).dcl = s.dcl := rfl
@[simp] theorem State.endByte_pwps (s : State) (b : Byte) : (s.endByte b).pwps = s.pwps := rfl
@[simp] theorem State.endByte_svang (s : State) (b : Byte) : (s.endByte b).svang = s.svang := rfl
@[simp] theorem State.endByte_out (s : State) (b : Byte) : (s.endByte b).out = s.out := rfl
@[simp] theorem State.endByte_btncnt (s : State) (b : Byte) : (s.endByte b).btncnt = s.btncnt := rfl
@[simp] theorem State.endByte_tmrcnt (s : State) (b : Byte) : (s.endByte b).tmrcnt = s.tmrcnt := rfl
@[simp] theorem State.endByte_dbncfg (s : State) (b : Byte) : (s.endByte b).dbncfg = s.dbncfg := rfl
@[simp] theorem State.endByte_dbncnt (s : State) (b : Byte) : (s.endByte b).dbncnt = s.dbncnt := rfl
@[simp] theorem State.endByte_armed (s : State) (b : Byte) : (s.endByte b).armed = s.armed := rfl
@[simp] theorem State.endByte_sflast (s : State) (b : Byte) : (s.endByte b).sflast = s.sflast := rfl
@[simp] theorem State.endByte_sfsmooth (s : State) (b : Byte) : (s.endByte b).sfsmooth = s.sfsmooth := rfl
@[simp] theorem State.endByte_inc (s : State) (b : Byte) : (s.endByte b).inc = s.inc := rfl
@[simp] theorem State.endByte_zone (s : State) (b : Byte) : (s.endByte b).zone = s.zone := rfl
@[simp] theorem State.endByte_zcnt (s : State) (b : Byte) : (s.endByte b).zcnt = s.zcnt := rfl
@[simp] theorem State.endByte_blink (s : State) (b : Byte) : (s.endByte b).blink = s.blink := rfl
@[simp] theorem State.endByte_mstate (s : State) (b : Byte) : (s.endByte b).mstate = s.mstate := rfl
@[simp] theorem State.endByte_len (s : State) (b : Byte) : (s.endByte b).len = s.len := rfl
@[simp] theorem State.endByte_lastch (s : State) (b : Byte) : (s.endByte b).lastch = b := rfl
@[simp] theorem State.endByte_linecnt (s : State) (b : Byte) : (s.endByte b).linecnt = s.linecnt := rfl
@[simp] theorem State.endByte_rxbyte (s : State) (b : Byte) : (s.endByte b).rxbyte = s.rxbyte := rfl
@[simp] theorem State.endByte_rxoerr (s : State) (b : Byte) : (s.endByte b).rxoerr = false := rfl
@[simp] theorem State.endByte_rxferr (s : State) (b : Byte) : (s.endByte b).rxferr = false := rfl
@[simp] theorem State.endByte_adcdata (s : State) (b : Byte) : (s.endByte b).adcdata = s.adcdata := rfl
@[simp] theorem State.endByte_rxrstcnt (s : State) (b : Byte) : (s.endByte b).rxrstcnt = s.rxrstcnt := rfl
@[simp] theorem State.endByte_lbuf (s : State) (b : Byte) : (s.endByte b).lbuf = s.lbuf := rfl
@[simp] theorem State.endByte_stack (s : State) (b : Byte) : (s.endByte b).stack = s.stack := rfl
@[simp] theorem State.endByte_rxWaits (s : State) (b : Byte) : (s.endByte b).rxWaits = s.rxWaits := rfl
@[simp] theorem State.endByte_txq (s : State) (b : Byte) : (s.endByte b).txq = s.txq := rfl
@[simp] theorem State.endByte_tmrload (s : State) (b : Byte) : (s.endByte b).tmrload = s.tmrload := rfl
@[simp] theorem State.endByte_press (s : State) (b : Byte) : (s.endByte b).press = s.press := rfl
@[simp] theorem State.endByte_lines (s : State) (b : Byte) : (s.endByte b).lines = s.lines := rfl
@[simp] theorem State.endByte_rxtoggle (s : State) (b : Byte) : (s.endByte b).rxtoggle = s.rxtoggle := rfl
@[simp] theorem State.endByte_txout (s : State) (b : Byte) : (s.endByte b).txout = s.txout := rfl
@[simp] theorem State.endByte_resp (s : State) (b : Byte) : (s.endByte b).resp = s.resp := rfl
@[simp] theorem State.endByte_params (s : State) (b : Byte) : (s.endByte b).params = s.params := rfl
@[simp] theorem State.endByte_cmdPort (s : State) (b : Byte) : (s.endByte b).cmdPort = s.cmdPort := rfl
@[simp] theorem State.endByte_evtPort (s : State) (b : Byte) : (s.endByte b).evtPort = s.evtPort := rfl
@[simp] theorem State.endByte_turns (s : State) (b : Byte) : (s.endByte b).turns = s.turns := rfl

/-! ## setErrflags -/

@[simp] theorem State.setErrflags_lasterr (s : State) (f : BitVec 14) : (s.setErrflags f).lasterr = s.lasterr := rfl
@[simp] theorem State.setErrflags_cfgFault (s : State) (f : BitVec 14) : (s.setErrflags f).cfgFault = s.cfgFault := rfl
@[simp] theorem State.setErrflags_adBusy (s : State) (f : BitVec 14) : (s.setErrflags f).adBusy = s.adBusy := rfl
@[simp] theorem State.setErrflags_errflags (s : State) (f : BitVec 14) : (s.setErrflags f).errflags = f := rfl
@[simp] theorem State.setErrflags_iflags (s : State) (f : BitVec 14) : (s.setErrflags f).iflags = s.iflags := rfl
@[simp] theorem State.setErrflags_ienable (s : State) (f : BitVec 14) : (s.setErrflags f).ienable = s.ienable := rfl
@[simp] theorem State.setErrflags_iprio (s : State) (f : BitVec 14) : (s.setErrflags f).iprio = s.iprio := rfl
@[simp] theorem State.setErrflags_gieh (s : State) (f : BitVec 14) : (s.setErrflags f).gieh = s.gieh := rfl
@[simp] theorem State.setErrflags_giel (s : State) (f : BitVec 14) : (s.setErrflags f).giel = s.giel := rfl
@[simp] theorem State.setErrflags_mode (s : State) (f : BitVec 14) : (s.setErrflags f).mode = s.mode := rfl
@[simp] theorem State.setErrflags_reload (s : State) (f : BitVec 14) : (s.setErrflags f).reload = s.reload := rfl
@[simp] theorem State.setErrflags_relw (s : State) (f : BitVec 14) : (s.setErrflags f).relw = s.relw := rfl
@[simp] theorem State.setErrflags_pr (s : State) (f : BitVec 14) : (s.setErrflags f).pr = s.pr := rfl
@[simp] theorem State.setErrflags_dch (s : State) (f : BitVec 14) : (s.setErrflags f).dch = s.dch := rfl
@[simp] theorem State.setErrflags_dcl (s : State) (f : BitVec 14) : (s.setErrflags f).dcl = s.dcl := rfl
@[simp] theorem State.setErrflags_pwps (s : State) (f : BitVec 14) : (s.setErrflags f).pwps = s.pwps := rfl
@[simp] theorem State.setErrflags_svang (s : State) (f : BitVec 14) : (s.setErrflags f).svang = s.svang := rfl
@[simp] theorem State.setErrflags_out (s : State) (f : BitVec 14) : (s.setErrflags f).out = s.out := rfl
@[simp] theorem State.setErrflags_btncnt (s : State) (f : BitVec 14) : (s.setErrflags f).btncnt = s.btncnt := rfl
@[simp] theorem State.setErrflags_tmrcnt (s : State) (f : BitVec 14) : (s.setErrflags f).tmrcnt = s.tmrcnt := rfl
@[simp] theorem State.setErrflags_dbncfg (s : State) (f : BitVec 14) : (s.setErrflags f).dbncfg = s.dbncfg := rfl
@[simp] theorem State.setErrflags_dbncnt (s : State) (f : BitVec 14) : (s.setErrflags f).dbncnt = s.dbncnt := rfl
@[simp] theorem State.setErrflags_armed (s : State) (f : BitVec 14) : (s.setErrflags f).armed = s.armed := rfl
@[simp] theorem State.setErrflags_sflast (s : State) (f : BitVec 14) : (s.setErrflags f).sflast = s.sflast := rfl
@[simp] theorem State.setErrflags_sfsmooth (s : State) (f : BitVec 14) : (s.setErrflags f).sfsmooth = s.sfsmooth := rfl
@[simp] theorem State.setErrflags_inc (s : State) (f : BitVec 14) : (s.setErrflags f).inc = s.inc := rfl
@[simp] theorem State.setErrflags_zone (s : State) (f : BitVec 14) : (s.setErrflags f).zone = s.zone := rfl
@[simp] theorem State.setErrflags_zcnt (s : State) (f : BitVec 14) : (s.setErrflags f).zcnt = s.zcnt := rfl
@[simp] theorem State.setErrflags_blink (s : State) (f : BitVec 14) : (s.setErrflags f).blink = s.blink := rfl
@[simp] theorem State.setErrflags_mstate (s : State) (f : BitVec 14) : (s.setErrflags f).mstate = s.mstate := rfl
@[simp] theorem State.setErrflags_len (s : State) (f : BitVec 14) : (s.setErrflags f).len = s.len := rfl
@[simp] theorem State.setErrflags_lastch (s : State) (f : BitVec 14) : (s.setErrflags f).lastch = s.lastch := rfl
@[simp] theorem State.setErrflags_linecnt (s : State) (f : BitVec 14) : (s.setErrflags f).linecnt = s.linecnt := rfl
@[simp] theorem State.setErrflags_rxbyte (s : State) (f : BitVec 14) : (s.setErrflags f).rxbyte = s.rxbyte := rfl
@[simp] theorem State.setErrflags_rxoerr (s : State) (f : BitVec 14) : (s.setErrflags f).rxoerr = s.rxoerr := rfl
@[simp] theorem State.setErrflags_rxferr (s : State) (f : BitVec 14) : (s.setErrflags f).rxferr = s.rxferr := rfl
@[simp] theorem State.setErrflags_adcdata (s : State) (f : BitVec 14) : (s.setErrflags f).adcdata = s.adcdata := rfl
@[simp] theorem State.setErrflags_rxrstcnt (s : State) (f : BitVec 14) : (s.setErrflags f).rxrstcnt = s.rxrstcnt := rfl
@[simp] theorem State.setErrflags_lbuf (s : State) (f : BitVec 14) : (s.setErrflags f).lbuf = s.lbuf := rfl
@[simp] theorem State.setErrflags_stack (s : State) (f : BitVec 14) : (s.setErrflags f).stack = s.stack := rfl
@[simp] theorem State.setErrflags_rxWaits (s : State) (f : BitVec 14) : (s.setErrflags f).rxWaits = s.rxWaits := rfl
@[simp] theorem State.setErrflags_txq (s : State) (f : BitVec 14) : (s.setErrflags f).txq = s.txq := rfl
@[simp] theorem State.setErrflags_tmrload (s : State) (f : BitVec 14) : (s.setErrflags f).tmrload = s.tmrload := rfl
@[simp] theorem State.setErrflags_press (s : State) (f : BitVec 14) : (s.setErrflags f).press = s.press := rfl
@[simp] theorem State.setErrflags_lines (s : State) (f : BitVec 14) : (s.setErrflags f).lines = s.lines := rfl
@[simp] theorem State.setErrflags_rxtoggle (s : State) (f : BitVec 14) : (s.setErrflags f).rxtoggle = s.rxtoggle := rfl
@[simp] theorem State.setErrflags_txout (s : State) (f : BitVec 14) : (s.setErrflags f).txout = s.txout := rfl
@[simp] theorem State.setErrflags_resp (s : State) (f : BitVec 14) : (s.setErrflags f).resp = s.resp := rfl
@[simp] theorem State.setErrflags_params (s : State) (f : BitVec 14) : (s.setErrflags f).params = s.params := rfl
@[simp] theorem State.setErrflags_cmdPort (s : State) (f : BitVec 14) : (s.setErrflags f).cmdPort = s.cmdPort := rfl
@[simp] theorem State.setErrflags_evtPort (s : State) (f : BitVec 14) : (s.setErrflags f).evtPort = s.evtPort := rfl
@[simp] theorem State.setErrflags_turns (s : State) (f : BitVec 14) : (s.setErrflags f).turns = s.turns := rfl

/-! ## setIflags -/

@[simp] theorem State.setIflags_lasterr (s : State) (f : BitVec 4) : (s.setIflags f).lasterr = s.lasterr := rfl
@[simp] theorem State.setIflags_cfgFault (s : State) (f : BitVec 4) : (s.setIflags f).cfgFault = s.cfgFault := rfl
@[simp] theorem State.setIflags_adBusy (s : State) (f : BitVec 4) : (s.setIflags f).adBusy = s.adBusy := rfl
@[simp] theorem State.setIflags_errflags (s : State) (f : BitVec 4) : (s.setIflags f).errflags = s.errflags := rfl
@[simp] theorem State.setIflags_iflags (s : State) (f : BitVec 4) : (s.setIflags f).iflags = f := rfl
@[simp] theorem State.setIflags_ienable (s : State) (f : BitVec 4) : (s.setIflags f).ienable = s.ienable := rfl
@[simp] theorem State.setIflags_iprio (s : State) (f : BitVec 4) : (s.setIflags f).iprio = s.iprio := rfl
@[simp] theorem State.setIflags_gieh (s : State) (f : BitVec 4) : (s.setIflags f).gieh = s.gieh := rfl
@[simp] theorem State.setIflags_giel (s : State) (f : BitVec 4) : (s.setIflags f).giel = s.giel := rfl
@[simp] theorem State.setIflags_mode (s : State) (f : BitVec 4) : (s.setIflags f).mode = s.mode := rfl
@[simp] theorem State.setIflags_reload (s : State) (f : BitVec 4) : (s.setIflags f).reload = s.reload := rfl
@[simp] theorem State.setIflags_relw (s : State) (f : BitVec 4) : (s.setIflags f).relw = s.relw := rfl
@[simp] theorem State.setIflags_pr (s : State) (f : BitVec 4) : (s.setIflags f).pr = s.pr := rfl
@[simp] theorem State.setIflags_dch (s : State) (f : BitVec 4) : (s.setIflags f).dch = s.dch := rfl
@[simp] theorem State.setIflags_dcl (s : State) (f : BitVec 4) : (s.setIflags f).dcl = s.dcl := rfl
@[simp] theorem State.setIflags_pwps (s : State) (f : BitVec 4) : (s.setIflags f).pwps = s.pwps := rfl
@[simp] theorem State.setIflags_svang (s : State) (f : BitVec 4) : (s.setIflags f).svang = s.svang := rfl
@[simp] theorem State.setIflags_out (s : State) (f : BitVec 4) : (s.setIflags f).out = s.out := rfl
@[simp] theorem State.setIflags_btncnt (s : State) (f : BitVec 4) : (s.setIflags f).btncnt = s.btncnt := rfl
@[simp] theorem State.setIflags_tmrcnt (s : State) (f : BitVec 4) : (s.setIflags f).tmrcnt = s.tmrcnt := rfl
@[simp] theorem State.setIflags_dbncfg (s : State) (f : BitVec 4) : (s.setIflags f).dbncfg = s.dbncfg := rfl
@[simp] theorem State.setIflags_dbncnt (s : State) (f : BitVec 4) : (s.setIflags f).dbncnt = s.dbncnt := rfl
@[simp] theorem State.setIflags_armed (s : State) (f : BitVec 4) : (s.setIflags f).armed = s.armed := rfl
@[simp] theorem State.setIflags_sflast (s : State) (f : BitVec 4) : (s.setIflags f).sflast = s.sflast := rfl
@[simp] theorem State.setIflags_sfsmooth (s : State) (f : BitVec 4) : (s.setIflags f).sfsmooth = s.sfsmooth := rfl
@[simp] theorem State.setIflags_inc (s : State) (f : BitVec 4) : (s.setIflags f).inc = s.inc := rfl
@[simp] theorem State.setIflags_zone (s : State) (f : BitVec 4) : (s.setIflags f).zone = s.zone := rfl
@[simp] theorem State.setIflags_zcnt (s : State) (f : BitVec 4) : (s.setIflags f).zcnt = s.zcnt := rfl
@[simp] theorem State.setIflags_blink (s : State) (f : BitVec 4) : (s.setIflags f).blink = s.blink := rfl
@[simp] theorem State.setIflags_mstate (s : State) (f : BitVec 4) : (s.setIflags f).mstate = s.mstate := rfl
@[simp] theorem State.setIflags_len (s : State) (f : BitVec 4) : (s.setIflags f).len = s.len := rfl
@[simp] theorem State.setIflags_lastch (s : State) (f : BitVec 4) : (s.setIflags f).lastch = s.lastch := rfl
@[simp] theorem State.setIflags_linecnt (s : State) (f : BitVec 4) : (s.setIflags f).linecnt = s.linecnt := rfl
@[simp] theorem State.setIflags_rxbyte (s : State) (f : BitVec 4) : (s.setIflags f).rxbyte = s.rxbyte := rfl
@[simp] theorem State.setIflags_rxoerr (s : State) (f : BitVec 4) : (s.setIflags f).rxoerr = s.rxoerr := rfl
@[simp] theorem State.setIflags_rxferr (s : State) (f : BitVec 4) : (s.setIflags f).rxferr = s.rxferr := rfl
@[simp] theorem State.setIflags_adcdata (s : State) (f : BitVec 4) : (s.setIflags f).adcdata = s.adcdata := rfl
@[simp] theorem State.setIflags_rxrstcnt (s : State) (f : BitVec 4) : (s.setIflags f).rxrstcnt = s.rxrstcnt := rfl
@[simp] theorem State.setIflags_lbuf (s : State) (f : BitVec 4) : (s.setIflags f).lbuf = s.lbuf := rfl
@[simp] theorem State.setIflags_stack (s : State) (f : BitVec 4) : (s.setIflags f).stack = s.stack := rfl
@[simp] theorem State.setIflags_rxWaits (s : State) (f : BitVec 4) : (s.setIflags f).rxWaits = s.rxWaits := rfl
@[simp] theorem State.setIflags_txq (s : State) (f : BitVec 4) : (s.setIflags f).txq = s.txq := rfl
@[simp] theorem State.setIflags_tmrload (s : State) (f : BitVec 4) : (s.setIflags f).tmrload = s.tmrload := rfl
@[simp] theorem State.setIflags_press (s : State) (f : BitVec 4) : (s.setIflags f).press = s.press := rfl
@[simp] theorem State.setIflags_lines (s : State) (f : BitVec 4) : (s.setIflags f).lines = s.lines := rfl
@[simp] theorem State.setIflags_rxtoggle (s : State) (f : BitVec 4) : (s.setIflags f).rxtoggle = s.rxtoggle := rfl
@[simp] theorem State.setIflags_txout (s : State) (f : BitVec 4) : (s.setIflags f).txout = s.txout := rfl
@[simp] theorem State.setIflags_resp (s : State) (f : BitVec 4) : (s.setIflags f).resp = s.resp := rfl
@[simp] theorem State.setIflags_params (s : State) (f : BitVec 4) : (s.setIflags f).params = s.params := rfl
@[simp] theorem State.setIflags_cmdPort (s : State) (f : BitVec 4) : (s.setIflags f).cmdPort = s.cmdPort := rfl
@[simp] theorem State.setIflags_evtPort (s : State) (f : BitVec 4) : (s.setIflags f).evtPort = s.evtPort := rfl
@[simp] theorem State.setIflags_turns (s : State) (f : BitVec 4) : (s.setIflags f).turns = s.turns := rfl

/-! ## setIenable -/

@[simp] theorem State.setIenable_lasterr (s : State) (f : BitVec 4) : (s.setIenable f).lasterr = s.lasterr := rfl
@[simp] theorem State.setIenable_cfgFault (s : State) (f : BitVec 4) : (s.setIenable f).cfgFault = s.cfgFault := rfl
@[simp] theorem State.setIenable_adBusy (s : State) (f : BitVec 4) : (s.setIenable f).adBusy = s.adBusy := rfl
@[simp] theorem State.setIenable_errflags (s : State) (f : BitVec 4) : (s.setIenable f).errflags = s.errflags := rfl
@[simp] theorem State.setIenable_iflags (s : State) (f : BitVec 4) : (s.setIenable f).iflags = s.iflags := rfl
@[simp] theorem State.setIenable_ienable (s : State) (f : BitVec 4) : (s.setIenable f).ienable = f := rfl
@[simp] theorem State.setIenable_iprio (s : State) (f : BitVec 4) : (s.setIenable f).iprio = s.iprio := rfl
@[simp] theorem State.setIenable_gieh (s : State) (f : BitVec 4) : (s.setIenable f).gieh = s.gieh := rfl
@[simp] theorem State.setIenable_giel (s : State) (f : BitVec 4) : (s.setIenable f).giel = s.giel := rfl
@[simp] theorem State.setIenable_mode (s : State) (f : BitVec 4) : (s.setIenable f).mode = s.mode := rfl
@[simp] theorem State.setIenable_reload (s : State) (f : BitVec 4) : (s.setIenable f).reload = s.reload := rfl
@[simp] theorem State.setIenable_relw (s : State) (f : BitVec 4) : (s.setIenable f).relw = s.relw := rfl
@[simp] theorem State.setIenable_pr (s : State) (f : BitVec 4) : (s.setIenable f).pr = s.pr := rfl
@[simp] theorem State.setIenable_dch (s : State) (f : BitVec 4) : (s.setIenable f).dch = s.dch := rfl
@[simp] theorem State.setIenable_dcl (s : State) (f : BitVec 4) : (s.setIenable f).dcl = s.dcl := rfl
@[simp] theorem State.setIenable_pwps (s : State) (f : BitVec 4) : (s.setIenable f).pwps = s.pwps := rfl
@[simp] theorem State.setIenable_svang (s : State) (f : BitVec 4) : (s.setIenable f).svang = s.svang := rfl
@[simp] theorem State.setIenable_out (s : State) (f : BitVec 4) : (s.setIenable f).out = s.out := rfl
@[simp] theorem State.setIenable_btncnt (s : State) (f : BitVec 4) : (s.setIenable f).btncnt = s.btncnt := rfl
@[simp] theorem State.setIenable_tmrcnt (s : State) (f : BitVec 4) : (s.setIenable f).tmrcnt = s.tmrcnt := rfl
@[simp] theorem State.setIenable_dbncfg (s : State) (f : BitVec 4) : (s.setIenable f).dbncfg = s.dbncfg := rfl
@[simp] theorem State.setIenable_dbncnt (s : State) (f : BitVec 4) : (s.setIenable f).dbncnt = s.dbncnt := rfl
@[simp] theorem State.setIenable_armed (s : State) (f : BitVec 4) : (s.setIenable f).armed = s.armed := rfl
@[simp] theorem State.setIenable_sflast (s : State) (f : BitVec 4) : (s.setIenable f).sflast = s.sflast := rfl
@[simp] theorem State.setIenable_sfsmooth (s : State) (f : BitVec 4) : (s.setIenable f).sfsmooth = s.sfsmooth := rfl
@[simp] theorem State.setIenable_inc (s : State) (f : BitVec 4) : (s.setIenable f).inc = s.inc := rfl
@[simp] theorem State.setIenable_zone (s : State) (f : BitVec 4) : (s.setIenable f).zone = s.zone := rfl
@[simp] theorem State.setIenable_zcnt (s : State) (f : BitVec 4) : (s.setIenable f).zcnt = s.zcnt := rfl
@[simp] theorem State.setIenable_blink (s : State) (f : BitVec 4) : (s.setIenable f).blink = s.blink := rfl
@[simp] theorem State.setIenable_mstate (s : State) (f : BitVec 4) : (s.setIenable f).mstate = s.mstate := rfl
@[simp] theorem State.setIenable_len (s : State) (f : BitVec 4) : (s.setIenable f).len = s.len := rfl
@[simp] theorem State.setIenable_lastch (s : State) (f : BitVec 4) : (s.setIenable f).lastch = s.lastch := rfl
@[simp] theorem State.setIenable_linecnt (s : State) (f : BitVec 4) : (s.setIenable f).linecnt = s.linecnt := rfl
@[simp] theorem State.setIenable_rxbyte (s : State) (f : BitVec 4) : (s.setIenable f).rxbyte = s.rxbyte := rfl
@[simp] theorem State.setIenable_rxoerr (s : State) (f : BitVec 4) : (s.setIenable f).rxoerr = s.rxoerr := rfl
@[simp] theorem State.setIenable_rxferr (s : State) (f : BitVec 4) : (s.setIenable f).rxferr = s.rxferr := rfl
@[simp] theorem State.setIenable_adcdata (s : State) (f : BitVec 4) : (s.setIenable f).adcdata = s.adcdata := rfl
@[simp] theorem State.setIenable_rxrstcnt (s : State) (f : BitVec 4) : (s.setIenable f).rxrstcnt = s.rxrstcnt := rfl
@[simp] theorem State.setIenable_lbuf (s : State) (f : BitVec 4) : (s.setIenable f).lbuf = s.lbuf := rfl
@[simp] theorem State.setIenable_stack (s : State) (f : BitVec 4) : (s.setIenable f).stack = s.stack := rfl
@[simp] theorem State.setIenable_rxWaits (s : State) (f : BitVec 4) : (s.setIenable f).rxWaits = s.rxWaits := rfl
@[simp] theorem State.setIenable_txq (s : State) (f : BitVec 4) : (s.setIenable f).txq = s.txq := rfl
@[simp] theorem State.setIenable_tmrload (s : State) (f : BitVec 4) : (s.setIenable f).tmrload = s.tmrload := rfl
@[simp] theorem State.setIenable_press (s : State) (f : BitVec 4) : (s.setIenable f).press = s.press := rfl
@[simp] theorem State.setIenable_lines (s : State) (f : BitVec 4) : (s.setIenable f).lines = s.lines := rfl
@[simp] theorem State.setIenable_rxtoggle (s : State) (f : BitVec 4) : (s.setIenable f).rxtoggle = s.rxtoggle := rfl
@[simp] theorem State.setIenable_txout (s : State) (f : BitVec 4) : (s.setIenable f).txout = s.txout := rfl
@[simp] theorem State.setIenable_resp (s : State) (f : BitVec 4) : (s.setIenable f).resp = s.resp := rfl
@[simp] theorem State.setIenable_params (s : State) (f : BitVec 4) : (s.setIenable f).params = s.params := rfl
@[simp] theorem State.setIenable_cmdPort (s : State) (f : BitVec 4) : (s.setIenable f).cmdPort = s.cmdPort := rfl
@[simp] theorem State.setIenable_evtPort (s : State) (f : BitVec 4) : (s.setIenable f).evtPort = s.evtPort := rfl
@[simp] theorem State.setIenable_turns (s : State) (f : BitVec 4) : (s.setIenable f).turns = s.turns := rfl

/-! ## setIprio -/

@[simp] theorem State.setIprio_lasterr (s : State) (f : BitVec 4) : (s.setIprio f).lasterr = s.lasterr := rfl
@[simp] theorem State.setIprio_cfgFault (s : State) (f : BitVec 4) : (s.setIprio f).cfgFault = s.cfgFault := rfl
@[simp] theorem State.setIprio_adBusy (s : State) (f : BitVec 4) : (s.setIprio f).adBusy = s.adBusy := rfl
@[simp] theorem State.setIprio_errflags (s : State) (f : BitVec 4) : (s.setIprio f).errflags = s.errflags := rfl
@[simp] theorem State.setIprio_iflags (s : State) (f : BitVec 4) : (s.setIprio f).iflags = s.iflags := rfl
@[simp] theorem State.setIprio_ienable (s : State) (f : BitVec 4) : (s.setIprio f).ienable = s.ienable := rfl
@[simp] theorem State.setIprio_iprio (s : State) (f : BitVec 4) : (s.setIprio f).iprio = f := rfl
@[simp] theorem State.setIprio_gieh (s : State) (f : BitVec 4) : (s.setIprio f).gieh = s.gieh := rfl
@[simp] theorem State.setIprio_giel (s : State) (f : BitVec 4) : (s.setIprio f).giel = s.giel := rfl
@[simp] theorem State.setIprio_mode (s : State) (f : BitVec 4) : (s.setIprio f).mode = s.mode := rfl
@[simp] theorem State.setIprio_reload (s : State) (f : BitVec 4) : (s.setIprio f).reload = s.reload := rfl
@[simp] theorem State.setIprio_relw (s : State) (f : BitVec 4) : (s.setIprio f).relw = s.relw := rfl
@[simp] theorem State.setIprio_pr (s : State) (f : BitVec 4) : (s.setIprio f).pr = s.pr := rfl
@[simp] theorem State.setIprio_dch (s : State) (f : BitVec 4) : (s.setIprio f).dch = s.dch := rfl
@[simp] theorem State.setIprio_dcl (s : State) (f : BitVec 4) : (s.setIprio f).dcl = s.dcl := rfl
@[simp] theorem State.setIprio_pwps (s : State) (f : BitVec 4) : (s.setIprio f).pwps = s.pwps := rfl
@[simp] theorem State.setIprio_svang (s : State) (f : BitVec 4) : (s.setIprio f).svang = s.svang := rfl
@[simp] theorem State.setIprio_out (s : State) (f : BitVec 4) : (s.setIprio f).out = s.out := rfl
@[simp] theorem State.setIprio_btncnt (s : State) (f : BitVec 4) : (s.setIprio f).btncnt = s.btncnt := rfl
@[simp] theorem State.setIprio_tmrcnt (s : State) (f : BitVec 4) : (s.setIprio f).tmrcnt = s.tmrcnt := rfl
@[simp] theorem State.setIprio_dbncfg (s : State) (f : BitVec 4) : (s.setIprio f).dbncfg = s.dbncfg := rfl
@[simp] theorem State.setIprio_dbncnt (s : State) (f : BitVec 4) : (s.setIprio f).dbncnt = s.dbncnt := rfl
@[simp] theorem State.setIprio_armed (s : State) (f : BitVec 4) : (s.setIprio f).armed = s.armed := rfl
@[simp] theorem State.setIprio_sflast (s : State) (f : BitVec 4) : (s.setIprio f).sflast = s.sflast := rfl
@[simp] theorem State.setIprio_sfsmooth (s : State) (f : BitVec 4) : (s.setIprio f).sfsmooth = s.sfsmooth := rfl
@[simp] theorem State.setIprio_inc (s : State) (f : BitVec 4) : (s.setIprio f).inc = s.inc := rfl
@[simp] theorem State.setIprio_zone (s : State) (f : BitVec 4) : (s.setIprio f).zone = s.zone := rfl
@[simp] theorem State.setIprio_zcnt (s : State) (f : BitVec 4) : (s.setIprio f).zcnt = s.zcnt := rfl
@[simp] theorem State.setIprio_blink (s : State) (f : BitVec 4) : (s.setIprio f).blink = s.blink := rfl
@[simp] theorem State.setIprio_mstate (s : State) (f : BitVec 4) : (s.setIprio f).mstate = s.mstate := rfl
@[simp] theorem State.setIprio_len (s : State) (f : BitVec 4) : (s.setIprio f).len = s.len := rfl
@[simp] theorem State.setIprio_lastch (s : State) (f : BitVec 4) : (s.setIprio f).lastch = s.lastch := rfl
@[simp] theorem State.setIprio_linecnt (s : State) (f : BitVec 4) : (s.setIprio f).linecnt = s.linecnt := rfl
@[simp] theorem State.setIprio_rxbyte (s : State) (f : BitVec 4) : (s.setIprio f).rxbyte = s.rxbyte := rfl
@[simp] theorem State.setIprio_rxoerr (s : State) (f : BitVec 4) : (s.setIprio f).rxoerr = s.rxoerr := rfl
@[simp] theorem State.setIprio_rxferr (s : State) (f : BitVec 4) : (s.setIprio f).rxferr = s.rxferr := rfl
@[simp] theorem State.setIprio_adcdata (s : State) (f : BitVec 4) : (s.setIprio f).adcdata = s.adcdata := rfl
@[simp] theorem State.setIprio_rxrstcnt (s : State) (f : BitVec 4) : (s.setIprio f).rxrstcnt = s.rxrstcnt := rfl
@[simp] theorem State.setIprio_lbuf (s : State) (f : BitVec 4) : (s.setIprio f).lbuf = s.lbuf := rfl
@[simp] theorem State.setIprio_stack (s : State) (f : BitVec 4) : (s.setIprio f).stack = s.stack := rfl
@[simp] theorem State.setIprio_rxWaits (s : State) (f : BitVec 4) : (s.setIprio f).rxWaits = s.rxWaits := rfl
@[simp] theorem State.setIprio_txq (s : State) (f : BitVec 4) : (s.setIprio f).txq = s.txq := rfl
@[simp] theorem State.setIprio_tmrload (s : State) (f : BitVec 4) : (s.setIprio f).tmrload = s.tmrload := rfl
@[simp] theorem State.setIprio_press (s : State) (f : BitVec 4) : (s.setIprio f).press = s.press := rfl
@[simp] theorem State.setIprio_lines (s : State) (f : BitVec 4) : (s.setIprio f).lines = s.lines := rfl
@[simp] theorem State.setIprio_rxtoggle (s : State) (f : BitVec 4) : (s.setIprio f).rxtoggle = s.rxtoggle := rfl
@[simp] theorem State.setIprio_txout (s : State) (f : BitVec 4) : (s.setIprio f).txout = s.txout := rfl
@[simp] theorem State.setIprio_resp (s : State) (f : BitVec 4) : (s.setIprio f).resp = s.resp := rfl
@[simp] theorem State.setIprio_params (s : State) (f : BitVec 4) : (s.setIprio f).params = s.params := rfl
@[simp] theorem State.setIprio_cmdPort (s : State) (f : BitVec 4) : (s.setIprio f).cmdPort = s.cmdPort := rfl
@[simp] theorem State.setIprio_evtPort (s : State) (f : BitVec 4) : (s.setIprio f).evtPort = s.evtPort := rfl
@[simp] theorem State.setIprio_turns (s : State) (f : BitVec 4) : (s.setIprio f).turns = s.turns := rfl

/-! ## setGie -/

@[simp] theorem State.setGie_lasterr (s : State) (h l : Bool) : (s.setGie h l).lasterr = s.lasterr := rfl
@[simp] theorem State.setGie_cfgFault (s : State) (h l : Bool) : (s.setGie h l).cfgFault = s.cfgFault := rfl
@[simp] theorem State.setGie_adBusy (s : State) (h l : Bool) : (s.setGie h l).adBusy = s.adBusy := rfl
@[simp] theorem State.setGie_errflags (s : State) (h l : Bool) : (s.setGie h l).errflags = s.errflags := rfl
@[simp] theorem State.setGie_iflags (s : State) (h l : Bool) : (s.setGie h l).iflags = s.iflags := rfl
@[simp] theorem State.setGie_ienable (s : State) (h l : Bool) : (s.setGie h l).ienable = s.ienable := rfl
@[simp] theorem State.setGie_iprio (s : State) (h l : Bool) : (s.setGie h l).iprio = s.iprio := rfl
@[simp] theorem State.setGie_gieh (s : State) (h l : Bool) : (s.setGie h l).gieh = h := rfl
@[simp] theorem State.setGie_giel (s : State) (h l : Bool) : (s.setGie h l).giel = l := rfl
@[simp] theorem State.setGie_mode (s : State) (h l : Bool) : (s.setGie h l).mode = s.mode := rfl
@[simp] theorem State.setGie_reload (s : State) (h l : Bool) : (s.setGie h l).reload = s.reload := rfl
@[simp] theorem State.setGie_relw (s : State) (h l : Bool) : (s.setGie h l).relw = s.relw := rfl
@[simp] theorem State.setGie_pr (s : State) (h l : Bool) : (s.setGie h l).pr = s.pr := rfl
@[simp] theorem State.setGie_dch (s : State) (h l : Bool) : (s.setGie h l).dch = s.dch := rfl
@[simp] theorem State.setGie_dcl (s : State) (h l : Bool) : (s.setGie h l).dcl = s.dcl := rfl
@[simp] theorem State.setGie_pwps (s : State) (h l : Bool) : (s.setGie h l).pwps = s.pwps := rfl
@[simp] theorem State.setGie_svang (s : State) (h l : Bool) : (s.setGie h l).svang = s.svang := rfl
@[simp] theorem State.setGie_out (s : State) (h l : Bool) : (s.setGie h l).out = s.out := rfl
@[simp] theorem State.setGie_btncnt (s : State) (h l : Bool) : (s.setGie h l).btncnt = s.btncnt := rfl
@[simp] theorem State.setGie_tmrcnt (s : State) (h l : Bool) : (s.setGie h l).tmrcnt = s.tmrcnt := rfl
@[simp] theorem State.setGie_dbncfg (s : State) (h l : Bool) : (s.setGie h l).dbncfg = s.dbncfg := rfl
@[simp] theorem State.setGie_dbncnt (s : State) (h l : Bool) : (s.setGie h l).dbncnt = s.dbncnt := rfl
@[simp] theorem State.setGie_armed (s : State) (h l : Bool) : (s.setGie h l).armed = s.armed := rfl
@[simp] theorem State.setGie_sflast (s : State) (h l : Bool) : (s.setGie h l).sflast = s.sflast := rfl
@[simp] theorem State.setGie_sfsmooth (s : State) (h l : Bool) : (s.setGie h l).sfsmooth = s.sfsmooth := rfl
@[simp] theorem State.setGie_inc (s : State) (h l : Bool) : (s.setGie h l).inc = s.inc := rfl
@[simp] theorem State.setGie_zone (s : State) (h l : Bool) : (s.setGie h l).zone = s.zone := rfl
@[simp] theorem State.setGie_zcnt (s : State) (h l : Bool) : (s.setGie h l).zcnt = s.zcnt := rfl
@[simp] theorem State.setGie_blink (s : State) (h l : Bool) : (s.setGie h l).blink = s.blink := rfl
@[simp] theorem State.setGie_mstate (s : State) (h l : Bool) : (s.setGie h l).mstate = s.mstate := rfl
@[simp] theorem State.setGie_len (s : State) (h l : Bool) : (s.setGie h l).len = s.len := rfl
@[simp] theorem State.setGie_lastch (s : State) (h l : Bool) : (s.setGie h l).lastch = s.lastch := rfl
@[simp] theorem State.setGie_linecnt (s : State) (h l : Bool) : (s.setGie h l).linecnt = s.linecnt := rfl
@[simp] theorem State.setGie_rxbyte (s : State) (h l : Bool) : (s.setGie h l).rxbyte = s.rxbyte := rfl
@[simp] theorem State.setGie_rxoerr (s : State) (h l : Bool) : (s.setGie h l).rxoerr = s.rxoerr := rfl
@[simp] theorem State.setGie_rxferr (s : State) (h l : Bool) : (s.setGie h l).rxferr = s.rxferr := rfl
@[simp] theorem State.setGie_adcdata (s : State) (h l : Bool) : (s.setGie h l).adcdata = s.adcdata := rfl
@[simp] theorem State.setGie_rxrstcnt (s : State) (h l : Bool) : (s.setGie h l).rxrstcnt = s.rxrstcnt := rfl
@[simp] theorem State.setGie_lbuf (s : State) (h l : Bool) : (s.setGie h l).lbuf = s.lbuf := rfl
@[simp] theorem State.setGie_stack (s : State) (h l : Bool) : (s.setGie h l).stack = s.stack := rfl
@[simp] theorem State.setGie_rxWaits (s : State) (h l : Bool) : (s.setGie h l).rxWaits = s.rxWaits := rfl
@[simp] theorem State.setGie_txq (s : State) (h l : Bool) : (s.setGie h l).txq = s.txq := rfl
@[simp] theorem State.setGie_tmrload (s : State) (h l : Bool) : (s.setGie h l).tmrload = s.tmrload := rfl
@[simp] theorem State.setGie_press (s : State) (h l : Bool) : (s.setGie h l).press = s.press := rfl
@[simp] theorem State.setGie_lines (s : State) (h l : Bool) : (s.setGie h l).lines = s.lines := rfl
@[simp] theorem State.setGie_rxtoggle (s : State) (h l : Bool) : (s.setGie h l).rxtoggle = s.rxtoggle := rfl
@[simp] theorem State.setGie_txout (s : State) (h l : Bool) : (s.setGie h l).txout = s.txout := rfl
@[simp] theorem State.setGie_resp (s : State) (h l : Bool) : (s.setGie h l).resp = s.resp := rfl
@[simp] theorem State.setGie_params (s : State) (h l : Bool) : (s.setGie h l).params = s.params := rfl
@[simp] theorem State.setGie_cmdPort (s : State) (h l : Bool) : (s.setGie h l).cmdPort = s.cmdPort := rfl
@[simp] theorem State.setGie_evtPort (s : State) (h l : Bool) : (s.setGie h l).evtPort = s.evtPort := rfl
@[simp] theorem State.setGie_turns (s : State) (h l : Bool) : (s.setGie h l).turns = s.turns := rfl

/-! ## setMode -/

@[simp] theorem State.setMode_lasterr (s : State) (m : Mode) : (s.setMode m).lasterr = s.lasterr := rfl
@[simp] theorem State.setMode_cfgFault (s : State) (m : Mode) : (s.setMode m).cfgFault = s.cfgFault := rfl
@[simp] theorem State.setMode_adBusy (s : State) (m : Mode) : (s.setMode m).adBusy = s.adBusy := rfl
@[simp] theorem State.setMode_errflags (s : State) (m : Mode) : (s.setMode m).errflags = s.errflags := rfl
@[simp] theorem State.setMode_iflags (s : State) (m : Mode) : (s.setMode m).iflags = s.iflags := rfl
@[simp] theorem State.setMode_ienable (s : State) (m : Mode) : (s.setMode m).ienable = s.ienable := rfl
@[simp] theorem State.setMode_iprio (s : State) (m : Mode) : (s.setMode m).iprio = s.iprio := rfl
@[simp] theorem State.setMode_gieh (s : State) (m : Mode) : (s.setMode m).gieh = s.gieh := rfl
@[simp] theorem State.setMode_giel (s : State) (m : Mode) : (s.setMode m).giel = s.giel := rfl
@[simp] theorem State.setMode_mode (s : State) (m : Mode) : (s.setMode m).mode = m := rfl
@[simp] theorem State.setMode_reload (s : State) (m : Mode) : (s.setMode m).reload = s.reload := rfl
@[simp] theorem State.setMode_relw (s : State) (m : Mode) : (s.setMode m).relw = s.relw := rfl
@[simp] theorem State.setMode_pr (s : State) (m : Mode) : (s.setMode m).pr = s.pr := rfl
@[simp] theorem State.setMode_dch (s : State) (m : Mode) : (s.setMode m).dch = s.dch := rfl
@[simp] theorem State.setMode_dcl (s : State) (m : Mode) : (s.setMode m).dcl = s.dcl := rfl
@[simp] theorem State.setMode_pwps (s : State) (m : Mode) : (s.setMode m).pwps = s.pwps := rfl
@[simp] theorem State.setMode_svang (s : State) (m : Mode) : (s.setMode m).svang = s.svang := rfl
@[simp] theorem State.setMode_out (s : State) (m : Mode) : (s.setMode m).out = s.out := rfl
@[simp] theorem State.setMode_btncnt (s : State) (m : Mode) : (s.setMode m).btncnt = s.btncnt := rfl
@[simp] theorem State.setMode_tmrcnt (s : State) (m : Mode) : (s.setMode m).tmrcnt = s.tmrcnt := rfl
@[simp] theorem State.setMode_dbncfg (s : State) (m : Mode) : (s.setMode m).dbncfg = s.dbncfg := rfl
@[simp] theorem State.setMode_dbncnt (s : State) (m : Mode) : (s.setMode m).dbncnt = s.dbncnt := rfl
@[simp] theorem State.setMode_armed (s : State) (m : Mode) : (s.setMode m).armed = s.armed := rfl
@[simp] theorem State.setMode_sflast (s : State) (m : Mode) : (s.setMode m).sflast = s.sflast := rfl
@[simp] theorem State.setMode_sfsmooth (s : State) (m : Mode) : (s.setMode m).sfsmooth = s.sfsmooth := rfl
@[simp] theorem State.setMode_inc (s : State) (m : Mode) : (s.setMode m).inc = s.inc := rfl
@[simp] theorem State.setMode_zone (s : State) (m : Mode) : (s.setMode m).zone = s.zone := rfl
@[simp] theorem State.setMode_zcnt (s : State) (m : Mode) : (s.setMode m).zcnt = s.zcnt := rfl
@[simp] theorem State.setMode_blink (s : State) (m : Mode) : (s.setMode m).blink = s.blink := rfl
@[simp] theorem State.setMode_mstate (s : State) (m : Mode) : (s.setMode m).mstate = s.mstate := rfl
@[simp] theorem State.setMode_len (s : State) (m : Mode) : (s.setMode m).len = s.len := rfl
@[simp] theorem State.setMode_lastch (s : State) (m : Mode) : (s.setMode m).lastch = s.lastch := rfl
@[simp] theorem State.setMode_linecnt (s : State) (m : Mode) : (s.setMode m).linecnt = s.linecnt := rfl
@[simp] theorem State.setMode_rxbyte (s : State) (m : Mode) : (s.setMode m).rxbyte = s.rxbyte := rfl
@[simp] theorem State.setMode_rxoerr (s : State) (m : Mode) : (s.setMode m).rxoerr = s.rxoerr := rfl
@[simp] theorem State.setMode_rxferr (s : State) (m : Mode) : (s.setMode m).rxferr = s.rxferr := rfl
@[simp] theorem State.setMode_adcdata (s : State) (m : Mode) : (s.setMode m).adcdata = s.adcdata := rfl
@[simp] theorem State.setMode_rxrstcnt (s : State) (m : Mode) : (s.setMode m).rxrstcnt = s.rxrstcnt := rfl
@[simp] theorem State.setMode_lbuf (s : State) (m : Mode) : (s.setMode m).lbuf = s.lbuf := rfl
@[simp] theorem State.setMode_stack (s : State) (m : Mode) : (s.setMode m).stack = s.stack := rfl
@[simp] theorem State.setMode_rxWaits (s : State) (m : Mode) : (s.setMode m).rxWaits = s.rxWaits := rfl
@[simp] theorem State.setMode_txq (s : State) (m : Mode) : (s.setMode m).txq = s.txq := rfl
@[simp] theorem State.setMode_tmrload (s : State) (m : Mode) : (s.setMode m).tmrload = s.tmrload := rfl
@[simp] theorem State.setMode_press (s : State) (m : Mode) : (s.setMode m).press = s.press := rfl
@[simp] theorem State.setMode_lines (s : State) (m : Mode) : (s.setMode m).lines = s.lines := rfl
@[simp] theorem State.setMode_rxtoggle (s : State) (m : Mode) : (s.setMode m).rxtoggle = s.rxtoggle := rfl
@[simp] theorem State.setMode_txout (s : State) (m : Mode) : (s.setMode m).txout = s.txout := rfl
@[simp] theorem State.setMode_resp (s : State) (m : Mode) : (s.setMode m).resp = s.resp := rfl
@[simp] theorem State.setMode_params (s : State) (m : Mode) : (s.setMode m).params = s.params := rfl
@[simp] theorem State.setMode_cmdPort (s : State) (m : Mode) : (s.setMode m).cmdPort = s.cmdPort := rfl
@[simp] theorem State.setMode_evtPort (s : State) (m : Mode) : (s.setMode m).evtPort = s.evtPort := rfl
@[simp] theorem State.setMode_turns (s : State) (m : Mode) : (s.setMode m).turns = s.turns := rfl

/-! ## setPeriod -/

@[simp] theorem State.setPeriod_lasterr (s : State) (p : Byte) : (s.setPeriod p).lasterr = s.lasterr := rfl
@[simp] theorem State.setPeriod_cfgFault (s : State) (p : Byte) : (s.setPeriod p).cfgFault = s.cfgFault := rfl
@[simp] theorem State.setPeriod_adBusy (s : State) (p : Byte) : (s.setPeriod p).adBusy = s.adBusy := rfl
@[simp] theorem State.setPeriod_errflags (s : State) (p : Byte) : (s.setPeriod p).errflags = s.errflags := rfl
@[simp] theorem State.setPeriod_iflags (s : State) (p : Byte) : (s.setPeriod p).iflags = s.iflags := rfl
@[simp] theorem State.setPeriod_ienable (s : State) (p : Byte) : (s.setPeriod p).ienable = s.ienable := rfl
@[simp] theorem State.setPeriod_iprio (s : State) (p : Byte) : (s.setPeriod p).iprio = s.iprio := rfl
@[simp] theorem State.setPeriod_gieh (s : State) (p : Byte) : (s.setPeriod p).gieh = s.gieh := rfl
@[simp] theorem State.setPeriod_giel (s : State) (p : Byte) : (s.setPeriod p).giel = s.giel := rfl
@[simp] theorem State.setPeriod_mode (s : State) (p : Byte) : (s.setPeriod p).mode = s.mode := rfl
@[simp] theorem State.setPeriod_reload (s : State) (p : Byte) : (s.setPeriod p).reload = s.reload := rfl
@[simp] theorem State.setPeriod_relw (s : State) (p : Byte) : (s.setPeriod p).relw = s.relw := rfl
@[simp] theorem State.setPeriod_pr (s : State) (p : Byte) : (s.setPeriod p).pr = p := rfl
@[simp] theorem State.setPeriod_dch (s : State) (p : Byte) : (s.setPeriod p).dch = s.dch := rfl
@[simp] theorem State.setPeriod_dcl (s : State) (p : Byte) : (s.setPeriod p).dcl = s.dcl := rfl
@[simp] theorem State.setPeriod_pwps (s : State) (p : Byte) : (s.setPeriod p).pwps = s.pwps := rfl
@[simp] theorem State.setPeriod_svang (s : State) (p : Byte) : (s.setPeriod p).svang = s.svang := rfl
@[simp] theorem State.setPeriod_out (s : State) (p : Byte) : (s.setPeriod p).out = s.out := rfl
@[simp] theorem State.setPeriod_btncnt (s : State) (p : Byte) : (s.setPeriod p).btncnt = s.btncnt := rfl
@[simp] theorem State.setPeriod_tmrcnt (s : State) (p : Byte) : (s.setPeriod p).tmrcnt = s.tmrcnt := rfl
@[simp] theorem State.setPeriod_dbncfg (s : State) (p : Byte) : (s.setPeriod p).dbncfg = s.dbncfg := rfl
@[simp] theorem State.setPeriod_dbncnt (s : State) (p : Byte) : (s.setPeriod p).dbncnt = s.dbncnt := rfl
@[simp] theorem State.setPeriod_armed (s : State) (p : Byte) : (s.setPeriod p).armed = s.armed := rfl
@[simp] theorem State.setPeriod_sflast (s : State) (p : Byte) : (s.setPeriod p).sflast = s.sflast := rfl
@[simp] theorem State.setPeriod_sfsmooth (s : State) (p : Byte) : (s.setPeriod p).sfsmooth = s.sfsmooth := rfl
@[simp] theorem State.setPeriod_inc (s : State) (p : Byte) : (s.setPeriod p).inc = s.inc := rfl
@[simp] theorem State.setPeriod_zone (s : State) (p : Byte) : (s.setPeriod p).zone = s.zone := rfl
@[simp] theorem State.setPeriod_zcnt (s : State) (p : Byte) : (s.setPeriod p).zcnt = s.zcnt := rfl
@[simp] theorem State.setPeriod_blink (s : State) (p : Byte) : (s.setPeriod p).blink = s.blink := rfl
@[simp] theorem State.setPeriod_mstate (s : State) (p : Byte) : (s.setPeriod p).mstate = s.mstate := rfl
@[simp] theorem State.setPeriod_len (s : State) (p : Byte) : (s.setPeriod p).len = s.len := rfl
@[simp] theorem State.setPeriod_lastch (s : State) (p : Byte) : (s.setPeriod p).lastch = s.lastch := rfl
@[simp] theorem State.setPeriod_linecnt (s : State) (p : Byte) : (s.setPeriod p).linecnt = s.linecnt := rfl
@[simp] theorem State.setPeriod_rxbyte (s : State) (p : Byte) : (s.setPeriod p).rxbyte = s.rxbyte := rfl
@[simp] theorem State.setPeriod_rxoerr (s : State) (p : Byte) : (s.setPeriod p).rxoerr = s.rxoerr := rfl
@[simp] theorem State.setPeriod_rxferr (s : State) (p : Byte) : (s.setPeriod p).rxferr = s.rxferr := rfl
@[simp] theorem State.setPeriod_adcdata (s : State) (p : Byte) : (s.setPeriod p).adcdata = s.adcdata := rfl
@[simp] theorem State.setPeriod_rxrstcnt (s : State) (p : Byte) : (s.setPeriod p).rxrstcnt = s.rxrstcnt := rfl
@[simp] theorem State.setPeriod_lbuf (s : State) (p : Byte) : (s.setPeriod p).lbuf = s.lbuf := rfl
@[simp] theorem State.setPeriod_stack (s : State) (p : Byte) : (s.setPeriod p).stack = s.stack := rfl
@[simp] theorem State.setPeriod_rxWaits (s : State) (p : Byte) : (s.setPeriod p).rxWaits = s.rxWaits := rfl
@[simp] theorem State.setPeriod_txq (s : State) (p : Byte) : (s.setPeriod p).txq = s.txq := rfl
@[simp] theorem State.setPeriod_tmrload (s : State) (p : Byte) : (s.setPeriod p).tmrload = s.tmrload := rfl
@[simp] theorem State.setPeriod_press (s : State) (p : Byte) : (s.setPeriod p).press = s.press := rfl
@[simp] theorem State.setPeriod_lines (s : State) (p : Byte) : (s.setPeriod p).lines = s.lines := rfl
@[simp] theorem State.setPeriod_rxtoggle (s : State) (p : Byte) : (s.setPeriod p).rxtoggle = s.rxtoggle := rfl
@[simp] theorem State.setPeriod_txout (s : State) (p : Byte) : (s.setPeriod p).txout = s.txout := rfl
@[simp] theorem State.setPeriod_resp (s : State) (p : Byte) : (s.setPeriod p).resp = s.resp := rfl
@[simp] theorem State.setPeriod_params (s : State) (p : Byte) : (s.setPeriod p).params = s.params := rfl
@[simp] theorem State.setPeriod_cmdPort (s : State) (p : Byte) : (s.setPeriod p).cmdPort = s.cmdPort := rfl
@[simp] theorem State.setPeriod_evtPort (s : State) (p : Byte) : (s.setPeriod p).evtPort = s.evtPort := rfl
@[simp] theorem State.setPeriod_turns (s : State) (p : Byte) : (s.setPeriod p).turns = s.turns := rfl

/-! ## setPwps -/

@[simp] theorem State.setPwps_lasterr (s : State) (p : BitVec 16) : (s.setPwps p).lasterr = s.lasterr := rfl
@[simp] theorem State.setPwps_cfgFault (s : State) (p : BitVec 16) : (s.setPwps p).cfgFault = s.cfgFault := rfl
@[simp] theorem State.setPwps_adBusy (s : State) (p : BitVec 16) : (s.setPwps p).adBusy = s.adBusy := rfl
@[simp] theorem State.setPwps_errflags (s : State) (p : BitVec 16) : (s.setPwps p).errflags = s.errflags := rfl
@[simp] theorem State.setPwps_iflags (s : State) (p : BitVec 16) : (s.setPwps p).iflags = s.iflags := rfl
@[simp] theorem State.setPwps_ienable (s : State) (p : BitVec 16) : (s.setPwps p).ienable = s.ienable := rfl
@[simp] theorem State.setPwps_iprio (s : State) (p : BitVec 16) : (s.setPwps p).iprio = s.iprio := rfl
@[simp] theorem State.setPwps_gieh (s : State) (p : BitVec 16) : (s.setPwps p).gieh = s.gieh := rfl
@[simp] theorem State.setPwps_giel (s : State) (p : BitVec 16) : (s.setPwps p).giel = s.giel := rfl
@[simp] theorem State.setPwps_mode (s : State) (p : BitVec 16) : (s.setPwps p).mode = s.mode := rfl
@[simp] theorem State.setPwps_reload (s : State) (p : BitVec 16) : (s.setPwps p).reload = s.reload := rfl
@[simp] theorem State.setPwps_relw (s : State) (p : BitVec 16) : (s.setPwps p).relw = s.relw := rfl
@[simp] theorem State.setPwps_pr (s : State) (p : BitVec 16) : (s.setPwps p).pr = s.pr := rfl
@[simp] theorem State.setPwps_dch (s : State) (p : BitVec 16) : (s.setPwps p).dch = s.dch := rfl
@[simp] theorem State.setPwps_dcl (s : State) (p : BitVec 16) : (s.setPwps p).dcl = s.dcl := rfl
@[simp] theorem State.setPwps_pwps (s : State) (p : BitVec 16) : (s.setPwps p).pwps = p := rfl
@[simp] theorem State.setPwps_svang (s : State) (p : BitVec 16) : (s.setPwps p).svang = s.svang := rfl
@[simp] theorem State.setPwps_out (s : State) (p : BitVec 16) : (s.setPwps p).out = s.out := rfl
@[simp] theorem State.setPwps_btncnt (s : State) (p : BitVec 16) : (s.setPwps p).btncnt = s.btncnt := rfl
@[simp] theorem State.setPwps_tmrcnt (s : State) (p : BitVec 16) : (s.setPwps p).tmrcnt = s.tmrcnt := rfl
@[simp] theorem State.setPwps_dbncfg (s : State) (p : BitVec 16) : (s.setPwps p).dbncfg = s.dbncfg := rfl
@[simp] theorem State.setPwps_dbncnt (s : State) (p : BitVec 16) : (s.setPwps p).dbncnt = s.dbncnt := rfl
@[simp] theorem State.setPwps_armed (s : State) (p : BitVec 16) : (s.setPwps p).armed = s.armed := rfl
@[simp] theorem State.setPwps_sflast (s : State) (p : BitVec 16) : (s.setPwps p).sflast = s.sflast := rfl
@[simp] theorem State.setPwps_sfsmooth (s : State) (p : BitVec 16) : (s.setPwps p).sfsmooth = s.sfsmooth := rfl
@[simp] theorem State.setPwps_inc (s : State) (p : BitVec 16) : (s.setPwps p).inc = s.inc := rfl
@[simp] theorem State.setPwps_zone (s : State) (p : BitVec 16) : (s.setPwps p).zone = s.zone := rfl
@[simp] theorem State.setPwps_zcnt (s : State) (p : BitVec 16) : (s.setPwps p).zcnt = s.zcnt := rfl
@[simp] theorem State.setPwps_blink (s : State) (p : BitVec 16) : (s.setPwps p).blink = s.blink := rfl
@[simp] theorem State.setPwps_mstate (s : State) (p : BitVec 16) : (s.setPwps p).mstate = s.mstate := rfl
@[simp] theorem State.setPwps_len (s : State) (p : BitVec 16) : (s.setPwps p).len = s.len := rfl
@[simp] theorem State.setPwps_lastch (s : State) (p : BitVec 16) : (s.setPwps p).lastch = s.lastch := rfl
@[simp] theorem State.setPwps_linecnt (s : State) (p : BitVec 16) : (s.setPwps p).linecnt = s.linecnt := rfl
@[simp] theorem State.setPwps_rxbyte (s : State) (p : BitVec 16) : (s.setPwps p).rxbyte = s.rxbyte := rfl
@[simp] theorem State.setPwps_rxoerr (s : State) (p : BitVec 16) : (s.setPwps p).rxoerr = s.rxoerr := rfl
@[simp] theorem State.setPwps_rxferr (s : State) (p : BitVec 16) : (s.setPwps p).rxferr = s.rxferr := rfl
@[simp] theorem State.setPwps_adcdata (s : State) (p : BitVec 16) : (s.setPwps p).adcdata = s.adcdata := rfl
@[simp] theorem State.setPwps_rxrstcnt (s : State) (p : BitVec 16) : (s.setPwps p).rxrstcnt = s.rxrstcnt := rfl
@[simp] theorem State.setPwps_lbuf (s : State) (p : BitVec 16) : (s.setPwps p).lbuf = s.lbuf := rfl
@[simp] theorem State.setPwps_stack (s : State) (p : BitVec 16) : (s.setPwps p).stack = s.stack := rfl
@[simp] theorem State.setPwps_rxWaits (s : State) (p : BitVec 16) : (s.setPwps p).rxWaits = s.rxWaits := rfl
@[simp] theorem State.setPwps_txq (s : State) (p : BitVec 16) : (s.setPwps p).txq = s.txq := rfl
@[simp] theorem State.setPwps_tmrload (s : State) (p : BitVec 16) : (s.setPwps p).tmrload = s.tmrload := rfl
@[simp] theorem State.setPwps_press (s : State) (p : BitVec 16) : (s.setPwps p).press = s.press := rfl
@[simp] theorem State.setPwps_lines (s : State) (p : BitVec 16) : (s.setPwps p).lines = s.lines := rfl
@[simp] theorem State.setPwps_rxtoggle (s : State) (p : BitVec 16) : (s.setPwps p).rxtoggle = s.rxtoggle := rfl
@[simp] theorem State.setPwps_txout (s : State) (p : BitVec 16) : (s.setPwps p).txout = s.txout := rfl
@[simp] theorem State.setPwps_resp (s : State) (p : BitVec 16) : (s.setPwps p).resp = s.resp := rfl
@[simp] theorem State.setPwps_params (s : State) (p : BitVec 16) : (s.setPwps p).params = s.params := rfl
@[simp] theorem State.setPwps_cmdPort (s : State) (p : BitVec 16) : (s.setPwps p).cmdPort = s.cmdPort := rfl
@[simp] theorem State.setPwps_evtPort (s : State) (p : BitVec 16) : (s.setPwps p).evtPort = s.evtPort := rfl
@[simp] theorem State.setPwps_turns (s : State) (p : BitVec 16) : (s.setPwps p).turns = s.turns := rfl

/-! ## setOut -/

@[simp] theorem State.setOut_lasterr (s : State) (o : Byte) : (s.setOut o).lasterr = s.lasterr := rfl
@[simp] theorem State.setOut_cfgFault (s : State) (o : Byte) : (s.setOut o).cfgFault = s.cfgFault := rfl
@[simp] theorem State.setOut_adBusy (s : State) (o : Byte) : (s.setOut o).adBusy = s.adBusy := rfl
@[simp] theorem State.setOut_errflags (s : State) (o : Byte) : (s.setOut o).errflags = s.errflags := rfl
@[simp] theorem State.setOut_iflags (s : State) (o : Byte) : (s.setOut o).iflags = s.iflags := rfl
@[simp] theorem State.setOut_ienable (s : State) (o : Byte) : (s.setOut o).ienable = s.ienable := rfl
@[simp] theorem State.setOut_iprio (s : State) (o : Byte) : (s.setOut o).iprio = s.iprio := rfl
@[simp] theorem State.setOut_gieh (s : State) (o : Byte) : (s.setOut o).gieh = s.gieh := rfl
@[simp] theorem State.setOut_giel (s : State) (o : Byte) : (s.setOut o).giel = s.giel := rfl
@[simp] theorem State.setOut_mode (s : State) (o : Byte) : (s.setOut o).mode = s.mode := rfl
@[simp] theorem State.setOut_reload (s : State) (o : Byte) : (s.setOut o).reload = s.reload := rfl
@[simp] theorem State.setOut_relw (s : State) (o : Byte) : (s.setOut o).relw = s.relw := rfl
@[simp] theorem State.setOut_pr (s : State) (o : Byte) : (s.setOut o).pr = s.pr := rfl
@[simp] theorem State.setOut_dch (s : State) (o : Byte) : (s.setOut o).dch = s.dch := rfl
@[simp] theorem State.setOut_dcl (s : State) (o : Byte) : (s.setOut o).dcl = s.dcl := rfl
@[simp] theorem State.setOut_pwps (s : State) (o : Byte) : (s.setOut o).pwps = s.pwps := rfl
@[simp] theorem State.setOut_svang (s : State) (o : Byte) : (s.setOut o).svang = s.svang := rfl
@[simp] theorem State.setOut_out (s : State) (o : Byte) : (s.setOut o).out = o := rfl
@[simp] theorem State.setOut_btncnt (s : State) (o : Byte) : (s.setOut o).btncnt = s.btncnt := rfl
@[simp] theorem State.setOut_tmrcnt (s : State) (o : Byte) : (s.setOut o).tmrcnt = s.tmrcnt := rfl
@[simp] theorem State.setOut_dbncfg (s : State) (o : Byte) : (s.setOut o).dbncfg = s.dbncfg := rfl
@[simp] theorem State.setOut_dbncnt (s : State) (o : Byte) : (s.setOut o).dbncnt = s.dbncnt := rfl
@[simp] theorem State.setOut_armed (s : State) (o : Byte) : (s.setOut o).armed = s.armed := rfl
@[simp] theorem State.setOut_sflast (s : State) (o : Byte) : (s.setOut o).sflast = s.sflast := rfl
@[simp] theorem State.setOut_sfsmooth (s : State) (o : Byte) : (s.setOut o).sfsmooth = s.sfsmooth := rfl
@[simp] theorem State.setOut_inc (s : State) (o : Byte) : (s.setOut o).inc = s.inc := rfl
@[simp] theorem State.setOut_zone (s : State) (o : Byte) : (s.setOut o).zone = s.zone := rfl
@[simp] theorem State.setOut_zcnt (s : State) (o : Byte) : (s.setOut o).zcnt = s.zcnt := rfl
@[simp] theorem State.setOut_blink (s : State) (o : Byte) : (s.setOut o).blink = s.blink := rfl
@[simp] theorem State.setOut_mstate (s : State) (o : Byte) : (s.setOut o).mstate = s.mstate := rfl
@[simp] theorem State.setOut_len (s : State) (o : Byte) : (s.setOut o).len = s.len := rfl
@[simp] theorem State.setOut_lastch (s : State) (o : Byte) : (s.setOut o).lastch = s.lastch := rfl
@[simp] theorem State.setOut_linecnt (s : State) (o : Byte) : (s.setOut o).linecnt = s.linecnt := rfl
@[simp] theorem State.setOut_rxbyte (s : State) (o : Byte) : (s.setOut o).rxbyte = s.rxbyte := rfl
@[simp] theorem State.setOut_rxoerr (s : State) (o : Byte) : (s.setOut o).rxoerr = s.rxoerr := rfl
@[simp] theorem State.setOut_rxferr (s : State) (o : Byte) : (s.setOut o).rxferr = s.rxferr := rfl
@[simp] theorem State.setOut_adcdata (s : State) (o : Byte) : (s.setOut o).adcdata = s.adcdata := rfl
@[simp] theorem State.setOut_rxrstcnt (s : State) (o : Byte) : (s.setOut o).rxrstcnt = s.rxrstcnt := rfl
@[simp] theorem State.setOut_lbuf (s : State) (o : Byte) : (s.setOut o).lbuf = s.lbuf := rfl
@[simp] theorem State.setOut_stack (s : State) (o : Byte) : (s.setOut o).stack = s.stack := rfl
@[simp] theorem State.setOut_rxWaits (s : State) (o : Byte) : (s.setOut o).rxWaits = s.rxWaits := rfl
@[simp] theorem State.setOut_txq (s : State) (o : Byte) : (s.setOut o).txq = s.txq := rfl
@[simp] theorem State.setOut_tmrload (s : State) (o : Byte) : (s.setOut o).tmrload = s.tmrload := rfl
@[simp] theorem State.setOut_press (s : State) (o : Byte) : (s.setOut o).press = s.press := rfl
@[simp] theorem State.setOut_lines (s : State) (o : Byte) : (s.setOut o).lines = s.lines := rfl
@[simp] theorem State.setOut_rxtoggle (s : State) (o : Byte) : (s.setOut o).rxtoggle = s.rxtoggle := rfl
@[simp] theorem State.setOut_txout (s : State) (o : Byte) : (s.setOut o).txout = s.txout := rfl
@[simp] theorem State.setOut_resp (s : State) (o : Byte) : (s.setOut o).resp = s.resp := rfl
@[simp] theorem State.setOut_params (s : State) (o : Byte) : (s.setOut o).params = s.params := rfl
@[simp] theorem State.setOut_cmdPort (s : State) (o : Byte) : (s.setOut o).cmdPort = s.cmdPort := rfl
@[simp] theorem State.setOut_evtPort (s : State) (o : Byte) : (s.setOut o).evtPort = s.evtPort := rfl
@[simp] theorem State.setOut_turns (s : State) (o : Byte) : (s.setOut o).turns = s.turns := rfl

/-! ## setDbncfg -/

@[simp] theorem State.setDbncfg_lasterr (s : State) (n : BitVec 16) : (s.setDbncfg n).lasterr = s.lasterr := rfl
@[simp] theorem State.setDbncfg_cfgFault (s : State) (n : BitVec 16) : (s.setDbncfg n).cfgFault = s.cfgFault := rfl
@[simp] theorem State.setDbncfg_adBusy (s : State) (n : BitVec 16) : (s.setDbncfg n).adBusy = s.adBusy := rfl
@[simp] theorem State.setDbncfg_errflags (s : State) (n : BitVec 16) : (s.setDbncfg n).errflags = s.errflags := rfl
@[simp] theorem State.setDbncfg_iflags (s : State) (n : BitVec 16) : (s.setDbncfg n).iflags = s.iflags := rfl
@[simp] theorem State.setDbncfg_ienable (s : State) (n : BitVec 16) : (s.setDbncfg n).ienable = s.ienable := rfl
@[simp] theorem State.setDbncfg_iprio (s : State) (n : BitVec 16) : (s.setDbncfg n).iprio = s.iprio := rfl
@[simp] theorem State.setDbncfg_gieh (s : State) (n : BitVec 16) : (s.setDbncfg n).gieh = s.gieh := rfl
@[simp] theorem State.setDbncfg_giel (s : State) (n : BitVec 16) : (s.setDbncfg n).giel = s.giel := rfl
@[simp] theorem State.setDbncfg_mode (s : State) (n : BitVec 16) : (s.setDbncfg n).mode = s.mode := rfl
@[simp] theorem State.setDbncfg_reload (s : State) (n : BitVec 16) : (s.setDbncfg n).reload = s.reload := rfl
@[simp] theorem State.setDbncfg_relw (s : State) (n : BitVec 16) : (s.setDbncfg n).relw = s.relw := rfl
@[simp] theorem State.setDbncfg_pr (s : State) (n : BitVec 16) : (s.setDbncfg n).pr = s.pr := rfl
@[simp] theorem State.setDbncfg_dch (s : State) (n : BitVec 16) : (s.setDbncfg n).dch = s.dch := rfl
@[simp] theorem State.setDbncfg_dcl (s : State) (n : BitVec 16) : (s.setDbncfg n).dcl = s.dcl := rfl
@[simp] theorem State.setDbncfg_pwps (s : State) (n : BitVec 16) : (s.setDbncfg n).pwps = s.pwps := rfl
@[simp] theorem State.setDbncfg_svang (s : State) (n : BitVec 16) : (s.setDbncfg n).svang = s.svang := rfl
@[simp] theorem State.setDbncfg_out (s : State) (n : BitVec 16) : (s.setDbncfg n).out = s.out := rfl
@[simp] theorem State.setDbncfg_btncnt (s : State) (n : BitVec 16) : (s.setDbncfg n).btncnt = s.btncnt := rfl
@[simp] theorem State.setDbncfg_tmrcnt (s : State) (n : BitVec 16) : (s.setDbncfg n).tmrcnt = s.tmrcnt := rfl
@[simp] theorem State.setDbncfg_dbncfg (s : State) (n : BitVec 16) : (s.setDbncfg n).dbncfg = n := rfl
@[simp] theorem State.setDbncfg_dbncnt (s : State) (n : BitVec 16) : (s.setDbncfg n).dbncnt = s.dbncnt := rfl
@[simp] theorem State.setDbncfg_armed (s : State) (n : BitVec 16) : (s.setDbncfg n).armed = s.armed := rfl
@[simp] theorem State.setDbncfg_sflast (s : State) (n : BitVec 16) : (s.setDbncfg n).sflast = s.sflast := rfl
@[simp] theorem State.setDbncfg_sfsmooth (s : State) (n : BitVec 16) : (s.setDbncfg n).sfsmooth = s.sfsmooth := rfl
@[simp] theorem State.setDbncfg_inc (s : State) (n : BitVec 16) : (s.setDbncfg n).inc = s.inc := rfl
@[simp] theorem State.setDbncfg_zone (s : State) (n : BitVec 16) : (s.setDbncfg n).zone = s.zone := rfl
@[simp] theorem State.setDbncfg_zcnt (s : State) (n : BitVec 16) : (s.setDbncfg n).zcnt = s.zcnt := rfl
@[simp] theorem State.setDbncfg_blink (s : State) (n : BitVec 16) : (s.setDbncfg n).blink = s.blink := rfl
@[simp] theorem State.setDbncfg_mstate (s : State) (n : BitVec 16) : (s.setDbncfg n).mstate = s.mstate := rfl
@[simp] theorem State.setDbncfg_len (s : State) (n : BitVec 16) : (s.setDbncfg n).len = s.len := rfl
@[simp] theorem State.setDbncfg_lastch (s : State) (n : BitVec 16) : (s.setDbncfg n).lastch = s.lastch := rfl
@[simp] theorem State.setDbncfg_linecnt (s : State) (n : BitVec 16) : (s.setDbncfg n).linecnt = s.linecnt := rfl
@[simp] theorem State.setDbncfg_rxbyte (s : State) (n : BitVec 16) : (s.setDbncfg n).rxbyte = s.rxbyte := rfl
@[simp] theorem State.setDbncfg_rxoerr (s : State) (n : BitVec 16) : (s.setDbncfg n).rxoerr = s.rxoerr := rfl
@[simp] theorem State.setDbncfg_rxferr (s : State) (n : BitVec 16) : (s.setDbncfg n).rxferr = s.rxferr := rfl
@[simp] theorem State.setDbncfg_adcdata (s : State) (n : BitVec 16) : (s.setDbncfg n).adcdata = s.adcdata := rfl
@[simp] theorem State.setDbncfg_rxrstcnt (s : State) (n : BitVec 16) : (s.setDbncfg n).rxrstcnt = s.rxrstcnt := rfl
@[simp] theorem State.setDbncfg_lbuf (s : State) (n : BitVec 16) : (s.setDbncfg n).lbuf = s.lbuf := rfl
@[simp] theorem State.setDbncfg_stack (s : State) (n : BitVec 16) : (s.setDbncfg n).stack = s.stack := rfl
@[simp] theorem State.setDbncfg_rxWaits (s : State) (n : BitVec 16) : (s.setDbncfg n).rxWaits = s.rxWaits := rfl
@[simp] theorem State.setDbncfg_txq (s : State) (n : BitVec 16) : (s.setDbncfg n).txq = s.txq := rfl
@[simp] theorem State.setDbncfg_tmrload (s : State) (n : BitVec 16) : (s.setDbncfg n).tmrload = s.tmrload := rfl
@[simp] theorem State.setDbncfg_press (s : State) (n : BitVec 16) : (s.setDbncfg n).press = s.press := rfl
@[simp] theorem State.setDbncfg_lines (s : State) (n : BitVec 16) : (s.setDbncfg n).lines = s.lines := rfl
@[simp] theorem State.setDbncfg_rxtoggle (s : State) (n : BitVec 16) : (s.setDbncfg n).rxtoggle = s.rxtoggle := rfl
@[simp] theorem State.setDbncfg_txout (s : State) (n : BitVec 16) : (s.setDbncfg n).txout = s.txout := rfl
@[simp] theorem State.setDbncfg_resp (s : State) (n : BitVec 16) : (s.setDbncfg n).resp = s.resp := rfl
@[simp] theorem State.setDbncfg_params (s : State) (n : BitVec 16) : (s.setDbncfg n).params = s.params := rfl
@[simp] theorem State.setDbncfg_cmdPort (s : State) (n : BitVec 16) : (s.setDbncfg n).cmdPort = s.cmdPort := rfl
@[simp] theorem State.setDbncfg_evtPort (s : State) (n : BitVec 16) : (s.setDbncfg n).evtPort = s.evtPort := rfl
@[simp] theorem State.setDbncfg_turns (s : State) (n : BitVec 16) : (s.setDbncfg n).turns = s.turns := rfl

/-! ## softReset -/

@[simp] theorem State.softReset_lasterr (s : State) : (s.softReset).lasterr = s.lasterr := rfl
@[simp] theorem State.softReset_cfgFault (s : State) : (s.softReset).cfgFault = s.cfgFault := rfl
@[simp] theorem State.softReset_adBusy (s : State) : (s.softReset).adBusy = s.adBusy := rfl
@[simp] theorem State.softReset_errflags (s : State) : (s.softReset).errflags = s.errflags := rfl
@[simp] theorem State.softReset_iflags (s : State) : (s.softReset).iflags = s.iflags := rfl
@[simp] theorem State.softReset_ienable (s : State) : (s.softReset).ienable = s.ienable := rfl
@[simp] theorem State.softReset_iprio (s : State) : (s.softReset).iprio = s.iprio := rfl
@[simp] theorem State.softReset_gieh (s : State) : (s.softReset).gieh = s.gieh := rfl
@[simp] theorem State.softReset_giel (s : State) : (s.softReset).giel = s.giel := rfl
@[simp] theorem State.softReset_mode (s : State) : (s.softReset).mode = s.mode := rfl
@[simp] theorem State.softReset_reload (s : State) : (s.softReset).reload = s.reload := rfl
@[simp] theorem State.softReset_relw (s : State) : (s.softReset).relw = s.relw := rfl
@[simp] theorem State.softReset_pr (s : State) : (s.softReset).pr = s.pr := rfl
@[simp] theorem State.softReset_dch (s : State) : (s.softReset).dch = s.dch := rfl
@[simp] theorem State.softReset_dcl (s : State) : (s.softReset).dcl = s.dcl := rfl
@[simp] theorem State.softReset_pwps (s : State) : (s.softReset).pwps = s.pwps := rfl
@[simp] theorem State.softReset_svang (s : State) : (s.softReset).svang = 0 := rfl
@[simp] theorem State.softReset_out (s : State) : (s.softReset).out = s.out := rfl
@[simp] theorem State.softReset_btncnt (s : State) : (s.softReset).btncnt = 0 := rfl
@[simp] theorem State.softReset_tmrcnt (s : State) : (s.softReset).tmrcnt = 0 := rfl
@[simp] theorem State.softReset_dbncfg (s : State) : (s.softReset).dbncfg = s.dbncfg := rfl
@[simp] theorem State.softReset_dbncnt (s : State) : (s.softReset).dbncnt = 0 := rfl
@[simp] theorem State.softReset_armed (s : State) : (s.softReset).armed = false := rfl
@[simp] theorem State.softReset_sflast (s : State) : (s.softReset).sflast = 0 := rfl
@[simp] theorem State.softReset_sfsmooth (s : State) : (s.softReset).sfsmooth = 0 := rfl
@[simp] theorem State.softReset_inc (s : State) : (s.softReset).inc = false := rfl
@[simp] theorem State.softReset_zone (s : State) : (s.softReset).zone = 0 := rfl
@[simp] theorem State.softReset_zcnt (s : State) : (s.softReset).zcnt = 0 := rfl
@[simp] theorem State.softReset_blink (s : State) : (s.softReset).blink = false := rfl
@[simp] theorem State.softReset_mstate (s : State) : (s.softReset).mstate = 0 := rfl
@[simp] theorem State.softReset_len (s : State) : (s.softReset).len = 0 := rfl
@[simp] theorem State.softReset_lastch (s : State) : (s.softReset).lastch = 0x00 := rfl
@[simp] theorem State.softReset_linecnt (s : State) : (s.softReset).linecnt = 0 := rfl
@[simp] theorem State.softReset_rxbyte (s : State) : (s.softReset).rxbyte = s.rxbyte := rfl
@[simp] theorem State.softReset_rxoerr (s : State) : (s.softReset).rxoerr = s.rxoerr := rfl
@[simp] theorem State.softReset_rxferr (s : State) : (s.softReset).rxferr = s.rxferr := rfl
@[simp] theorem State.softReset_adcdata (s : State) : (s.softReset).adcdata = s.adcdata := rfl
@[simp] theorem State.softReset_rxrstcnt (s : State) : (s.softReset).rxrstcnt = 0 := rfl
@[simp] theorem State.softReset_lbuf (s : State) : (s.softReset).lbuf = s.lbuf.zeroBelow 64 := rfl
@[simp] theorem State.softReset_stack (s : State) : (s.softReset).stack = s.stack := rfl
@[simp] theorem State.softReset_rxWaits (s : State) : (s.softReset).rxWaits = s.rxWaits := rfl
@[simp] theorem State.softReset_txq (s : State) : (s.softReset).txq = s.txq := rfl
@[simp] theorem State.softReset_tmrload (s : State) : (s.softReset).tmrload = s.tmrload := rfl
@[simp] theorem State.softReset_press (s : State) : (s.softReset).press = s.press := rfl
@[simp] theorem State.softReset_lines (s : State) : (s.softReset).lines = s.lines := rfl
@[simp] theorem State.softReset_rxtoggle (s : State) : (s.softReset).rxtoggle = s.rxtoggle := rfl
@[simp] theorem State.softReset_txout (s : State) : (s.softReset).txout = s.txout := rfl
@[simp] theorem State.softReset_resp (s : State) : (s.softReset).resp = s.resp := rfl
@[simp] theorem State.softReset_params (s : State) : (s.softReset).params = s.params := rfl
@[simp] theorem State.softReset_cmdPort (s : State) : (s.softReset).cmdPort = s.cmdPort := rfl
@[simp] theorem State.softReset_evtPort (s : State) : (s.softReset).evtPort = s.evtPort := rfl
@[simp] theorem State.softReset_turns (s : State) : (s.softReset).turns = s.turns := rfl

/-! ## pressed -/

@[simp] theorem State.pressed_lasterr (s : State) : (s.pressed).lasterr = s.lasterr := rfl
@[simp] theorem State.pressed_cfgFault (s : State) : (s.pressed).cfgFault = s.cfgFault := rfl
@[simp] theorem State.pressed_adBusy (s : State) : (s.pressed).adBusy = s.adBusy := rfl
@[simp] theorem State.pressed_errflags (s : State) : (s.pressed).errflags = s.errflags := rfl
@[simp] theorem State.pressed_iflags (s : State) : (s.pressed).iflags = s.iflags := rfl
@[simp] theorem State.pressed_ienable (s : State) : (s.pressed).ienable = s.ienable := rfl
@[simp] theorem State.pressed_iprio (s : State) : (s.pressed).iprio = s.iprio := rfl
@[simp] theorem State.pressed_gieh (s : State) : (s.pressed).gieh = s.gieh := rfl
@[simp] theorem State.pressed_giel (s : State) : (s.pressed).giel = s.giel := rfl
@[simp] theorem State.pressed_mode (s : State) : (s.pressed).mode = s.mode := rfl
@[simp] theorem State.pressed_reload (s : State) : (s.pressed).reload = s.reload := rfl
@[simp] theorem State.pressed_relw (s : State) : (s.pressed).relw = s.relw := rfl
@[simp] theorem State.pressed_pr (s : State) : (s.pressed).pr = s.pr := rfl
@[simp] theorem State.pressed_dch (s : State) : (s.pressed).dch = s.dch := rfl
@[simp] theorem State.pressed_dcl (s : State) : (s.pressed).dcl = s.dcl := rfl
@[simp] theorem State.pressed_pwps (s : State) : (s.pressed).pwps = s.pwps := rfl
@[simp] theorem State.pressed_svang (s : State) : (s.pressed).svang = s.svang := rfl
@[simp] theorem State.pressed_out (s : State) : (s.pressed).out = s.out := rfl
@[simp] theorem State.pressed_btncnt (s : State) : (s.pressed).btncnt = s.btncnt + 1 := rfl
@[simp] theorem State.pressed_tmrcnt (s : State) : (s.pressed).tmrcnt = s.tmrcnt := rfl
@[simp] theorem State.pressed_dbncfg (s : State) : (s.pressed).dbncfg = s.dbncfg := rfl
@[simp] theorem State.pressed_dbncnt (s : State) : (s.pressed).dbncnt = s.dbncnt := rfl
@[simp] theorem State.pressed_armed (s : State) : (s.pressed).armed = s.armed := rfl
@[simp] theorem State.pressed_sflast (s : State) : (s.pressed).sflast = s.sflast := rfl
@[simp] theorem State.pressed_sfsmooth (s : State) : (s.pressed).sfsmooth = s.sfsmooth := rfl
@[simp] theorem State.pressed_inc (s : State) : (s.pressed).inc = s.inc := rfl
@[simp] theorem State.pressed_zone (s : State) : (s.pressed).zone = s.zone := rfl
@[simp] theorem State.pressed_zcnt (s : State) : (s.pressed).zcnt = s.zcnt := rfl
@[simp] theorem State.pressed_blink (s : State) : (s.pressed).blink = s.blink := rfl
@[simp] theorem State.pressed_mstate (s : State) : (s.pressed).mstate = s.mstate := rfl
@[simp] theorem State.pressed_len (s : State) : (s.pressed).len = s.len := rfl
@[simp] theorem State.pressed_lastch (s : State) : (s.pressed).lastch = s.lastch := rfl
@[simp] theorem State.pressed_linecnt (s : State) : (s.pressed).linecnt = s.linecnt := rfl
@[simp] theorem State.pressed_rxbyte (s : State) : (s.pressed).rxbyte = s.rxbyte := rfl
@[simp] theorem State.pressed_rxoerr (s : State) : (s.pressed).rxoerr = s.rxoerr := rfl
@[simp] theorem State.pressed_rxferr (s : State) : (s.pressed).rxferr = s.rxferr := rfl
@[simp] theorem State.pressed_adcdata (s : State) : (s.pressed).adcdata = s.adcdata := rfl
@[simp] theorem State.pressed_rxrstcnt (s : State) : (s.pressed).rxrstcnt = s.rxrstcnt := rfl
@[simp] theorem State.pressed_lbuf (s : State) : (s.pressed).lbuf = s.lbuf := rfl
@[simp] theorem State.pressed_stack (s : State) : (s.pressed).stack = s.stack := rfl
@[simp] theorem State.pressed_rxWaits (s : State) : (s.pressed).rxWaits = s.rxWaits := rfl
@[simp] theorem State.pressed_txq (s : State) : (s.pressed).txq = s.txq := rfl
@[simp] theorem State.pressed_tmrload (s : State) : (s.pressed).tmrload = s.tmrload := rfl
@[simp] theorem State.pressed_press (s : State) : (s.pressed).press = s.press ++ [()] := rfl
@[simp] theorem State.pressed_lines (s : State) : (s.pressed).lines = s.lines := rfl
@[simp] theorem State.pressed_rxtoggle (s : State) : (s.pressed).rxtoggle = s.rxtoggle := rfl
@[simp] theorem State.pressed_txout (s : State) : (s.pressed).txout = s.txout := rfl
@[simp] theorem State.pressed_resp (s : State) : (s.pressed).resp = s.resp := rfl
@[simp] theorem State.pressed_params (s : State) : (s.pressed).params = s.params := rfl
@[simp] theorem State.pressed_cmdPort (s : State) : (s.pressed).cmdPort = s.cmdPort := rfl
@[simp] theorem State.pressed_evtPort (s : State) : (s.pressed).evtPort = s.evtPort := rfl
@[simp] theorem State.pressed_turns (s : State) : (s.pressed).turns = s.turns := rfl

/-! ## rxToggle -/

@[simp] theorem State.rxToggle_lasterr (s : State) : (s.rxToggle).lasterr = s.lasterr := rfl
@[simp] theorem State.rxToggle_cfgFault (s : State) : (s.rxToggle).cfgFault = s.cfgFault := rfl
@[simp] theorem State.rxToggle_adBusy (s : State) : (s.rxToggle).adBusy = s.adBusy := rfl
@[simp] theorem State.rxToggle_errflags (s : State) : (s.rxToggle).errflags = s.errflags := rfl
@[simp] theorem State.rxToggle_iflags (s : State) : (s.rxToggle).iflags = s.iflags := rfl
@[simp] theorem State.rxToggle_ienable (s : State) : (s.rxToggle).ienable = s.ienable := rfl
@[simp] theorem State.rxToggle_iprio (s : State) : (s.rxToggle).iprio = s.iprio := rfl
@[simp] theorem State.rxToggle_gieh (s : State) : (s.rxToggle).gieh = s.gieh := rfl
@[simp] theorem State.rxToggle_giel (s : State) : (s.rxToggle).giel = s.giel := rfl
@[simp] theorem State.rxToggle_mode (s : State) : (s.rxToggle).mode = s.mode := rfl
@[simp] theorem State.rxToggle_reload (s : State) : (s.rxToggle).reload = s.reload := rfl
@[simp] theorem State.rxToggle_relw (s : State) : (s.rxToggle).relw = s.relw := rfl
@[simp] theorem State.rxToggle_pr (s : State) : (s.rxToggle).pr = s.pr := rfl
@[simp] theorem State.rxToggle_dch (s : State) : (s.rxToggle).dch = s.dch := rfl
@[simp] theorem State.rxToggle_dcl (s : State) : (s.rxToggle).dcl = s.dcl := rfl
@[simp] theorem State.rxToggle_pwps (s : State) : (s.rxToggle).pwps = s.pwps := rfl
@[simp] theorem State.rxToggle_svang (s : State) : (s.rxToggle).svang = s.svang := rfl
@[simp] theorem State.rxToggle_out (s : State) : (s.rxToggle).out = s.out := rfl
@[simp] theorem State.rxToggle_btncnt (s : State) : (s.rxToggle).btncnt = s.btncnt := rfl
@[simp] theorem State.rxToggle_tmrcnt (s : State) : (s.rxToggle).tmrcnt = s.tmrcnt := rfl
@[simp] theorem State.rxToggle_dbncfg (s : State) : (s.rxToggle).dbncfg = s.dbncfg := rfl
@[simp] theorem State.rxToggle_dbncnt (s : State) : (s.rxToggle).dbncnt = s.dbncnt := rfl
@[simp] theorem State.rxToggle_armed (s : State) : (s.rxToggle).armed = s.armed := rfl
@[simp] theorem State.rxToggle_sflast (s : State) : (s.rxToggle).sflast = s.sflast := rfl
@[simp] theorem State.rxToggle_sfsmooth (s : State) : (s.rxToggle).sfsmooth = s.sfsmooth := rfl
@[simp] theorem State.rxToggle_inc (s : State) : (s.rxToggle).inc = s.inc := rfl
@[simp] theorem State.rxToggle_zone (s : State) : (s.rxToggle).zone = s.zone := rfl
@[simp] theorem State.rxToggle_zcnt (s : State) : (s.rxToggle).zcnt = s.zcnt := rfl
@[simp] theorem State.rxToggle_blink (s : State) : (s.rxToggle).blink = s.blink := rfl
@[simp] theorem State.rxToggle_mstate (s : State) : (s.rxToggle).mstate = s.mstate := rfl
@[simp] theorem State.rxToggle_len (s : State) : (s.rxToggle).len = s.len := rfl
@[simp] theorem State.rxToggle_lastch (s : State) : (s.rxToggle).lastch = s.lastch := rfl
@[simp] theorem State.rxToggle_linecnt (s : State) : (s.rxToggle).linecnt = s.linecnt := rfl
@[simp] theorem State.rxToggle_rxbyte (s : State) : (s.rxToggle).rxbyte = s.rxbyte := rfl
@[simp] theorem State.rxToggle_rxoerr (s : State) : (s.rxToggle).rxoerr = s.rxoerr := rfl
@[simp] theorem State.rxToggle_rxferr (s : State) : (s.rxToggle).rxferr = s.rxferr := rfl
@[simp] theorem State.rxToggle_adcdata (s : State) : (s.rxToggle).adcdata = s.adcdata := rfl
@[simp] theorem State.rxToggle_rxrstcnt (s : State) : (s.rxToggle).rxrstcnt = s.rxrstcnt + 1 := rfl
@[simp] theorem State.rxToggle_lbuf (s : State) : (s.rxToggle).lbuf = s.lbuf := rfl
@[simp] theorem State.rxToggle_stack (s : State) : (s.rxToggle).stack = s.stack := rfl
@[simp] theorem State.rxToggle_rxWaits (s : State) : (s.rxToggle).rxWaits = s.rxWaits := rfl
@[simp] theorem State.rxToggle_txq (s : State) : (s.rxToggle).txq = s.txq := rfl
@[simp] theorem State.rxToggle_tmrload (s : State) : (s.rxToggle).tmrload = s.tmrload := rfl
@[simp] theorem State.rxToggle_press (s : State) : (s.rxToggle).press = s.press := rfl
@[simp] theorem State.rxToggle_lines (s : State) : (s.rxToggle).lines = s.lines := rfl
@[simp] theorem State.rxToggle_rxtoggle (s : State) : (s.rxToggle).rxtoggle = s.rxtoggle ++ [()] := rfl
@[simp] theorem State.rxToggle_txout (s : State) : (s.rxToggle).txout = s.txout := rfl
@[simp] theorem State.rxToggle_resp (s : State) : (s.rxToggle).resp = s.resp := rfl
@[simp] theorem State.rxToggle_params (s : State) : (s.rxToggle).params = s.params := rfl
@[simp] theorem State.rxToggle_cmdPort (s : State) : (s.rxToggle).cmdPort = s.cmdPort := rfl
@[simp] theorem State.rxToggle_evtPort (s : State) : (s.rxToggle).evtPort = s.evtPort := rfl
@[simp] theorem State.rxToggle_turns (s : State) : (s.rxToggle).turns = s.turns := rfl

/-! ## mapMarquee -/

@[simp] theorem State.mapMarquee_lasterr (s : State) (o : Byte × BitVec 16) : (s.mapMarquee o).lasterr = s.lasterr := rfl
@[simp] theorem State.mapMarquee_cfgFault (s : State) (o : Byte × BitVec 16) : (s.mapMarquee o).cfgFault = s.cfgFault := rfl
@[simp] theorem State.mapMarquee_adBusy (s : State) (o : Byte × BitVec 16) : (s.mapMarquee o).adBusy = s.adBusy := rfl
@[simp] theorem State.mapMarquee_errflags (s : State) (o : Byte × BitVec 16) : (s.mapMarquee o).errflags = s.errflags := rfl
@[simp] theorem State.mapMarquee_iflags (s : State) (o : Byte × BitVec 16) : (s.mapMarquee o).iflags = s.iflags := rfl
@[simp] theorem State.mapMarquee_ienable (s : State) (o : Byte × BitVec 16) : (s.mapMarquee o).ienable = s.ienable := rfl
@[simp] theorem State.mapMarquee_iprio (s : State) (o : Byte × BitVec 16) : (s.mapMarquee o).iprio = s.iprio := rfl
@[simp] theorem State.mapMarquee_gieh (s : State) (o : Byte × BitVec 16) : (s.mapMarquee o).gieh = s.gieh := rfl
@[simp] theorem State.mapMarquee_giel (s : State) (o : Byte × BitVec 16) : (s.mapMarquee o).giel = s.giel := rfl
@[simp] theorem State.mapMarquee_mode (s : State) (o : Byte × BitVec 16) : (s.mapMarquee o).mode = s.mode := rfl
@[simp] theorem State.mapMarquee_reload (s : State) (o : Byte × BitVec 16) : (s.mapMarquee o).reload = s.reload := rfl
@[simp] theorem State.mapMarquee_relw (s : State) (o : Byte × BitVec 16) : (s.mapMarquee o).relw = s.relw := rfl
@[simp] theorem State.mapMarquee_pr (s : State) (o : Byte × BitVec 16) : (s.mapMarquee o).pr = s.pr := rfl
@[simp] theorem State.mapMarquee_dch (s : State) (o : Byte × BitVec 16) : (s.mapMarquee o).dch = s.dch := rfl
@[simp] theorem State.mapMarquee_dcl (s : State) (o : Byte × BitVec 16) : (s.mapMarquee o).dcl = s.dcl := rfl
@[simp] theorem State.mapMarquee_pwps (s : State) (o : Byte × BitVec 16) : (s.mapMarquee o).pwps = s.pwps := rfl
@[simp] theorem State.mapMarquee_svang (s : State) (o : Byte × BitVec 16) : (s.mapMarquee o).svang = s.svang := rfl
@[simp] theorem State.mapMarquee_out (s : State) (o : Byte × BitVec 16) : (s.mapMarquee o).out = o.1 := rfl
@[simp] theorem State.mapMarquee_btncnt (s : State) (o : Byte × BitVec 16) : (s.mapMarquee o).btncnt = s.btncnt := rfl
@[simp] theorem State.mapMarquee_tmrcnt (s : State) (o : Byte × BitVec 16) : (s.mapMarquee o).tmrcnt = s.tmrcnt := rfl
@[simp] theorem State.mapMarquee_dbncfg (s : State) (o : Byte × BitVec 16) : (s.mapMarquee o).dbncfg = s.dbncfg := rfl
@[simp] theorem State.mapMarquee_dbncnt (s : State) (o : Byte × BitVec 16) : (s.mapMarquee o).dbncnt = s.dbncnt := rfl
@[simp] theorem State.mapMarquee_armed (s : State) (o : Byte × BitVec 16) : (s.mapMarquee o).armed = s.armed := rfl
@[simp] theorem State.mapMarquee_sflast (s : State) (o : Byte × BitVec 16) : (s.mapMarquee o).sflast = s.sflast := rfl
@[simp] theorem State.mapMarquee_sfsmooth (s : State) (o : Byte × BitVec 16) : (s.mapMarquee o).sfsmooth = s.sfsmooth := rfl
@[simp] theorem State.mapMarquee_inc (s : State) (o : Byte × BitVec 16) : (s.mapMarquee o).inc = s.inc := rfl
@[simp] theorem State.mapMarquee_zone (s : State) (o : Byte × BitVec 16) : (s.mapMarquee o).zone = s.zone := rfl
@[simp] theorem State.mapMarquee_zcnt (s : State) (o : Byte × BitVec 16) : (s.mapMarquee o).zcnt = s.zcnt := rfl
@[simp] theorem State.mapMarquee_blink (s : State) (o : Byte × BitVec 16) : (s.mapMarquee o).blink = s.blink := rfl
@[simp] theorem State.mapMarquee_mstate (s : State) (o : Byte × BitVec 16) : (s.mapMarquee o).mstate = o.2 := rfl
@[simp] theorem State.mapMarquee_len (s : State) (o : Byte × BitVec 16) : (s.mapMarquee o).len = s.len := rfl
@[simp] theorem State.mapMarquee_lastch (s : State) (o : Byte × BitVec 16) : (s.mapMarquee o).lastch = s.lastch := rfl
@[simp] theorem State.mapMarquee_linecnt (s : State) (o : Byte × BitVec 16) : (s.mapMarquee o).linecnt = s.linecnt := rfl
@[simp] theorem State.mapMarquee_rxbyte (s : State) (o : Byte × BitVec 16) : (s.mapMarquee o).rxbyte = s.rxbyte := rfl
@[simp] theorem State.mapMarquee_rxoerr (s : State) (o : Byte × BitVec 16) : (s.mapMarquee o).rxoerr = s.rxoerr := rfl
@[simp] theorem State.mapMarquee_rxferr (s : State) (o : Byte × BitVec 16) : (s.mapMarquee o).rxferr = s.rxferr := rfl
@[simp] theorem State.mapMarquee_adcdata (s : State) (o : Byte × BitVec 16) : (s.mapMarquee o).adcdata = s.adcdata := rfl
@[simp] theorem State.mapMarquee_rxrstcnt (s : State) (o : Byte × BitVec 16) : (s.mapMarquee o).rxrstcnt = s.rxrstcnt := rfl
@[simp] theorem State.mapMarquee_lbuf (s : State) (o : Byte × BitVec 16) : (s.mapMarquee o).lbuf = s.lbuf := rfl
@[simp] theorem State.mapMarquee_stack (s : State) (o : Byte × BitVec 16) : (s.mapMarquee o).stack = s.stack := rfl
@[simp] theorem State.mapMarquee_rxWaits (s : State) (o : Byte × BitVec 16) : (s.mapMarquee o).rxWaits = s.rxWaits := rfl
@[simp] theorem State.mapMarquee_txq (s : State) (o : Byte × BitVec 16) : (s.mapMarquee o).txq = s.txq := rfl
@[simp] theorem State.mapMarquee_tmrload (s : State) (o : Byte × BitVec 16) : (s.mapMarquee o).tmrload = s.tmrload := rfl
@[simp] theorem State.mapMarquee_press (s : State) (o : Byte × BitVec 16) : (s.mapMarquee o).press = s.press := rfl
@[simp] theorem State.mapMarquee_lines (s : State) (o : Byte × BitVec 16) : (s.mapMarquee o).lines = s.lines := rfl
@[simp] theorem State.mapMarquee_rxtoggle (s : State) (o : Byte × BitVec 16) : (s.mapMarquee o).rxtoggle = s.rxtoggle := rfl
@[simp] theorem State.mapMarquee_txout (s : State) (o : Byte × BitVec 16) : (s.mapMarquee o).txout = s.txout := rfl
@[simp] theorem State.mapMarquee_resp (s : State) (o : Byte × BitVec 16) : (s.mapMarquee o).resp = s.resp := rfl
@[simp] theorem State.mapMarquee_params (s : State) (o : Byte × BitVec 16) : (s.mapMarquee o).params = s.params := rfl
@[simp] theorem State.mapMarquee_cmdPort (s : State) (o : Byte × BitVec 16) : (s.mapMarquee o).cmdPort = s.cmdPort := rfl
@[simp] theorem State.mapMarquee_evtPort (s : State) (o : Byte × BitVec 16) : (s.mapMarquee o).evtPort = s.evtPort := rfl
@[simp] theorem State.mapMarquee_turns (s : State) (o : Byte × BitVec 16) : (s.mapMarquee o).turns = s.turns := rfl

/-! ## afterToggle -/

@[simp] theorem State.afterToggle_lasterr (s : State) : s.afterToggle.lasterr = s.lasterr := by unfold State.afterToggle; split <;> rfl
@[simp] theorem State.afterToggle_cfgFault (s : State) : s.afterToggle.cfgFault = s.cfgFault := by unfold State.afterToggle; split <;> rfl
@[simp] theorem State.afterToggle_adBusy (s : State) : s.afterToggle.adBusy = s.adBusy := by unfold State.afterToggle; split <;> rfl
@[simp] theorem State.afterToggle_errflags (s : State) : s.afterToggle.errflags = s.errflags := by unfold State.afterToggle; split <;> rfl
@[simp] theorem State.afterToggle_iflags (s : State) : s.afterToggle.iflags = s.iflags := by unfold State.afterToggle; split <;> rfl
@[simp] theorem State.afterToggle_ienable (s : State) : s.afterToggle.ienable = s.ienable := by unfold State.afterToggle; split <;> rfl
@[simp] theorem State.afterToggle_iprio (s : State) : s.afterToggle.iprio = s.iprio := by unfold State.afterToggle; split <;> rfl
@[simp] theorem State.afterToggle_gieh (s : State) : s.afterToggle.gieh = s.gieh := by unfold State.afterToggle; split <;> rfl
@[simp] theorem State.afterToggle_giel (s : State) : s.afterToggle.giel = s.giel := by unfold State.afterToggle; split <;> rfl
@[simp] theorem State.afterToggle_mode (s : State) : s.afterToggle.mode = s.mode := by unfold State.afterToggle; split <;> rfl
@[simp] theorem State.afterToggle_reload (s : State) : s.afterToggle.reload = s.reload := by unfold State.afterToggle; split <;> rfl
@[simp] theorem State.afterToggle_relw (s : State) : s.afterToggle.relw = s.relw := by unfold State.afterToggle; split <;> rfl
@[simp] theorem State.afterToggle_pr (s : State) : s.afterToggle.pr = s.pr := by unfold State.afterToggle; split <;> rfl
@[simp] theorem State.afterToggle_dch (s : State) : s.afterToggle.dch = s.dch := by unfold State.afterToggle; split <;> rfl
@[simp] theorem State.afterToggle_dcl (s : State) : s.afterToggle.dcl = s.dcl := by unfold State.afterToggle; split <;> rfl
@[simp] theorem State.afterToggle_pwps (s : State) : s.afterToggle.pwps = s.pwps := by unfold State.afterToggle; split <;> rfl
@[simp] theorem State.afterToggle_svang (s : State) : s.afterToggle.svang = s.svang := by unfold State.afterToggle; split <;> rfl
@[simp] theorem State.afterToggle_out (s : State) : s.afterToggle.out = s.out := by unfold State.afterToggle; split <;> rfl
@[simp] theorem State.afterToggle_btncnt (s : State) : s.afterToggle.btncnt = s.btncnt := by unfold State.afterToggle; split <;> rfl
@[simp] theorem State.afterToggle_tmrcnt (s : State) : s.afterToggle.tmrcnt = s.tmrcnt := by unfold State.afterToggle; split <;> rfl
@[simp] theorem State.afterToggle_dbncfg (s : State) : s.afterToggle.dbncfg = s.dbncfg := by unfold State.afterToggle; split <;> rfl
@[simp] theorem State.afterToggle_dbncnt (s : State) : s.afterToggle.dbncnt = s.dbncnt := by unfold State.afterToggle; split <;> rfl
@[simp] theorem State.afterToggle_armed (s : State) : s.afterToggle.armed = s.armed := by unfold State.afterToggle; split <;> rfl
@[simp] theorem State.afterToggle_sflast (s : State) : s.afterToggle.sflast = s.sflast := by unfold State.afterToggle; split <;> rfl
@[simp] theorem State.afterToggle_sfsmooth (s : State) : s.afterToggle.sfsmooth = s.sfsmooth := by unfold State.afterToggle; split <;> rfl
@[simp] theorem State.afterToggle_inc (s : State) : s.afterToggle.inc = s.inc := by unfold State.afterToggle; split <;> rfl
@[simp] theorem State.afterToggle_zone (s : State) : s.afterToggle.zone = s.zone := by unfold State.afterToggle; split <;> rfl
@[simp] theorem State.afterToggle_zcnt (s : State) : s.afterToggle.zcnt = s.zcnt := by unfold State.afterToggle; split <;> rfl
@[simp] theorem State.afterToggle_blink (s : State) : s.afterToggle.blink = s.blink := by unfold State.afterToggle; split <;> rfl
@[simp] theorem State.afterToggle_mstate (s : State) : s.afterToggle.mstate = s.mstate := by unfold State.afterToggle; split <;> rfl
@[simp] theorem State.afterToggle_len (s : State) : s.afterToggle.len = s.len := by unfold State.afterToggle; split <;> rfl
@[simp] theorem State.afterToggle_lastch (s : State) : s.afterToggle.lastch = s.lastch := by unfold State.afterToggle; split <;> rfl
@[simp] theorem State.afterToggle_linecnt (s : State) : s.afterToggle.linecnt = s.linecnt := by unfold State.afterToggle; split <;> rfl
@[simp] theorem State.afterToggle_rxbyte (s : State) : s.afterToggle.rxbyte = s.rxbyte := by unfold State.afterToggle; split <;> rfl
@[simp] theorem State.afterToggle_rxoerr (s : State) : s.afterToggle.rxoerr = s.rxoerr := by unfold State.afterToggle; split <;> rfl
@[simp] theorem State.afterToggle_rxferr (s : State) : s.afterToggle.rxferr = s.rxferr := by unfold State.afterToggle; split <;> rfl
@[simp] theorem State.afterToggle_adcdata (s : State) : s.afterToggle.adcdata = s.adcdata := by unfold State.afterToggle; split <;> rfl
@[simp] theorem State.afterToggle_lbuf (s : State) : s.afterToggle.lbuf = s.lbuf := by unfold State.afterToggle; split <;> rfl
@[simp] theorem State.afterToggle_stack (s : State) : s.afterToggle.stack = s.stack := by unfold State.afterToggle; split <;> rfl
@[simp] theorem State.afterToggle_rxWaits (s : State) : s.afterToggle.rxWaits = s.rxWaits := by unfold State.afterToggle; split <;> rfl
@[simp] theorem State.afterToggle_txq (s : State) : s.afterToggle.txq = s.txq := by unfold State.afterToggle; split <;> rfl
@[simp] theorem State.afterToggle_tmrload (s : State) : s.afterToggle.tmrload = s.tmrload := by unfold State.afterToggle; split <;> rfl
@[simp] theorem State.afterToggle_press (s : State) : s.afterToggle.press = s.press := by unfold State.afterToggle; split <;> rfl
@[simp] theorem State.afterToggle_lines (s : State) : s.afterToggle.lines = s.lines := by unfold State.afterToggle; split <;> rfl
@[simp] theorem State.afterToggle_txout (s : State) : s.afterToggle.txout = s.txout := by unfold State.afterToggle; split <;> rfl
@[simp] theorem State.afterToggle_resp (s : State) : s.afterToggle.resp = s.resp := by unfold State.afterToggle; split <;> rfl
@[simp] theorem State.afterToggle_params (s : State) : s.afterToggle.params = s.params := by unfold State.afterToggle; split <;> rfl
@[simp] theorem State.afterToggle_cmdPort (s : State) : s.afterToggle.cmdPort = s.cmdPort := by unfold State.afterToggle; split <;> rfl
@[simp] theorem State.afterToggle_evtPort (s : State) : s.afterToggle.evtPort = s.evtPort := by unfold State.afterToggle; split <;> rfl
@[simp] theorem State.afterToggle_turns (s : State) : s.afterToggle.turns = s.turns := by unfold State.afterToggle; split <;> rfl

end Sys2Proof.Machine
end

