-- ==== Sys2Proof/Laws/Ops.lean ====
section
/-! SUPPORT. What the shared operations answer: the checks and the end of a command, the duty arithmetic, and a register write. -/

namespace Sys2Proof.Machine

/-! ## The end of a command -/

theorem check_pos {p : Prop} [Decidable p] (h : p) (e : Err) : check p e = some e := if_pos h
theorem check_neg {p : Prop} [Decidable p] (h : ¬ p) (e : Err) : check p e = none := if_neg h

/-- A check before others: its error where it fails, else theirs. -/
theorem check_orElse (p : Prop) [Decidable p] (e : Err) (o : Option Err) : (check p e <|> o) = if p then some e else o := by
  by_cases h : p
  · rw [check_pos h, if_pos h]; rfl
  · rw [check_neg h, if_neg h]; rfl

@[simp] theorem State.answer_none (s after : State) (r : Word) : s.answer none after r = after.succeed r := rfl
@[simp] theorem State.answer_some (s after : State) (e : Err) (r : Word) : s.answer (some e) after r = s.raise e := rfl

/-- In FG a command ends in the state it computes. -/
theorem State.command_fg {s : State} (h : s.stack = []) (after : State) : s.command after = .next after := by
  simp only [State.command, h, if_true]

/-- With an activation on the stack a command changes nothing. -/
theorem State.command_active {s : State} (h : s.stack ≠ []) (after : State) : s.command after = .next s := by
  simp only [State.command, if_neg h]

/-- Every error code is one of R261's, and not 0. -/
theorem Err.code_range (e : Err) : 1 ≤ e.code.toNat ∧ e.code.toNat ≤ 13 := by cases e <;> decide

/-! ## Duty arithmetic -/

/-- `2^L` is positive. -/
theorem fine_pos (p : Params) : 0 < 2 ^ p.pwmRes.fineBits := Nat.two_pow_pos _

/-- `DUTY_MAX + 1` is 256 coarse steps of `2^L`. -/
theorem dutyMax_succ (p : Params) : dutyMax p + 1 = 256 * 2 ^ p.pwmRes.fineBits := by
  cases h : p.pwmRes <;> simp [dutyMax, PwmRes.fineBits, h]

/-- `pwm_check` passes exactly the values at most `DUTY_MAX` and `PS` (R152). -/
theorem State.pwmCheck_eq_none {s : State} {v : Nat} : s.pwmCheck v = none ↔ v ≤ dutyMax s.params ∧ v ≤ s.periodScaled := by
  simp only [State.pwmCheck, check_orElse]
  by_cases h1 : dutyMax s.params < v
  · simp [h1]
  · by_cases h2 : s.periodScaled < v
    · simp [h1, h2, check]
    · simp [h1, h2, check]; omega

/-- The coarse byte of a representable duty is a byte. -/
theorem coarseOf_lt {p : Params} {v : Nat} (h : v ≤ dutyMax p) : coarseOf p v < 256 := by
  unfold coarseOf
  rw [Nat.div_lt_iff_lt_mul (fine_pos p)]
  have := dutyMax_succ p
  omega

/-- The fine field has `L` bits. -/
theorem fineOf_lt (p : Params) (v : Nat) : fineOf p v < 2 ^ p.pwmRes.fineBits := Nat.mod_lt _ (fine_pos p)

/-- `L` is at most 2, so the fine field fits DCL. -/
theorem fine_le_four (p : Params) : 2 ^ p.pwmRes.fineBits ≤ 4 := by cases h : p.pwmRes <;> simp [PwmRes.fineBits]

/-- `pwm_write` of a representable duty stores its coarse byte and its fine bits whole (R153). -/
theorem State.pwmWrite_dch_toNat {s : State} {v : Nat} (h : v ≤ dutyMax s.params) : (s.pwmWrite v).dch.toNat = coarseOf s.params v := by
  have := coarseOf_lt h
  simp only [State.pwmWrite_dch, BitVec.toNat_ofNat]
  omega

theorem State.pwmWrite_dcl_toNat (s : State) (v : Nat) : (s.pwmWrite v).dcl.toNat = fineOf s.params v := by
  have := fineOf_lt s.params v
  have := fine_le_four s.params
  simp only [State.pwmWrite_dcl, BitVec.toNat_ofNat]
  omega

/-- After `pwm_write(v)` the duty is `v` (R153). -/
theorem State.duty_pwmWrite {s : State} {v : Nat} (h : v ≤ dutyMax s.params) : (s.pwmWrite v).duty = v := by
  have hf := fineOf_lt s.params v
  simp only [State.duty, State.fine, State.pwmWrite_dch_toNat h, State.pwmWrite_dcl_toNat, State.pwmWrite_params]
  rw [Nat.mod_eq_of_lt hf]
  exact Nat.div_add_mod' v _

/-- The ownership check passes while MODE does not own PWM (R162). -/
theorem State.pwmOwned_free {s : State} (h : s.mode.ownsPwm = false) : s.pwmOwned = none := check_neg (by simp [h]) _

/-- And fails while it does. -/
theorem State.pwmOwned_owned {s : State} (h : s.mode.ownsPwm = true) : s.pwmOwned = some .owner := check_pos h _

/-- `DUTY_FULL` is a duty every check passes (R151). -/
theorem State.dutyFull_le (s : State) : s.dutyFull ≤ dutyMax s.params ∧ s.dutyFull ≤ s.periodScaled :=
  ⟨Nat.min_le_right _ _, Nat.min_le_left _ _⟩

/-! ## Register writes -/

/-- Every write WRREG makes, by register (R114). -/
inductive RegWrite (s : State) : State → Prop where
  | errflags (f : BitVec 14) (h : f.getLsbD 0 = s.errflags.getLsbD 0) : RegWrite s (s.setErrflags f)
  | iflags (f : BitVec 4) : RegWrite s (s.setIflags f)
  | ienable (f : BitVec 4) : RegWrite s (s.setIenable f)
  | iprio (f : BitVec 4) (h : f.getLsbD 2 = true) : RegWrite s (s.setIprio f)
  | gie (h l : Bool) : RegWrite s (s.setGie h l)
  | sameMode : RegWrite s s
  | mode (m : Mode) : RegWrite s (s.clearModeLocal.setMode m)
  | pwmpr (p : Byte) (h : s.duty ≤ scaledPeriod s.params p) : RegWrite s (s.setPeriod p)
  | pwps (p : BitVec 16) (h : p ≠ 0) : RegWrite s (s.setPwps p)
  | out (o : Byte) (h : s.mode.ownsLed = false) : RegWrite s (s.setOut o)
  | dbncfg (n : BitVec 16) : RegWrite s (s.setDbncfg n)

/-- A register write that passes its check is one of the writes of R114. -/
theorem State.writeReg_ok {s t : State} {r : Reg} {data : Word} (h : s.writeReg r data = .ok t) : RegWrite s t := by
  cases r <;> simp only [State.writeReg, reduceCtorEq] at h <;> try (cases h; constructor)
  · simp
  · generalize dataField 4 data = d
    revert d; decide
  · simp only [State.writeMode] at h
    split at h
    · cases h
    · cases h
      split
      · exact .sameMode
      · exact .mode _
  · split at h
    · cases h
    · cases h; exact .pwmpr _ (by omega)
  · split at h
    · cases h
    · cases h; exact .pwps _ (by assumption)
  · split at h
    · cases h
    · cases h; exact .out _ (by simp_all)

end Sys2Proof.Machine
end

