-- ==== Sys2Proof/Laws/Commands.lean ====
section
/-! SUPPORT. Everything a host command can do in FG: fail with an error, be held, or succeed after one of the writes listed. -/

namespace Sys2Proof.Machine

/-- The state a succeeding host command leaves, before its response is recorded. -/
inductive CommandWrite (s : State) : Instr → State → Prop where
  | nop : CommandWrite s .nop s
  | rdreg (reg : Byte) : CommandWrite s (.rdreg reg) s
  | wrreg (reg : Byte) (data : Word) (r : Reg) (t : State) (hr : Reg.ofAddr reg = some r) (h : s.writeReg r data = .ok t) :
      CommandWrite s (.wrreg reg data) t
  | srst : CommandWrite s .srst s.softReset
  | adstart (h : s.adBusy = false) : CommandWrite s .adstart s.startConversion
  | txbyte (b : Byte) (h : s.txFull = false) : CommandWrite s (.txbyte b) (s.enqueueTx [b])
  | tcalcCheck (w : Bool) (ps : BitVec 16) (period : Word) : CommandWrite s (.tcalc false w ps period) s
  | tcalcCommit (w : Bool) (ps : BitVec 16) (period : Word)
      (h : tcCheck s.params period.toNat ps.toNat (widthOperand w) = none) :
      CommandWrite s (.tcalc true w ps period) (s.commitReload (reloadExact s.params period.toNat ps.toNat (widthOperand w)).toNat w)
  | pwmset (val : Word) (h : s.pwmCheck val.toNat = none) (ho : s.mode.ownsPwm = false) :
      CommandWrite s (.pwmset val) (s.pwmWrite val.toNat)
  | pwmdutyCheck (ps : BitVec 16) (val : Word) : CommandWrite s (.pwmduty false ps val) s
  | pwmdutyWrite (ps : BitVec 16) (val : Word) (v : Nat) (h : s.pwmCheck v = none) (ho : s.mode.ownsPwm = false) :
      CommandWrite s (.pwmduty true ps val) (s.pwmWrite v)
  | pwmangleCheck (ps : BitVec 16) (val : Word) : CommandWrite s (.pwmangle false ps val) s
  | pwmangleWrite (ps : BitVec 16) (val : Word) (v a : Nat) (h : s.pwmCheck v = none) (ho : s.mode.ownsPwm = false) (ha : a ≤ 180) :
      CommandWrite s (.pwmangle true ps val) (s.servoSet v a)
  | svfoldCheck (ps : BitVec 16) (val : Word) : CommandWrite s (.svfold false ps val) s
  | svfoldWrite (ps : BitVec 16) (val : Word) (v a : Nat) (h : s.pwmCheck v = none) (ho : s.mode.ownsPwm = false) (ha : a ≤ 180) :
      CommandWrite s (.svfold true ps val) (s.servoSet v a)
  | binoutCheck (val : Word) : CommandWrite s (.binout false val) s
  | binoutWrite (val : Word) (v : Nat) (ho : s.mode.ownsLed = false) : CommandWrite s (.binout true val) (s.out4 v)

/-- How a host command ends in FG. -/
inductive CommandEnd (s : State) (i : Instr) : State → Prop where
  /-- An error: nothing of the command's own is written (R264). -/
  | failed (e : Err) : CommandEnd s i (s.raise e)
  /-- A failing committing TCALC: CFGFAULT is set beside the error (R134). -/
  | faulted (e : Err) (w : Bool) (ps : BitVec 16) (period : Word) (h : i = .tcalc true w ps period) :
      CommandEnd s i ((s.faultIf true).raise e)
  /-- Success: the command's write, then its response (R262). -/
  | done (t : State) (r : Word) (h : CommandWrite s i t) : CommandEnd s i (t.succeed r)
  /-- A TXBYTE held while the queue is full (R245). -/
  | held (b : Byte) (hi : i = .txbyte b) (hf : s.txFull = true) : CommandEnd s i s

/-- The folded angle is 0 to 180 (R160). -/
theorem fold_le (i : Int) : fold i ≤ 180 := by
  simp only [fold]
  have h1 := Int.tmod_lt_of_pos (i + 90) (show (0 : Int) < 181 by decide)
  split <;> omega

/-- Every host command in FG answers a next state, and it is one of the four ends. -/
theorem exec_command {i : Instr} (hp : i.port = .command) {s : State} (hs : s.stack = []) :
    ∃ t, exec i s = .next t ∧ CommandEnd s i t := by
  cases i <;> simp only [Instr.port, reduceCtorEq] at hp
  case nop => exact ⟨_, State.command_fg hs _, .done _ _ .nop⟩
  case rdreg reg =>
    refine ⟨_, State.command_fg hs _, ?_⟩
    split
    · exact .done _ _ (.rdreg _)
    · exact .failed _
  case wrreg reg data =>
    refine ⟨_, State.command_fg hs _, ?_⟩
    split
    · rename_i r hr
      split
      · rename_i t ht
        exact .done _ _ (.wrreg _ _ r t hr ht)
      · exact .failed _
    · exact .failed _
  case srst => exact ⟨_, State.command_fg hs _, .done _ _ .srst⟩
  case adstart =>
    refine ⟨_, State.command_fg hs _, ?_⟩
    cases h : s.adBusy
    · exact .done _ _ (.adstart h)
    · exact .failed _
  case txbyte b =>
    cases h : s.txFull
    · refine ⟨(s.enqueueTx [b]).succeed 0, ?_, .done _ _ (.txbyte b h)⟩
      simp only [exec, execTxbyte, h, Bool.false_eq_true, if_false, State.command_fg hs]
    · refine ⟨s, ?_, .held b rfl h⟩
      simp only [exec, execTxbyte, h, if_true]
  case tcalc c w ps period =>
    refine ⟨_, State.command_fg hs _, ?_⟩
    cases h : tcCheck s.params (unsignedOperand period) (prescaleOperand ps) (widthOperand w) with
    | none =>
      rw [State.answer_none]
      cases c
      · exact .done _ _ (.tcalcCheck w ps period)
      · exact .done _ _ (.tcalcCommit w ps period h)
    | some e =>
      rw [State.answer_some]
      cases c
      · have : s.faultIf false = s := by simp [State.faultIf]
        rw [this]
        exact .failed _
      · exact .faulted _ w ps period rfl
  case pwmset val =>
    refine ⟨_, State.command_fg hs _, ?_⟩
    cases h : s.pwmCheck (unsignedOperand val) with
    | some e => exact .failed _
    | none =>
      cases ho : s.mode.ownsPwm
      · rw [State.pwmOwned_free ho]
        exact .done _ _ (.pwmset val h ho)
      · rw [State.pwmOwned_owned ho]
        exact .failed _
  case pwmduty c ps val =>
    refine ⟨_, State.command_fg hs _, ?_⟩
    rw [check_orElse]
    split
    · exact .failed _
    · cases h : s.pwmCheck (dutyCount s.params (unsignedOperand val) (prescaleOperand ps)) with
      | some e => exact .failed _
      | none =>
        cases c
        · exact .done _ _ (.pwmdutyCheck ps val)
        · cases ho : s.mode.ownsPwm
          · rw [State.pwmOwned_free ho]
            exact .done _ _ (.pwmdutyWrite ps val _ h ho)
          · rw [State.pwmOwned_owned ho]
            exact .failed _
  case pwmangle c ps val =>
    refine ⟨_, State.command_fg hs _, ?_⟩
    rw [check_orElse]
    split
    · exact .failed _
    · rw [check_orElse]
      split
      · exact .failed _
      · rename_i ha
        cases h : s.pwmCheck (servoValue s.params (unsignedOperand val) (prescaleOperand ps)) with
        | some e => exact .failed _
        | none =>
          cases c
          · exact .done _ _ (.pwmangleCheck ps val)
          · cases ho : s.mode.ownsPwm
            · rw [State.pwmOwned_free ho]
              exact .done _ _ (.pwmangleWrite ps val _ _ h ho (Nat.le_of_not_lt ha))
            · rw [State.pwmOwned_owned ho]
              exact .failed _
  case svfold c ps val =>
    refine ⟨_, State.command_fg hs _, ?_⟩
    cases c
    · exact .done _ _ (.svfoldCheck ps val)
    · rw [if_pos rfl, if_pos rfl, check_orElse]
      split
      · exact .failed _
      · cases h : s.pwmCheck (servoValue s.params (fold (signedOperand val)) (prescaleOperand ps)) with
        | some e => exact .failed _
        | none =>
          cases ho : s.mode.ownsPwm
          · rw [State.pwmOwned_free ho]
            exact .done _ _ (.svfoldWrite ps val _ _ h ho (fold_le _))
          · rw [State.pwmOwned_owned ho]
            exact .failed _
  case binout c val =>
    refine ⟨_, State.command_fg hs _, ?_⟩
    cases c
    · exact .done _ _ (.binoutCheck val)
    · cases ho : s.mode.ownsLed
      · exact .done _ _ (.binoutWrite val _ ho)
      · exact .failed _

/-- Whatever the context, a host command that answers has changed nothing, or has ended in FG. -/
theorem exec_command_cases {i : Instr} {s t : State} (hp : i.port = .command) (h : exec i s = .next t) :
    t = s ∨ (s.stack = [] ∧ CommandEnd s i t) := by
  by_cases hs : s.stack = []
  · obtain ⟨v, hv, he⟩ := exec_command hp hs
    rw [hv] at h
    cases h
    exact .inr ⟨hs, he⟩
  · refine .inl ?_
    cases i <;> simp only [Instr.port, reduceCtorEq] at hp
    case txbyte b =>
      simp only [exec, execTxbyte] at h
      split at h
      · cases h; rfl
      · rw [State.command_active hs] at h; cases h; rfl
    all_goals
      simp only [exec, execNop, execRdreg, execWrreg, execSrst, execAdstart, execTcalc, execPwmset, execPwmduty, execPwmangle,
        execSvfold, execBinout, State.command_active hs] at h
      cases h; rfl

end Sys2Proof.Machine
end

