-- ==== Sys2Proof/Laws/Decode.lean ====
section
/-! SUPPORT. The fields of a packet built from fields, and the packet built from its own fields (30_encoding R81). -/

namespace Sys2Proof

@[simp] theorem packetOp_packFields (op s : Byte) (b : BitVec 16) (a : Word) : packetOp (packFields op s b a) = op := by
  apply BitVec.eq_of_getLsbD_eq
  intro i hi
  simp only [packetOp, packFields, BitVec.getLsbD_extractLsb', BitVec.getLsbD_append]
  have h1 : ¬ 56 + i < 32 := by omega
  have h2 : ¬ 56 + i - 32 < 16 := by omega
  have h3 : ¬ 56 + i - 32 - 16 < 8 := by omega
  have h4 : 56 + i - 32 - 16 - 8 = i := by omega
  simp [hi, h1, h2, h3, h4]

@[simp] theorem packetS_packFields (op s : Byte) (b : BitVec 16) (a : Word) : packetS (packFields op s b a) = s := by
  apply BitVec.eq_of_getLsbD_eq
  intro i hi
  simp only [packetS, packFields, BitVec.getLsbD_extractLsb', BitVec.getLsbD_append]
  have h1 : ¬ 48 + i < 32 := by omega
  have h2 : ¬ 48 + i - 32 < 16 := by omega
  have h3 : 48 + i - 32 - 16 = i := by omega
  simp [hi, h1, h2, h3]

@[simp] theorem packetB_packFields (op s : Byte) (b : BitVec 16) (a : Word) : packetB (packFields op s b a) = b := by
  apply BitVec.eq_of_getLsbD_eq
  intro i hi
  simp only [packetB, packFields, BitVec.getLsbD_extractLsb', BitVec.getLsbD_append]
  have h1 : ¬ 32 + i < 32 := by omega
  have h2 : 32 + i - 32 = i := by omega
  simp [hi, h1, h2]

@[simp] theorem packetA_packFields (op s : Byte) (b : BitVec 16) (a : Word) : packetA (packFields op s b a) = a := by
  apply BitVec.eq_of_getLsbD_eq
  intro i hi
  simp only [packetA, packFields, BitVec.getLsbD_extractLsb', BitVec.getLsbD_append]
  simp [hi]

/-- A packet is what its four fields make. -/
theorem packFields_fields (p : Packet) : packFields (packetOp p) (packetS p) (packetB p) (packetA p) = p := by
  apply BitVec.eq_of_getLsbD_eq
  intro i hi
  simp only [packetOp, packetS, packetB, packetA, packFields, BitVec.getLsbD_extractLsb', BitVec.getLsbD_append]
  by_cases h1 : i < 32
  · simp [h1]
  by_cases h2 : i - 32 < 16
  · simp only [h1, h2, if_false, if_true, decide_true, Bool.true_and]
    congr 1
    omega
  by_cases h3 : i - 32 - 16 < 8
  · simp only [h1, h2, h3, if_false, if_true, decide_true, Bool.true_and]
    congr 1
    omega
  · have h4 : i - 32 - 16 - 8 < 8 := by omega
    simp only [h1, h2, h3, h4, if_false, decide_true, Bool.true_and]
    congr 1
    omega

@[simp] theorem selectorByte_bit1 (c w : Bool) : (selectorByte c w).getLsbD 1 = c := by cases c <;> cases w <;> decide

@[simp] theorem selectorByte_bit0 (c w : Bool) : (selectorByte c w).getLsbD 0 = w := by cases c <;> cases w <;> decide

/-- A selector byte has no bit above the two flag bits. -/
theorem selectorByte_reserved (c w : Bool) : selectorByte c w &&& 0xFC = 0 := by cases c <;> cases w <;> decide

/-- A byte whose reserved selector bits are clear is the selector byte of its two flag bits. -/
theorem selectorByte_of_clear (s : Byte) (h : s &&& 0xFC = 0) : selectorByte (s.getLsbD 1) (s.getLsbD 0) = s := by
  revert s; decide

@[simp] theorem packetOp_encode (i : Instr) : packetOp (encode i) = i.opcode := packetOp_packFields ..
@[simp] theorem packetS_encode (i : Instr) : packetS (encode i) = i.fieldS := packetS_packFields ..
@[simp] theorem packetB_encode (i : Instr) : packetB (encode i) = i.fieldB := packetB_packFields ..
@[simp] theorem packetA_encode (i : Instr) : packetA (encode i) = i.fieldA := packetA_packFields ..

/-- Narrowing a zero-extended byte gives the byte back. -/
theorem setWidth8_setWidth32 (b : Byte) : (b.setWidth 32).setWidth 8 = b := by simp

/-- A zero-extended byte has no bit above bit 7. -/
theorem byte_reserved (b : Byte) : b.setWidth 32 &&& (0xFFFFFF00 : Word) = 0 := by revert b; decide

/-- A zero-extended sample has no bit above bit 9. -/
theorem sample_reserved (x : BitVec 10) : x.setWidth 32 &&& (0xFFFFFC00 : Word) = 0 := by
  apply BitVec.eq_of_getLsbD_eq
  intro i hi
  by_cases h : i < 10
  · have h2 : ((0xFFFFFC00 : Word)).getLsbD i = false := by
      interval_cases i <;> rfl
    rw [BitVec.getLsbD_and, h2, Bool.and_false]
    simp
  · simp [BitVec.getLsbD_setWidth, Nat.not_lt.1 h]

end Sys2Proof
end

