-- ==== Sys2Proof/Laws/Memory.lean ====
section
/-! SUPPORT. The line buffer as canonical memory: read after write, and that every operation keeps the canonical form. -/

namespace Sys2Proof.Machine

/-- Addresses strictly rising, the part of the canonical form the read laws need. -/
abbrev Memory.Rising (m : Memory) : Prop := m.Pairwise fun c d => c.1 < d.1

theorem Memory.wf_iff (m : Memory) : m.wf = true ↔ (∀ c ∈ m, c.1 < 64 ∧ c.2 ≠ 0) ∧ m.Rising := by
  simp only [Memory.wf, Bool.and_eq_true, List.all_eq_true, decide_eq_true_eq, bne_iff_ne]

theorem Memory.wf_rising {m : Memory} (h : m.wf = true) : m.Rising := ((Memory.wf_iff m).1 h).2

@[simp] theorem Memory.peek_nil (a : Nat) : Memory.peek [] a = 0 := rfl

/-- An address below or beside every listed one reads 0. -/
theorem Memory.peek_of_unlisted {m : Memory} {a : Nat} (h : ∀ c ∈ m, c.1 ≠ a) : m.peek a = 0 := by
  induction m with
  | nil => rfl
  | cons c m ih =>
    obtain ⟨b, w⟩ := c
    have hb : b ≠ a := h (b, w) (by simp)
    simp only [Memory.peek, if_neg hb]
    exact ih fun c hc => h c (by simp [hc])

/-- A read after a write of the same byte gives the byte written. -/
theorem Memory.peek_poke_same {m : Memory} (h : m.Rising) (a : Nat) (v : Byte) : (m.poke a v).peek a = v := by
  induction m with
  | nil =>
    simp only [Memory.poke]
    split <;> simp_all [Memory.peek]
  | cons c m ih =>
    obtain ⟨b, w⟩ := c
    obtain ⟨hlt, hm⟩ := List.pairwise_cons.1 h
    simp only [Memory.poke]
    split
    · rename_i hab
      split
      · rename_i hv
        rw [hv]
        refine Memory.peek_of_unlisted ?_
        rintro c hc
        rcases List.mem_cons.1 hc with rfl | hc
        · exact Nat.ne_of_gt hab
        · exact Nat.ne_of_gt (Nat.lt_trans hab (hlt c hc))
      · simp [Memory.peek]
    · split
      · rename_i hab
        split
        · rename_i hv
          rw [hv, hab]
          exact Memory.peek_of_unlisted fun c hc => Nat.ne_of_gt (hlt c hc)
        · simp [Memory.peek]
      · rename_i hab
        simp only [Memory.peek, if_neg (Ne.symm hab)]
        exact ih hm

/-- A write leaves every other byte alone. -/
theorem Memory.peek_poke_other (m : Memory) {a i : Nat} (v : Byte) (h : i ≠ a) : (m.poke a v).peek i = m.peek i := by
  induction m with
  | nil =>
    simp only [Memory.poke]
    split <;> simp [Memory.peek, Ne.symm h]
  | cons c m ih =>
    obtain ⟨b, w⟩ := c
    simp only [Memory.poke]
    split
    · split
      · rfl
      · simp [Memory.peek, Ne.symm h]
    · split
      · rename_i hab
        subst hab
        split <;> simp [Memory.peek, Ne.symm h]
      · simp only [Memory.peek, ih]

theorem Memory.mem_poke {m : Memory} {a : Nat} {v : Byte} {c : Host.Cell} (h : c ∈ m.poke a v) :
    c ∈ m ∨ (c = (a, v) ∧ v ≠ 0) := by
  induction m with
  | nil =>
    by_cases hv : v = 0
    · simp [Memory.poke, hv] at h
    · simp only [Memory.poke, if_neg hv, List.mem_singleton] at h
      exact .inr ⟨h, hv⟩
  | cons d m ih =>
    obtain ⟨b, w⟩ := d
    simp only [Memory.poke] at h
    split at h
    · split at h
      · exact .inl h
      · rename_i hv
        rcases List.mem_cons.1 h with rfl | h
        · exact .inr ⟨rfl, hv⟩
        · exact .inl h
    · split at h
      · split at h
        · exact .inl (List.mem_cons_of_mem _ h)
        · rename_i hv
          rcases List.mem_cons.1 h with rfl | h
          · exact .inr ⟨rfl, hv⟩
          · exact .inl (List.mem_cons_of_mem _ h)
      · rcases List.mem_cons.1 h with rfl | h
        · exact .inl (by simp)
        · rcases ih h with h | h
          · exact .inl (List.mem_cons_of_mem _ h)
          · exact .inr h

theorem Memory.rising_poke {m : Memory} (h : m.Rising) (a : Nat) (v : Byte) : (m.poke a v).Rising := by
  induction m with
  | nil =>
    simp only [Memory.poke]
    split <;> simp [Memory.Rising]
  | cons d m ih =>
    obtain ⟨b, w⟩ := d
    have hc := List.pairwise_cons.1 h
    simp only [Memory.poke]
    split
    · rename_i hab
      split
      · exact h
      · refine List.pairwise_cons.2 ⟨?_, h⟩
        rintro c hc'
        rcases List.mem_cons.1 hc' with rfl | hc'
        · exact hab
        · exact Nat.lt_trans hab (hc.1 c hc')
    · split
      · rename_i hab
        split
        · exact hc.2
        · exact List.pairwise_cons.2 ⟨fun c hc' => hab ▸ hc.1 c hc', hc.2⟩
      · rename_i h1 h2
        refine List.pairwise_cons.2 ⟨?_, ih hc.2⟩
        intro c hc'
        rcases Memory.mem_poke hc' with hc' | ⟨rfl, -⟩
        · exact hc.1 c hc'
        · simp only; omega

/-- A write inside the buffer keeps the canonical form. -/
theorem Memory.wf_poke {m : Memory} (h : m.wf = true) {a : Nat} (ha : a < 64) (v : Byte) : (m.poke a v).wf = true := by
  rw [Memory.wf_iff] at h ⊢
  refine ⟨fun c hc => ?_, Memory.rising_poke h.2 a v⟩
  rcases Memory.mem_poke hc with hc | ⟨rfl, hv⟩
  · exact h.1 c hc
  · exact ⟨ha, hv⟩

/-- `MemWrite` keeps the canonical form. -/
theorem Memory.wf_write {m m' : Memory} (h : m.wf = true) {i : Nat} {v : Byte} (hw : m.write i v = .ok m') : m'.wf = true := by
  unfold Memory.write at hw
  split at hw
  · cases hw
    exact Memory.wf_poke h ‹_› v
  · cases hw

/-- Zeroing the low bytes keeps the canonical form. -/
theorem Memory.wf_zeroBelow {m : Memory} (h : m.wf = true) (n : Nat) : (m.zeroBelow n).wf = true := by
  rw [Memory.wf_iff] at h ⊢
  exact ⟨fun c hc => h.1 c (List.mem_of_mem_filter hc), h.2.filter _⟩

/-- What zeroing the low bytes leaves: 0 below `n`, everything else as it was. -/
theorem Memory.peek_zeroBelow (m : Memory) (n i : Nat) : (m.zeroBelow n).peek i = if i < n then 0 else m.peek i := by
  induction m with
  | nil => simp [Memory.zeroBelow]
  | cons c m ih =>
    obtain ⟨b, w⟩ := c
    simp only [Memory.zeroBelow] at ih
    by_cases hb : n ≤ b
    · simp only [Memory.zeroBelow, List.filter_cons, decide_eq_true hb, if_true, Memory.peek]
      by_cases hbi : b = i
      · subst hbi
        simp [hb]
      · simp [hbi, ih]
    · simp only [Memory.zeroBelow, List.filter_cons, decide_eq_false hb, Memory.peek]
      by_cases hbi : b = i
      · subst hbi
        simp [ih, Nat.lt_of_not_le hb]
      · simp [hbi, ih]

/-- Reset memory has the canonical form. -/
theorem State.resetWith_lbuf_wf (p : Params) : (State.resetWith p).lbuf.wf = true := rfl

theorem State.reset_lbuf_wf : State.reset.lbuf.wf = true := rfl

/-- `MemRead` inside the buffer answers the byte there. -/
theorem Memory.read_eq {m : Memory} {i : Nat} (h : i < 64) : m.read i = .ok (m.peek i) := by simp [Memory.read, h]

/-- `MemWrite` inside the buffer answers the changed buffer. -/
theorem Memory.write_eq {m : Memory} {i : Nat} (h : i < 64) (v : Byte) : m.write i v = .ok (m.poke i v) := by simp [Memory.write, h]

end Sys2Proof.Machine
end

