-- ==== Sys2Proof/Laws/PerInstr.lean ====
section
/-! SUPPORT. Per-instruction facts about the syntax: an instruction's packet carries its row's opcode and belongs to the port its opcode names. -/

namespace Sys2Proof.Laws.PortOfOpcode

/-- The opcode map separates the ports by the top bit (30_encoding R81, R83): the packet of an instruction carries its row's opcode, and
that opcode names the instruction's port. -/
def Statement (i : Instr) : Prop := packetOp (encode i) = i.opcode ∧ portOfPacket (encode i) = i.port

/-- The port named by an opcode is the port of the row that has it. -/
theorem of_opcode (i : Instr) (h : (if i.opcode.getLsbD 7 then Port.event else Port.command) = i.port) : Statement i :=
  ⟨packetOp_encode i, by rw [portOfPacket, packetOp_encode, h]⟩

theorem nop : Statement .nop := of_opcode _ (by simp [Instr.opcode, Instr.port])
theorem rdreg (reg : Byte) : Statement (.rdreg reg) := of_opcode _ (by simp [Instr.opcode, Instr.port])
theorem wrreg (reg : Byte) (data : Word) : Statement (.wrreg reg data) := of_opcode _ (by simp [Instr.opcode, Instr.port])
theorem srst : Statement .srst := of_opcode _ (by simp [Instr.opcode, Instr.port])
theorem adstart : Statement .adstart := of_opcode _ (by simp [Instr.opcode, Instr.port])
theorem txbyte (byte : Byte) : Statement (.txbyte byte) := of_opcode _ (by simp [Instr.opcode, Instr.port])
theorem tcalc (c w : Bool) (ps : BitVec 16) (period : Word) : Statement (.tcalc c w ps period) := of_opcode _ (by simp [Instr.opcode, Instr.port])
theorem pwmset (val : Word) : Statement (.pwmset val) := of_opcode _ (by simp [Instr.opcode, Instr.port])
theorem pwmduty (c : Bool) (ps : BitVec 16) (val : Word) : Statement (.pwmduty c ps val) := of_opcode _ (by simp [Instr.opcode, Instr.port])
theorem pwmangle (c : Bool) (ps : BitVec 16) (val : Word) : Statement (.pwmangle c ps val) := of_opcode _ (by simp [Instr.opcode, Instr.port])
theorem svfold (c : Bool) (ps : BitVec 16) (val : Word) : Statement (.svfold c ps val) := of_opcode _ (by simp [Instr.opcode, Instr.port])
theorem binout (c : Bool) (val : Word) : Statement (.binout c val) := of_opcode _ (by simp [Instr.opcode, Instr.port])
theorem evTmr : Statement .evTmr := of_opcode _ (by simp [Instr.opcode, Instr.port])
theorem evAdc (sample : BitVec 10) : Statement (.evAdc sample) := of_opcode _ (by simp [Instr.opcode, Instr.port])
theorem evBtn : Statement .evBtn := of_opcode _ (by simp [Instr.opcode, Instr.port])
theorem evRx (byte : Byte) (oe fe : Bool) : Statement (.evRx byte oe fe) := of_opcode _ (by simp [Instr.opcode, Instr.port])
theorem evTxtake : Statement .evTxtake := of_opcode _ (by simp [Instr.opcode, Instr.port])

end Sys2Proof.Laws.PortOfOpcode
end

