-- ==== Sys2Proof/Laws/Services.lean ====
section
/-! SUPPORT. Everything a service can do: the RX service by the rows of 45_serial_line R242, the mapping of the ADC service by mode, and the
choice of the source to serve. -/

namespace Sys2Proof.Machine

/-! ## RX -/

/-- The bytes of the line held, LBUF[0] to LBUF[LEN − 1] (R236). -/
def State.lineHeld (s : State) : List Byte := (List.range s.len.toNat).map s.lbuf.peek

/-- What one serviced byte does to the line and to TXQ, before the last character is recorded (R242). -/
inductive LineWrite (s : State) (b : Byte) : State → Prop where
  | ignored : LineWrite s b s
  | erased (h : 0 < s.len.toNat) :
      LineWrite s b ((s.setLine (s.len - 1) (s.lbuf.poke (s.len - 1).toNat 0)).enqueueTx eraseSeq)
  | ended : LineWrite s b (((s.emitLine s.lineHeld).setLine 0 (s.lbuf.zeroBelow s.len.toNat)).enqueueTx [b])
  | appended (h : s.len.toNat < 63) : LineWrite s b ((s.setLine (s.len + 1) (s.lbuf.poke s.len.toNat b)).enqueueTx [b])

/-- Reading indices inside the buffer one after another answers the bytes there. -/
theorem Memory.mapM_read (m : Memory) (l : List Nat) (h : ∀ i ∈ l, i < 64) : l.mapM m.read = .ok (l.map m.peek) := by
  induction l with
  | nil => rfl
  | cons i l ih =>
    rw [List.mapM_cons, Memory.read_eq (h i (by simp)), ih fun j hj => h j (by simp [hj])]
    rfl

/-- Reading answers only where every index is inside the buffer. -/
theorem Memory.mapM_read_ok {m : Memory} {l : List Nat} {bs : List Byte} (h : l.mapM m.read = .ok bs) : bs = l.map m.peek := by
  induction l generalizing bs with
  | nil => cases h; rfl
  | cons i l ih =>
    rw [List.mapM_cons] at h
    cases hr : m.read i with
    | error e => rw [hr] at h; cases h
    | ok v =>
      cases hl : l.mapM m.read with
      | error e => rw [hr, hl] at h; cases h
      | ok vs =>
        rw [hr, hl] at h
        cases h
        have hv : v = m.peek i := by
          simp only [Memory.read] at hr
          split at hr
          · cases hr; rfl
          · cases hr
        rw [List.map_cons, ← ih hl, hv]

/-- The line read back is the line held, while LEN is within the buffer. -/
theorem State.lineBytes_eq {s : State} (h : s.len.toNat ≤ 64) : s.lineBytes = .ok s.lineHeld :=
  Memory.mapM_read _ _ fun _ hi => Nat.lt_of_lt_of_le (List.mem_range.1 hi) h

/-- A write that answers is a poke. -/
theorem Memory.write_ok {m m' : Memory} {i : Nat} {v : Byte} (h : m.write i v = .ok m') : m' = m.poke i v := by
  simp only [Memory.write] at h
  split at h
  · cases h; rfl
  · cases h

/-- `line_step` answers one of the rows of R242. -/
theorem State.lineStep_cases {s t : State} {b : Byte} (h : s.lineStep b = .ok t) : LineWrite s b t := by
  simp only [State.lineStep] at h
  split at h
  · simp only [State.backspace] at h
    split at h
    · cases h; exact .ignored
    · rename_i hl
      cases hw : s.lbuf.write (s.len - 1).toNat 0 with
      | error e => rw [hw] at h; cases h
      | ok m =>
        rw [hw] at h
        cases h
        rw [Memory.write_ok hw]
        exact .erased (by bv_omega)
  · split at h
    · split at h
      · cases h; exact .ignored
      · simp only [State.terminate] at h
        cases hl : s.lineBytes with
        | error e => rw [hl] at h; cases h
        | ok line =>
          rw [hl] at h
          cases h
          rw [Memory.mapM_read_ok hl]
          exact .ended
    · split at h
      · cases h; exact .ignored
      · simp only [State.appendByte] at h
        split at h
        · rename_i hl
          rw [Memory.write_eq (by omega)] at h
          cases h
          exact .appended hl
        · cases h; exact .ignored

/-- While LEN is at most 63, `line_step` answers. -/
theorem State.lineStep_answers {s : State} (h : s.len.toNat ≤ 63) (b : Byte) : ∃ t, s.lineStep b = .ok t := by
  simp only [State.lineStep]
  split
  · simp only [State.backspace]
    split
    · exact ⟨_, rfl⟩
    · rw [Memory.write_eq (by bv_omega)]
      exact ⟨_, rfl⟩
  · split
    · split
      · exact ⟨_, rfl⟩
      · simp only [State.terminate, State.lineBytes_eq (show s.len.toNat ≤ 64 by omega)]
        exact ⟨_, rfl⟩
    · split
      · exact ⟨_, rfl⟩
      · simp only [State.appendByte]
        split
        · rw [Memory.write_eq (by omega)]
          exact ⟨_, rfl⟩
        · exact ⟨_, rfl⟩

/-- The RX service: overrun toggle, then nothing for a framing error, else the line step, then the end of the byte (R231). -/
theorem State.serviceRx_eq (s : State) : s.serviceRx =
    ((if s.rxferr then .ok s.afterToggle else s.afterToggle.lineStep s.rxbyte).map fun t => (t.endByte s.rxbyte).clearPending .rx) := by
  simp only [State.serviceRx]
  cases s.rxferr
  · cases s.afterToggle.lineStep s.rxbyte <;> rfl
  · rfl

/-- What an RX service that answers leaves. -/
theorem State.serviceRx_cases {s t : State} (h : s.serviceRx = .ok t) :
    ∃ u, LineWrite s.afterToggle s.rxbyte u ∧ t = (u.endByte s.rxbyte).clearPending .rx := by
  rw [State.serviceRx_eq] at h
  split at h
  · cases h; exact ⟨_, .ignored, rfl⟩
  · cases hl : s.afterToggle.lineStep s.rxbyte with
    | error e => rw [hl] at h; cases h
    | ok u => rw [hl] at h; cases h; exact ⟨u, State.lineStep_cases hl, rfl⟩

/-- While LEN is at most 63, the RX service answers. -/
theorem State.serviceRx_answers {s : State} (h : s.len.toNat ≤ 63) : ∃ t, s.serviceRx = .ok t := by
  rw [State.serviceRx_eq]
  split
  · exact ⟨_, rfl⟩
  · obtain ⟨u, hu⟩ := State.lineStep_answers (s := s.afterToggle) (by simpa using h) s.rxbyte
    rw [hu]
    exact ⟨_, rfl⟩

/-- `echo_len()` is exactly the number of bytes the RX service enqueues (R241). -/
theorem State.serviceRx_txq_length {s t : State} (h : s.serviceRx = .ok t) : t.txq.length = s.txq.length + s.echoLen := by
  rw [State.serviceRx_eq] at h
  simp only [State.echoLen]
  split at h
  · cases h; simp [*]
  · rename_i hf
    rw [if_neg hf]
    cases hl : s.afterToggle.lineStep s.rxbyte with
    | error e => rw [hl] at h; cases h
    | ok u =>
      rw [hl] at h
      cases h
      simp only [State.clearPending_txq, State.endByte_txq]
      have hc : s.afterToggle.crlfSecond s.rxbyte = s.crlfSecond s.rxbyte := by simp [State.crlfSecond]
      simp only [State.lineStep, hc] at hl
      split at hl
      · rename_i hb
        rw [if_pos hb]
        simp only [State.backspace, State.afterToggle_len] at hl
        split at hl
        · rename_i h0; rw [if_pos h0]; cases hl; simp
        · rename_i h0
          rw [if_neg h0]
          cases hw : s.afterToggle.lbuf.write (s.len - 1).toNat 0 with
          | error e => rw [hw] at hl; cases hl
          | ok m => rw [hw] at hl; cases hl; simp [eraseSeq]
      · rename_i hb
        rw [if_neg hb]
        split at hl
        · rename_i ht
          rw [if_pos ht]
          split at hl
          · rename_i hs; rw [if_pos hs]; cases hl; simp
          · rename_i hs
            rw [if_neg hs]
            simp only [State.terminate] at hl
            cases hw : s.afterToggle.lineBytes with
            | error e => rw [hw] at hl; cases hl
            | ok m => rw [hw] at hl; cases hl; simp
        · rename_i ht
          rw [if_neg ht]
          split at hl
          · rename_i hs; rw [if_pos hs]; cases hl; simp
          · rename_i hs
            rw [if_neg hs]
            simp only [State.appendByte, State.afterToggle_len] at hl
            split at hl
            · rename_i hn
              rw [if_pos hn]
              rw [Memory.write_eq (by omega)] at hl
              cases hl
              simp
            · rename_i hn; rw [if_neg hn]; cases hl; simp

/-! ## ADC -/

/-- What the active mode's mapping leaves (R201). -/
inductive SampleWrite (s : State) : State → Prop where
  | none : SampleWrite s s
  | leds (v : Nat) (h : s.mode.ownsLed = true) : SampleWrite s (s.out4 v)
  | parity (inc : Bool) (v : Nat) (h : s.mode = .parityDir) : SampleWrite s ((s.setInc inc).out4 v)
  | marquee (o : Byte × BitVec 16) (h : s.mode = .marquee ∨ s.mode = .singleMarquee) : SampleWrite s (s.mapMarquee o)
  | zoneCount (z n : Nat) (hz : z < 4) (hn : n < zoneThreshold z) (h : s.mode = .zoneBlink) : SampleWrite s (s.setZone z n)
  | zoneToggle (z : Nat) (hz : z < 4) (b : Bool) (v : Nat) (hv : s.pwmCheck v = Option.none) (h : s.mode = .zoneBlink) :
      SampleWrite s (((s.setZone z 0).showBlink b).pwmWrite v)
  | recorded (e : Err) : SampleWrite s (s.record e)
  | angle (v a : Nat) (hv : s.pwmCheck v = Option.none) (ha : a ≤ 180) (h : s.mode = .angleSample) : SampleWrite s (s.servoSet v a)
  | bright (v : Nat) (hv : s.pwmCheck v = Option.none) (h : s.mode = .brightSample) : SampleWrite s (s.pwmWrite v)

/-- The mapping of a sample is one of the writes of R205 to R218. -/
theorem State.mapSample_cases (s : State) (raw prev sm : BitVec 10) : SampleWrite s (s.mapSample raw prev sm) := by
  simp only [State.mapSample]
  split
  · exact .none
  · exact .leds _ (by simp [*, Mode.ownsLed])
  · simp only [State.mapAngle]
    split
    · exact .recorded _
    · rename_i hc
      rw [check_orElse] at hc
      split at hc
      · cases hc
      · rename_i hd
        exact .angle _ _ hc (Nat.le_of_not_lt hd) ‹_›
  · simp only [State.mapBright]
    split
    · exact .recorded _
    · exact .bright _ ‹_› ‹_›
  · exact .marquee _ (.inl ‹_›)
  · have hz : zoneOf sm.toNat < 4 := by unfold zoneOf; omega
    simp only [State.mapZone]
    generalize (if s.zone.toNat = zoneOf sm.toNat then s.zcnt.toNat else 0) + 1 = n
    split
    · refine .zoneToggle _ hz _ _ ?_ ‹_›
      rw [State.pwmCheck_eq_none]
      split
      · omega
      · exact s.dutyFull_le
    · exact .zoneCount _ _ hz (Nat.lt_of_not_le ‹_›) ‹_›
  · exact .marquee _ (.inr ‹_›)
  · exact .leds _ (by simp [*, Mode.ownsLed])
  · exact .leds _ (by simp [*, Mode.ownsLed])
  · exact .parity _ _ ‹_›
  · exact .none
  · exact .none

/-- What the ADC service leaves: the filter's writes, one mapping, and the flag cleared (R199). -/
theorem State.serviceAdc_cases (s : State) :
    ∃ t, SampleWrite (s.filterWrite (smoothed s.sflast s.adcdata) s.adcdata) t ∧ s.serviceAdc = t.clearPending .adc :=
  ⟨_, State.mapSample_cases _ _ _ _, rfl⟩

/-! ## BTN and TMR -/

/-- What a debounce tick leaves (R184). -/
inductive TickWrite (s : State) : State → Prop where
  | idle (h : s.armed = false) : TickWrite s s
  | press (h : s.armed = true) (hn : s.dbncnt.toNat ≤ 1) : TickWrite s s.pressed.closeWindow
  | count (h : s.armed = true) (hn : 2 ≤ s.dbncnt.toNat) : TickWrite s s.shortenWindow

theorem State.debounceTick_cases (s : State) : TickWrite s s.debounceTick := by
  simp only [State.debounceTick]
  split
  · split
    · exact .press ‹_› ‹_›
    · exact .count ‹_› (by omega)
  · exact .idle (by simp_all)

/-! ## All services -/

/-- What the service of a source leaves. -/
inductive ServiceWrite (s : State) : Src → State → Prop where
  | tmr (t : State) (h : TickWrite s.loadTimer t) : ServiceWrite s .tmr (t.clearPending .tmr)
  | adc (t : State) (h : SampleWrite (s.filterWrite (smoothed s.sflast s.adcdata) s.adcdata) t) :
      ServiceWrite s .adc (t.clearPending .adc)
  | edge (h : s.armed = false) : ServiceWrite s .btn (s.openWindow.clearPending .btn)
  | bounce (h : s.armed = true) : ServiceWrite s .btn (s.clearPending .btn)
  | rx (t : State) (h : LineWrite s.afterToggle s.rxbyte t) : ServiceWrite s .rx ((t.endByte s.rxbyte).clearPending .rx)

/-- A service that answers has done one of these. -/
theorem State.serve_cases {s t : State} {x : Src} (h : s.serve x = .ok t) : ServiceWrite s x t := by
  cases x
  · cases h
    exact .tmr _ (State.debounceTick_cases _)
  · cases h
    exact .adc _ (State.mapSample_cases _ _ _ _)
  · cases h
    simp only [State.serviceBtn]
    split
    · exact .bounce ‹_›
    · exact .edge (by simp_all)
  · obtain ⟨u, hu, rfl⟩ := State.serviceRx_cases h
    exact .rx u hu

/-- No service touches the context stack. -/
theorem ServiceWrite.stack_eq {s t : State} {x : Src} (h : ServiceWrite s x t) : t.stack = s.stack := by
  cases h with
  | tmr t h => cases h <;> simp
  | adc t h => cases h <;> simp
  | rx t h => cases h <;> simp
  | _ => simp

/-- While LEN is at most 63, every service answers. -/
theorem State.serve_answers {s : State} (h : s.len.toNat ≤ 63) (x : Src) : ∃ t, s.serve x = .ok t := by
  cases x
  · exact ⟨_, rfl⟩
  · exact ⟨_, rfl⟩
  · exact ⟨_, rfl⟩
  · exact State.serviceRx_answers h

/-! ## Which source is served -/

/-- A level is requested exactly when some source is pending, enabled and of that level (R276). -/
theorem State.request_iff (s : State) (lv : Level) :
    s.request lv = true ↔ ∃ x : Src, s.pending x = true ∧ s.sourceEnabled x = true ∧ s.levelOf x = lv := by
  simp only [State.request, List.any_eq_true, Bool.and_eq_true, State.active, beq_iff_eq]
  constructor
  · rintro ⟨x, -, ⟨a, b⟩, c⟩
    exact ⟨x, a, b, c⟩
  · rintro ⟨x, a, b, c⟩
    exact ⟨x, by cases x <;> simp [allSources], ⟨a, b⟩, c⟩

/-- Nothing is left to serve exactly when no source from the cursor on is active at the frame's level (R281). -/
theorem State.nextSource_eq_none (s : State) (f : Frame) : s.nextSource f = none ↔
    ∀ y : Src, f.cursor.val ≤ y.index → ¬ (s.pending y = true ∧ s.sourceEnabled y = true ∧ s.levelOf y = f.level) := by
  simp only [State.nextSource, List.find?_eq_none, Bool.and_eq_true, decide_eq_true_eq, beq_iff_eq, State.active]
  constructor
  · rintro h y hc ⟨a, b, c⟩
    exact h y (by cases y <;> simp [allSources]) ⟨⟨hc, a, b⟩, c⟩
  · rintro h y - ⟨⟨hc, a, b⟩, c⟩
    exact h y hc ⟨a, b, c⟩

/-- The source served is the least one from the cursor on that is active at the frame's level (R281). -/
theorem State.nextSource_eq_some (s : State) (f : Frame) (x : Src) (hc : f.cursor.val ≤ x.index) (hp : s.pending x = true)
    (he : s.sourceEnabled x = true) (hl : s.levelOf x = f.level)
    (h : ∀ y : Src, f.cursor.val ≤ y.index → y.index < x.index →
      ¬ (s.pending y = true ∧ s.sourceEnabled y = true ∧ s.levelOf y = f.level)) : s.nextSource f = some x := by
  have hx : (decide (f.cursor.val ≤ x.index) && s.active x && s.levelOf x == f.level) = true := by
    simp [State.active, hc, hp, he, hl]
  have hy : ∀ y : Src, y.index < x.index → (decide (f.cursor.val ≤ y.index) && s.active y && s.levelOf y == f.level) = false := by
    intro y hlt
    rw [Bool.eq_false_iff]
    intro hy
    simp only [Bool.and_eq_true, decide_eq_true_eq, beq_iff_eq, State.active] at hy
    exact h y hy.1.1 hlt ⟨hy.1.2.1, hy.1.2.2, hy.2⟩
  unfold State.nextSource allSources
  cases x
  · simp only [List.find?, hx]
  · simp only [List.find?, hx, hy .tmr (by decide)]
  · simp only [List.find?, hx, hy .tmr (by decide), hy .adc (by decide)]
  · simp only [List.find?, hx, hy .tmr (by decide), hy .adc (by decide), hy .btn (by decide)]

/-- And only that source is served. -/
theorem State.nextSource_least {s : State} {f : Frame} {x : Src} (h : s.nextSource f = some x) :
    (f.cursor.val ≤ x.index ∧ s.active x = true ∧ s.levelOf x = f.level)
    ∧ ∀ y : Src, f.cursor.val ≤ y.index → y.index < x.index → ¬ (s.active y = true ∧ s.levelOf y = f.level) := by
  have hx := List.find?_some h
  simp only [Bool.and_eq_true, decide_eq_true_eq, beq_iff_eq] at hx
  refine ⟨⟨hx.1.1, hx.1.2, hx.2⟩, fun y hc hlt hy => ?_⟩
  have hp : (decide (f.cursor.val ≤ y.index) && s.active y && s.levelOf y == f.level) = true := by simp [hc, hy]
  obtain ⟨as, bs, hl, hn⟩ := (List.find?_eq_some_iff_append.1 h).2
  have hm : y ∈ as := by
    have hmem : ∀ z, z ∈ allSources → z.index < x.index → z ∈ as := by
      intro z hz hzx
      have hr : allSources.Pairwise fun a b => a.index < b.index := by decide
      rw [hl] at hz hr
      rcases List.mem_append.1 hz with hz | hz
      · exact hz
      · rcases List.mem_cons.1 hz with rfl | hz
        · omega
        · have := (List.pairwise_cons.1 (List.pairwise_append.1 hr).2.1).1 z hz
          omega
    exact hmem y (by cases y <;> decide) hlt
  have := hn y hm
  rw [hp] at this
  exact absurd this (by decide)

end Sys2Proof.Machine
end

