-- ==== Sys2Proof/Laws/Step.lean ====
section
/-! SUPPORT. Everything one step of the block can do, said once: every statement about all steps goes through `step_moves`. -/

namespace Sys2Proof.Machine

/-- What an event does where it is enabled (41 R135, 43 R180, 44 R197, 45 R230 R247). -/
inductive EventWrite (s : State) : State → Prop where
  | tmr : EventWrite s (s.setPending .tmr)
  | btn : EventWrite s (s.setPending .btn)
  | adc (x : BitVec 10) (h : s.adBusy = true) : EventWrite s ((s.latchSample x).setPending .adc)
  | rx (b : Byte) (oe fe : Bool) (h : s.pending .rx = false) : EventWrite s ((s.latchByte b oe fe).setPending .rx)
  | txtake (b : Byte) (rest : List Byte) (h : s.txq = b :: rest) : EventWrite s (s.takeTx b rest)
  | disabled : EventWrite s s

/-- Every event answers a next state. -/
theorem exec_event {i : Instr} (hp : i.port = .event) (s : State) : ∃ t, exec i s = .next t ∧ EventWrite s t := by
  cases i <;> simp only [Instr.port, reduceCtorEq] at hp
  case evTmr => exact ⟨_, rfl, .tmr⟩
  case evBtn => exact ⟨_, rfl, .btn⟩
  case evAdc x =>
    refine ⟨_, rfl, ?_⟩
    split
    · exact .adc x ‹_›
    · exact .disabled
  case evRx b oe fe =>
    refine ⟨_, rfl, ?_⟩
    split
    · exact .disabled
    · exact .rx b oe fe (by simp_all)
  case evTxtake =>
    cases h : s.txq with
    | nil => exact ⟨s, by simp only [exec, execEvTxtake, h], .disabled⟩
    | cons b rest => exact ⟨s.takeTx b rest, by simp only [exec, execEvTxtake, h], .txtake b rest h⟩

/-- An accepted packet is the row's instruction, with its reserved bits clear. -/
theorem acceptIf_ok {ε : Type} {c : Bool} {e : ε} {i j : Instr} (h : acceptIf c e i = .ok j) : c = true ∧ j = i := by
  simp only [acceptIf] at h
  split at h
  · cases h; exact ⟨‹_›, rfl⟩
  · cases h

/-- Only commands come out of the command decoder. -/
theorem decodeCommand_port {p : Packet} {i : Instr} (h : decodeCommand p = .ok i) : i.port = .command := by
  unfold decodeCommand at h
  split at h <;> first | (rw [(acceptIf_ok h).2]; rfl) | cases h

/-- Only events come out of the event decoder. -/
theorem decodeEvent_port {p : Packet} {i : Instr} (h : decodeEvent p = .ok i) : i.port = .event := by
  unfold decodeEvent at h
  split at h <;> first | (rw [(acceptIf_ok h).2]; rfl) | cases h

/-- One move of the block from `s`, the turn having been taken off the list; `cycle` says that the turn is the power cycle. -/
inductive Moves (cycle : Prop) (s : State) : State → Prop where
  /-- The turn was not enabled, or there was nothing to do. -/
  | rest : Moves cycle s s
  /-- The power cycle. -/
  | powerCycle (h : cycle) : Moves cycle s s.hardReset
  /-- ENTER_HIGH. -/
  | enterHigh (h : s.canEnterHigh = true) : Moves cycle s (s.enter .high)
  /-- ENTER_LOW. -/
  | enterLow (h : s.canEnterLow = true) : Moves cycle s (s.enter .low)
  /-- SERVICE of one source. -/
  | service (f : Frame) (rest : List Frame) (x : Src) (t : State) (hs : s.stack = f :: rest) (hn : s.nextSource f = some x)
      (hh : s.serviceHolds x = false) (hw : s.waitsAtRx f = false) (ht : (s.endWait x).serve x = .ok t) :
      Moves cycle s (t.setTop { f with cursor := x.past } rest)
  /-- RETURN. -/
  | leave (f : Frame) (rest : List Frame) (hs : s.stack = f :: rest) (hn : s.nextSource f = none) : Moves cycle s s.leave
  /-- A packet that is no command. -/
  | malformed (p : Packet) (rest : List Packet) (e : CommandReject) (hs : s.stack = []) (hc : s.cmdPort = p :: rest)
      (hd : decodeCommand p = .error e) : Moves cycle s ((s.leaveCommands rest).raise (errOfReject e))
  /-- A host command. -/
  | command (p : Packet) (rest : List Packet) (i : Instr) (t : State) (hs : s.stack = []) (hc : s.cmdPort = p :: rest)
      (hd : decodeCommand p = .ok i) (he : Instr.enabled i s = true) (ht : CommandEnd (s.leaveCommands rest) i t)
      (hn : ∀ b, i = .txbyte b → s.txFull = false) : Moves cycle s t
  /-- An event. -/
  | event (p : Packet) (rest : List Packet) (i : Instr) (t : State) (hc : s.evtPort = p :: rest) (hd : decodeEvent p = .ok i)
      (ht : EventWrite (s.leaveEvents rest).noteWait t) : Moves cycle s t

/-- Every command but a TXBYTE is enabled in FG. -/
theorem enabled_of_fg {i : Instr} {s : State} (hp : i.port = .command) (hs : s.stack = []) (h : ∀ b, i = .txbyte b → s.txFull = false) :
    Instr.enabled i s = true := by
  cases i <;> simp only [Instr.port, reduceCtorEq] at hp <;> simp_all [Instr.enabled]

/-- What a turn that answers a next state has done. -/
theorem takeTurn_moves {s t : State} {u : Turn} (h : s.takeTurn u = .next t) : Moves (u = .powerCycle) s t := by
  cases u
  case host =>
    simp only [State.takeTurn, State.hostTurn] at h
    split at h
    · rename_i p rest hs hc
      split at h
      · cases h; exact .malformed p rest _ hs hc ‹_›
      · rename_i i hd
        have hp := decodeCommand_port hd
        by_cases he : Instr.enabled i s = true
        · rw [if_pos he] at h
          obtain ⟨v, hv, hend⟩ := exec_command hp (s := s.leaveCommands rest) hs
          rw [hv] at h
          cases h
          refine .command p rest i t hs hc hd he hend ?_
          rintro b rfl
          simp_all [Instr.enabled]
        · rw [if_neg he] at h
          have : ∃ b, i = .txbyte b ∧ s.txFull = true := by
            cases i <;> simp_all [Instr.enabled, Instr.port]
          obtain ⟨b, rfl, hf⟩ := this
          simp only [exec, execTxbyte, hf, if_true] at h
          cases h; exact .rest
    · cases h; exact .rest
  case environment =>
    simp only [State.takeTurn, State.environmentTurn] at h
    split at h
    · cases h; exact .rest
    · rename_i p rest hc
      split at h
      · cases h
      · rename_i i hd
        obtain ⟨v, hv, he⟩ := exec_event (decodeEvent_port hd) (s.leaveEvents rest).noteWait
        rw [hv] at h
        cases h
        exact .event p rest i t hc hd he
  case enterHigh =>
    simp only [State.takeTurn, State.enterHighStep] at h
    split at h
    · cases h; exact .enterHigh ‹_›
    · cases h; exact .rest
  case enterLow =>
    simp only [State.takeTurn, State.enterLowStep] at h
    split at h
    · cases h; exact .enterLow ‹_›
    · cases h; exact .rest
  case service =>
    simp only [State.takeTurn, State.serviceStep] at h
    split at h
    · cases h; exact .rest
    · rename_i f rest hs
      split at h
      · cases h; exact .rest
      · rename_i x hn
        split at h
        · cases h; exact .rest
        · rename_i hh
          split at h
          · rename_i v hv
            cases h
            exact .service f rest x v hs hn (by simp_all) (by simp_all) hv
          · cases h
  case leave =>
    simp only [State.takeTurn, State.returnStep] at h
    split at h
    · cases h; exact .rest
    · rename_i f rest hs
      split at h
      · cases h; exact .leave f rest hs ‹_›
      · cases h; exact .rest
  case powerCycle => cases h; exact .powerCycle rfl

/-- A power cycle is never due: it is drawn. -/
theorem dueTurn_ne_powerCycle (s : State) : s.dueTurn ≠ some .powerCycle := by
  simp only [State.dueTurn]
  repeat' split
  all_goals simp

/-- What a step that answers a next state has done, from the state with its turn taken. -/
theorem step_moves {s t : State} (h : step s = .next t) : Moves (s.turns.head? = some .powerCycle) (s.leaveTurns s.turns.tail) t := by
  simp only [step, State.move] at h
  split at h
  · rename_i u ts ht
    have := takeTurn_moves h
    simpa [ht] using this
  · rename_i ht
    have hs : s.leaveTurns s.turns.tail = s := by
      rw [ht]
      obtain ⟨_⟩ := s
      cases ht
      rfl
    rw [hs]
    split at h
    · rename_i u hu
      have hne : u ≠ .powerCycle := fun hp => dueTurn_ne_powerCycle s (hp ▸ hu)
      have := takeTurn_moves h
      simpa [ht, hne] using this
    · cases h; exact .rest

end Sys2Proof.Machine
end

