-- ==== Sys2Proof/Tests/Slice0.lean ====
section
/-! SUPPORT. The model's own tests: expected values are those of 95_test_vectors or written out by hand from a rule; and for each statement
with hypotheses a concrete state that meets them, at the boundaries where its clauses meet. -/

namespace Sys2Proof.Tests

open Sys2Proof Sys2Proof.Machine Sys2Proof.Claims

/-! ## Well-formedness -/

/-- R86: with C = 0 a prescale in SVFOLD is no packet of the block. -/
theorem test_wf_refuses_prescale_without_commit : (Instr.svfold false 16 90).wf = false := by decide

/-- And its word is rejected: vector PW35. -/
theorem test_word_refuses_prescale_without_commit : decodeCommand 0x230000100000005A = .error .reserved := by decide

/-! ## Decoding: one word per constructor, written out from 30_encoding R81 to R85 -/

theorem test_word_nop : decodeTableWord 64 0x0000000000000000 = some .nop := by decide
theorem test_word_rdreg : decodeTableWord 64 0x0110000000000000 = some (.rdreg 0x10) := by decide
theorem test_word_wrreg : decodeTableWord 64 0x0203000000000009 = some (.wrreg 0x03 9) := by decide
theorem test_word_srst : decodeTableWord 64 0x0300000000000000 = some .srst := by decide
theorem test_word_adstart : decodeTableWord 64 0x0400000000000000 = some .adstart := by decide
theorem test_word_txbyte : decodeTableWord 64 0x0500000000000052 = some (.txbyte 0x52) := by decide
theorem test_word_tcalc : decodeTableWord 64 0x10030008000003E8 = some (.tcalc true true 8 1000) := by decide
theorem test_word_tcalc_w8 : decodeTableWord 64 0x1002000100000101 = some (.tcalc true false 1 257) := by decide
theorem test_word_pwmset : decodeTableWord 64 0x20000000000003FF = some (.pwmset 1023) := by decide
theorem test_word_pwmduty : decodeTableWord 64 0x21020001000001C2 = some (.pwmduty true 1 450) := by decide
theorem test_word_pwmangle : decodeTableWord 64 0x220200040000005A = some (.pwmangle true 4 90) := by decide
theorem test_word_svfold : decodeTableWord 64 0x23000000FFFFFFA6 = some (.svfold false 0 (-90)) := by decide
theorem test_word_binout : decodeTableWord 64 0x3002000000000009 = some (.binout true 9) := by decide
theorem test_word_evTmr : decodeTableWord 64 0x8000000000000000 = some .evTmr := by decide
theorem test_word_evAdc : decodeTableWord 64 0x81000000000002AA = some (.evAdc 682) := by decide
theorem test_word_evBtn : decodeTableWord 64 0x8200000000000000 = some .evBtn := by decide
theorem test_word_evRx : decodeTableWord 64 0x8302000000000041 = some (.evRx 0x41 false true) := by decide
theorem test_word_evTxtake : decodeTableWord 64 0x8400000000000000 = some .evTxtake := by decide

/-- R62: byte 0 of a packet is bits 7:0, byte 7 is OP. -/
theorem test_packet_bytes : bytesOfPacket 0x10030008000003E8 = [0xE8, 0x03, 0x00, 0x00, 0x08, 0x00, 0x03, 0x10] := by decide

/-! ## One step from reset -/

/-- The state a step leaves, or the state after reset where it stops. -/
def after : Step → State
  | .next t => t
  | .fault _ => State.reset
  | .refused _ => State.reset

/-- The state after one table word run right after reset. -/
def run (w : Nat) : State := after (step (State.reset.withFetchWord 64 w))

/-- The same from a state of the test's own. -/
def runIn (s : State) (w : Nat) : State := after (step (s.withFetchWord 64 w))

/-- The response of a command with status 0. -/
def ok (r : Word) : Option Response := some { status := 0, result := r }

/-- The response of a failed command. -/
def err (code : Byte) : Option Response := some { status := code, result := 0 }

/-- The state after reset with MODE given. -/
def inMode (m : Mode) : State := { State.reset with mode := m }

/-- HC1. -/
theorem test_nop : (run 0x0000000000000000).resp = ok 0 := by decide
/-- HC3: an unassigned opcode. -/
theorem test_unassigned_opcode : (run 0x0600000000000000).resp = err 0x01 ∧ (run 0x0600000000000000).errflags = 0x2 := by decide
/-- HC6, HC7. -/
theorem test_rdreg : (run 0x0110000000000000).resp = ok 0xC8 ∧ (run 0x011C000000000000).resp = err 0x0A := by decide
/-- HC9: RDREG STATUS answers the status of the command before. -/
theorem test_rdreg_status : (runIn { State.reset with lasterr := 1 } 0x0100000000000000).resp = ok 1
    ∧ (runIn { State.reset with lasterr := 1 } 0x0100000000000000).lasterr = 0 := by decide
/-- HC16: only DATA[3:0] = 9 of MODE is used. -/
theorem test_wrreg_mode : (run 0x0206000000000019).mode = .parityDir ∧ (run 0x020600000000000C).resp = err 0x0C := by decide
/-- HC23, HC12. -/
theorem test_wrreg_iprio : (run 0x0204000000000000).iprio = 0b0100 ∧ (run 0x0207000000000005).resp = err 0x0B := by decide
/-- HC26: SRST closes the window and keeps OUT. -/
theorem test_srst : (runIn { State.reset with armed := true, dbncnt := 2, out := 0x30 } 0x0300000000000000).armed = false
    ∧ (runIn { State.reset with armed := true, dbncnt := 2, out := 0x30 } 0x0300000000000000).out = 0x30 := by decide
/-- SF1, SF2. -/
theorem test_adstart : (run 0x0400000000000000).adBusy = true
    ∧ (runIn { State.reset with adBusy := true } 0x0400000000000000).resp = err 0x0D := by decide
/-- SL15. -/
theorem test_txbyte : (run 0x0500000000000052).txq = [0x52] ∧ (run 0x0500000000000052).resp = ok 0 := by decide
/-- TC1, TC9. -/
theorem test_tcalc : (run 0x10030001000003E8).reload = 0xFC18 ∧ (run 0x1000000100000100).resp = ok 0 := by decide
/-- TC10, TC6. -/
theorem test_tcalc_rejects : (run 0x1000000100000101).resp = err 0x05 ∧ (run 0x1002000100000000).cfgFault = true
    ∧ (run 0x1002000100000000).resp = err 0x04 := by decide
/-- PW1, PW2. -/
theorem test_pwmset : (run 0x20000000000003FF).dch = 0xFF ∧ (run 0x20000000000003FF).dcl = 3
    ∧ (run 0x2000000000000400).resp = err 0x06 := by decide
/-- PW6: the range error before the ownership error. -/
theorem test_pwmset_order : (runIn (inMode .zoneBlink) 0x20000000000007D0).resp = err 0x06
    ∧ (runIn (inMode .zoneBlink) 0x2000000000000064).resp = err 0x09 := by decide
/-- PW8, PW13: with C = 0 no owner check is made. -/
theorem test_pwmduty : (run 0x21000001000001C2).resp = ok 0x27001C2
    ∧ (runIn (inMode .angleSample) 0x21000001000001C2).resp = ok 0x27001C2 := by decide
/-- PW15, PW20. -/
theorem test_pwmangle : (run 0x220200040000005A).resp = ok 0x25A016A ∧ (run 0x220200040000005A).svang = 90
    ∧ (run 0x22000004000000B5).resp = err 0x08 := by decide
/-- R161's examples: the lines "-90" and "90". -/
theorem test_svfold : (run 0x23000000FFFFFFA6).resp = ok 0 ∧ (run 0x230000000000005A).resp = ok 180 := by decide
/-- R160's values. -/
theorem test_fold : fold 90 = 180 ∧ fold 91 = 0 ∧ fold (-91) = 179 ∧ fold (-100) = 170 ∧ fold 1000 = 4 ∧ fold (-1000) = 175 := by decide
/-- SF23, SF24. -/
theorem test_binout : (run 0x30000000FFFFFFFB).resp = ok 0 ∧ (run 0x3000000000000063).resp = ok 15 := by decide
/-- SF25, SF21. -/
theorem test_binout_owner : (runIn (inMode .binary) 0x3002000000000003).resp = err 0x09
    ∧ (runIn (inMode .binaryInput) 0x3002000000000009).out = 0x09 := by decide
/-- TC18. -/
theorem test_evTmr : (run 0x8000000000000000).iflags = 0b0001 := by decide
/-- SF4, SF3. -/
theorem test_evAdc : (runIn { State.reset with adBusy := true } 0x81000000000002AA).adcdata = 682
    ∧ (run 0x8100000000000005).iflags = 0 := by decide
/-- R180's example. -/
theorem test_evBtn : (run 0x8200000000000000).iflags = 0b0100 := by decide
/-- R230's example, and SL14: a byte is not delivered while RXIF is 1. -/
theorem test_evRx : (run 0x8300000000000039).rxbyte = 0x39 ∧ (run 0x8300000000000039).iflags = 0b1000
    ∧ (runIn { State.reset with rxbyte := 0x41, iflags := 0b1000 } 0x8300000000000042).rxbyte = 0x41 := by decide
/-- R247's example. -/
theorem test_evTxtake : (runIn { State.reset with txq := [0x39, 0x30] } 0x8400000000000000).txq = [0x30]
    ∧ (runIn { State.reset with txq := [0x39, 0x30] } 0x8400000000000000).txout = [0x39] := by decide

/-- The first step after reset with nothing placed leaves the block at rest. -/
theorem test_reset_rests : (after (step State.reset)).resp = none ∧ (after (step State.reset)).stack = [] := by decide

/-! ## The services and the dispatcher -/

/-- A state with one frame on top, one source pending and everything enabled. -/
def serving (f : Frame) (flags : BitVec 4) : State :=
  { State.reset with stack := [f], iflags := flags, ienable := 0b1111, gieh := true, giel := true }

/-- IR3's first step: BTN's request at the high level comes before TMR's at the low. -/
theorem test_enterHigh_first : (after (step { serving ⟨.low, 0⟩ 0b0101 with stack := [] })).stack = [⟨.high, 0⟩] := by decide

/-- TC19's service: one TMRLOAD element, TMRIF cleared, the cursor past TMR. -/
theorem test_service_tmr : (after (step { serving ⟨.low, 0⟩ 0b0001 with reload := 0xFC18 })).tmrload = [(0xFC18, true)]
    ∧ (after (step (serving ⟨.low, 0⟩ 0b0001))).iflags = 0 ∧ (after (step (serving ⟨.low, 0⟩ 0b0001))).stack = [⟨.low, 1⟩] := by decide

/-- DB5: DBNCFG = 0 presses at the first tick. -/
theorem test_tick_zero_window : (State.serviceTmr { State.reset with armed := true, dbncnt := 0 }).btncnt = 1 := by decide

/-- SF6, SF7: sm = 682 shows 10 and 681 shows 9. -/
theorem test_binary_display : ((inMode .binary).sampled 682 |>.sampled 682).out = 0x0A
    ∧ ((inMode .binary).sampled 681 |>.sampled 681).out = 0x09 := by decide

/-- SF10, SF13: the clamp of STATE10 at 1020 and STATE7's band below 876. -/
theorem test_nstate_display : ((inMode .state10).sampled 1020 |>.sampled 1020).out = 0x09
    ∧ ((inMode .state7).sampled 875 |>.sampled 875).out = 0x05 := by decide

/-- SF15, SF16: 200 to 206 leaves the band, 200 to 205 does not. -/
theorem test_parity_band : ((inMode .parityDir).sampled 300 |>.sampled 200 |>.sampled 206).out = 0x03
    ∧ ((inMode .parityDir).sampled 300 |>.sampled 200 |>.sampled 205).out = 0x02 := by decide

/-- SL2: the erase echo. -/
theorem test_del_echo : (State.receivedAll State.reset [0x41, 0x7F]).toOption.map (·.txq) = some [0x41, 0x08, 0x20, 0x08] := by decide

/-- SL6: LF LF gives two empty lines. -/
theorem test_lf_lf : (State.receivedAll State.reset [0x0A, 0x0A]).toOption.map (·.lines) = some [[], []] := by decide

/-! ## Witnesses: states and operands that meet the hypotheses of each statement -/

/-- The state after reset with these turns drawn. -/
def drawn (ts : List Turn) : State := { State.reset with turns := ts }

/-- The host about to issue a packet. -/
def issuing (p : Packet) : State := { State.reset with turns := [.host], cmdPort := [p] }

/-- The environment about to offer a packet. -/
def offering (p : Packet) : State := { State.reset with turns := [.environment], evtPort := [p] }

theorem test_witness_EncodeThenDecode : (Instr.svfold false 0 90).wf = true ∧ (Instr.svfold true 0xFFFF 0xFFFFFFFF).wf = true
    ∧ (Instr.evRx 0xFF true true).wf = true := by decide

theorem test_witness_DecodeThenEncode : decode .command 0x23020010FFFFFFFF = .ok (.svfold true 16 0xFFFFFFFF)
    ∧ decode .event 0x81000000000003FF = .ok (.evAdc 1023) := by decide

/-- A frame on the stack, the host's turn drawn and the queue full of three bytes. -/
def full : State := { State.resetWith { Params.vectors with txqDepth := 3 } with txq := [1, 2, 3], turns := [.host], cmdPort := [0x0500000000000052] }

theorem test_witness_UnassignedCommandAnswersIllegal :
    ((issuing 0x06FFFFFFFFFFFFFF).turns = .host :: [] ∧ (issuing 0x06FFFFFFFFFFFFFF).stack = []
      ∧ (issuing 0x06FFFFFFFFFFFFFF).cmdPort = 0x06FFFFFFFFFFFFFF :: [] ∧ packetOp 0x06FFFFFFFFFFFFFF ∉ commandOpcodes)
    ∧ packetOp 0x8000000000000000 ∉ commandOpcodes ∧ packetOp 0xFF00000000000000 ∉ commandOpcodes := by decide

theorem test_witness_ReservedBitAnswersReserved :
    ((issuing 0x0000000000000001).turns = .host :: [] ∧ (issuing 0x0000000000000001).stack = []
      ∧ (issuing 0x0000000000000001).cmdPort = 0x0000000000000001 :: [] ∧ packetOp 0x0000000000000001 ∈ commandOpcodes
      ∧ (0x0000000000000001 : Packet) &&& reservedBits 0x0000000000000001 ≠ 0)
    ∧ packetOp 0x2300000100000000 ∈ commandOpcodes ∧ (0x2300000100000000 : Packet) &&& reservedBits 0x2300000100000000 ≠ 0
    ∧ packetOp 0x1004000000000000 ∈ commandOpcodes ∧ (0x1004000000000000 : Packet) &&& reservedBits 0x1004000000000000 ≠ 0 := by decide

theorem test_witness_MalformedEventRefused :
    ((offering 0x8500000000000000).turns = .environment :: [] ∧ (offering 0x8500000000000000).evtPort = 0x8500000000000000 :: []
      ∧ packetOp 0x8500000000000000 ∉ eventOpcodes)
    ∧ ((offering 0x8100000000000400).turns = .environment :: [] ∧ (offering 0x8100000000000400).evtPort = 0x8100000000000400 :: []
      ∧ packetOp 0x8100000000000400 ∈ eventOpcodes ∧ (0x8100000000000400 : Packet) &&& reservedEventBits 0x8100000000000400 ≠ 0) := by decide

theorem test_witness_HostWaits :
    ({ drawn [.host] with stack := [⟨.low, 0⟩] }.turns = .host :: [] ∧ { drawn [.host] with stack := [⟨.low, 0⟩] }.stack ≠ [])
    ∧ (full.turns = .host :: [] ∧ full.stack = [] ∧ full.cmdPort = 0x0500000000000052 :: []
      ∧ decodeCommand 0x0500000000000052 = .ok (.txbyte 0x52) ∧ full.txq.length = full.params.txqDepth) := by decide

/-- The high level asking over a LOW frame. -/
def askingHigh : State := { serving ⟨.low, 4⟩ 0b0100 with turns := [.enterHigh] }

theorem test_witness_EnterHighPushesFrame :
    (askingHigh.turns = .enterHigh :: [] ∧ asks askingHigh .high .btn ∧ askingHigh.gieh = true
      ∧ askingHigh.stack.head?.map Frame.level = some .low)
    ∧ asks { askingHigh with iprio := 0 } .high .btn ∧ asks { askingHigh with iflags := 0b1000, iprio := 0b1100 } .high .rx
    ∧ (∀ x : Src, ¬ asks { askingHigh with iflags := 0b1011 } .high x) ∧ (∀ x : Src, ¬ asks { askingHigh with ienable := 0b1011 } .high x)
    ∧ { askingHigh with gieh := false }.gieh = false
    ∧ { askingHigh with stack := [⟨.high, 0⟩] }.stack.head?.map Frame.level = some .high := by
  refine ⟨by decide, by decide, by decide, ?_, ?_, by decide, by decide⟩ <;> intro x <;> cases x <;> decide

/-- The low level asking in FG. -/
def askingLow : State := { serving ⟨.low, 0⟩ 0b0001 with stack := [], turns := [.enterLow] }

theorem test_witness_EnterLowPushesFrame :
    (askingLow.turns = .enterLow :: [] ∧ askingLow.stack = [] ∧ askingLow.gieh = true ∧ askingLow.giel = true ∧ asks askingLow .low .tmr)
    ∧ (∀ x : Src, ¬ asks askingLow .high x)
    ∧ { askingLow with giel := false }.giel = false
    ∧ (∀ x : Src, ¬ asks { askingLow with iflags := 0b0100 } .low x)
    ∧ asks { askingLow with iflags := 0b0101 } .high .btn := by
  refine ⟨by decide, ?_, by decide, ?_, by decide⟩ <;> intro x <;> cases x <;> decide

/-- An RX service due, with room for exactly one byte. -/
def rxDue : State :=
  { serving ⟨.low, 0⟩ 0b1000 with rxbyte := 0x41, turns := [.service], params := { Params.vectors with txqDepth := 3 }, txq := [1, 2] }

/-- The same with no room: the service holds. -/
def rxHeld : State := { rxDue with txq := [1, 2, 3] }

/-- And TMR, of the same level, pending since: the activation waits at RX. -/
def waiting : State := { rxHeld with iflags := 0b1001, rxWaits := true }

/-- R281, R314: an event that finds an activation at the held RX leaves it waiting there. -/
theorem test_event_notes_wait :
    (after (step { rxHeld with turns := [.environment], evtPort := [0x8000000000000000] })).rxWaits = true
    ∧ (after (step { rxHeld with turns := [.environment], evtPort := [0x8000000000000000] })).iflags = 0b1001 := by decide

/-- R281, R314: a waiting activation serves nothing while RX holds; with room it goes on from its cursor (log 21). -/
theorem test_waiting_serves_nothing : (after (step waiting)).tmrload = [] ∧ (after (step waiting)).iflags = 0b1001
    ∧ (after (step { waiting with txq := [1, 2] })).stack = [⟨.low, 1⟩] := by decide

/-- RX is the next source of the frame while nothing else asks. -/
theorem test_rx_next : nextIs rxDue ⟨.low, 0⟩ .rx ∧ nextIs rxHeld ⟨.low, 0⟩ .rx := by
  refine ⟨⟨by decide, by decide, ?_⟩, ⟨by decide, by decide, ?_⟩⟩ <;> intro y <;> cases y <;> decide

theorem test_witness_StepRunsDecodedInstruction :
    ((issuing 0x0110000000000000).turns = .host :: [] ∧ (issuing 0x0110000000000000).stack = []
      ∧ (issuing 0x0110000000000000).cmdPort = 0x0110000000000000 :: [] ∧ decode .command 0x0110000000000000 = .ok (.rdreg 0x10)
      ∧ Instr.enabled (.rdreg 0x10) (issuing 0x0110000000000000) = true)
    ∧ ((offering 0x8000000000000000).turns = .environment :: [] ∧ (offering 0x8000000000000000).evtPort = 0x8000000000000000 :: []
      ∧ decode .event 0x8000000000000000 = .ok .evTmr)
    ∧ (offering 0x8000000000000000).rxWaits = false ∧ (offering 0x8000000000000000).stack = []
    ∧ ¬ echoFits rxHeld ∧ rxHeld.stack = [⟨.low, 0⟩] ∧ nextIs rxHeld ⟨.low, 0⟩ .rx := by
  refine ⟨by decide, by decide, by decide, by decide, by decide, by decide, test_rx_next.2⟩

theorem test_witness_ServiceTakesLeastSource :
    ((drawn [.service]).turns = .service :: [] ∧ (drawn [.service]).stack = [])
    ∧ (∃ t, rxDue.serve .rx = .ok t)
    ∧ (rxDue.turns = .service :: [] ∧ rxDue.stack = ⟨.low, 0⟩ :: [] ∧ nextIs rxDue ⟨.low, 0⟩ .rx ∧ echoFits rxDue ∧ rxDue.rxWaits = false)
    ∧ (∃ t, { rxDue with turns := [], rxWaits := rxDue.rxWaits && Src.rx != Src.rx }.serve .rx = .ok t)
    ∧ (nextIs rxHeld ⟨.low, 0⟩ .rx ∧ ¬ echoFits rxHeld)
    ∧ (waiting.rxWaits = true ∧ atLevel waiting .low .rx ∧ ¬ echoFits waiting ∧ ¬ atLevel { waiting with iprio := 0b1100 } .low .rx)
    ∧ nothingNext rxDue ⟨.low, 4⟩ ∧ nothingNext rxDue ⟨.high, 0⟩ := by
  refine ⟨by decide, ⟨_, rfl⟩, ⟨rfl, rfl, test_rx_next.1, by decide, rfl⟩, ⟨_, rfl⟩, ⟨test_rx_next.2, by decide⟩, by decide, ?_, ?_⟩ <;>
    intro y <;> cases y <;> decide

theorem test_witness_ReturnPopsFrame :
    (({ drawn [.leave] with stack := [⟨.low, 0⟩] }.turns = .leave :: [] ∧ { drawn [.leave] with stack := [⟨.low, 0⟩] }.stack = ⟨.low, 0⟩ :: [])
      ∧ nothingNext { drawn [.leave] with stack := [⟨.low, 0⟩] } ⟨.low, 0⟩)
    ∧ ¬ nothingNext { askingLow with turns := [.leave], stack := [⟨.low, 0⟩] } ⟨.low, 0⟩ := by
  refine ⟨⟨by decide, ?_⟩, fun h => h .tmr (by decide) (by decide)⟩
  intro y; cases y <;> decide

/-! ### The whole machine -/

theorem test_witness_ResetLeavesSpecValues :
    Params.vectors.Legal ∧ { Params.vectors with txqDepth := 3 }.Legal ∧ { Params.vectors with txqDepth := 255, pwmRes := .bits8 }.Legal
    ∧ unmappedAddress (0x00 : Byte).toNat = false ∧ unmappedAddress (0x1B : Byte).toNat = false
    ∧ unmappedAddress (0x40 : Byte).toNat = false ∧ unmappedAddress (0x7F : Byte).toNat = false
    ∧ (drawn [.powerCycle]).turns = .powerCycle :: [] ∧ (drawn [.powerCycle]).params = Params.vectors := by decide

theorem test_witness_ResetMeetsInvariant : Params.vectors.Legal := by decide

/-- The state after reset, with a command placed and the host's turn drawn, meets the invariant. -/
theorem test_issuing_inv : (issuing 0x0110000000000000).Inv where
  params_legal := by decide
  lasterr_code := by decide
  resp_code := by intro r h; cases h
  errflags_bit0 := by decide
  btnip := by decide
  reload_fits := by intro h; cases h
  tmrload_fits := by intro e h; cases h
  duty_fits := by decide
  dcl_fits := by decide
  pwps_pos := by decide
  svang_le := by decide
  idle_count := by intro _; rfl
  inc_local := by intro _; rfl
  zone_local := by intro _; exact ⟨rfl, rfl, rfl⟩
  mstate_local := by intro _; rfl
  zcnt_below := by decide
  len_le := by decide
  lbuf_wf := by decide
  lbuf_clear := by intro i _; rfl
  lines_le := by intro l h; cases h
  stack_shape := by decide
  rx_waits := by intro h; cases h
  txq_le := by decide

/-- And a step of it answers a next state. -/
theorem test_witness_StepKeepsInvariant : (issuing 0x0110000000000000).Inv ∧ ∃ t, step (issuing 0x0110000000000000) = .next t :=
  ⟨test_issuing_inv, _, rfl⟩

theorem test_witness_StepGoesOn : (issuing 0x0110000000000000).Inv := test_issuing_inv

theorem test_witness_CfgFaultIsSticky : { issuing 0x0300000000000000 with cfgFault := true }.cfgFault = true
    ∧ ¬ { issuing 0x0300000000000000 with cfgFault := true }.powerCycleDrawn
    ∧ ∃ t, step { issuing 0x0300000000000000 with cfgFault := true } = .next t :=
  ⟨rfl, by unfold State.powerCycleDrawn; decide, _, rfl⟩

theorem test_witness_ChannelsOnlyGrow : ¬ (offering 0x8400000000000000).powerCycleDrawn
    ∧ ∃ t, step { offering 0x8400000000000000 with txq := [0x39] } = .next t ∧ t.txout = [0x39] :=
  ⟨by unfold State.powerCycleDrawn; decide, _, rfl, rfl⟩

theorem test_witness_TxBytesConserved : ¬ rxDue.powerCycleDrawn ∧ ∃ t, step rxDue = .next t ∧ t.txq = [1, 2, 0x41] :=
  ⟨by unfold State.powerCycleDrawn; decide, _, rfl, rfl⟩

theorem test_witness_ReloadOnlyByCommit : ¬ (issuing 0x1002000100000100).powerCycleDrawn
    ∧ ∃ t, step (issuing 0x1002000100000100) = .next t ∧ t.relw = false ∧ t.reload = 0 :=
  ⟨by unfold State.powerCycleDrawn; decide, _, rfl, rfl, rfl⟩

theorem test_witness_ConfigurationStillInActivation : rxDue.stack ≠ [] ∧ ¬ rxDue.powerCycleDrawn ∧ ∃ t, step rxDue = .next t :=
  ⟨by decide, by unfold State.powerCycleDrawn; decide, _, rfl⟩

theorem test_witness_QuietWithGiehClear : (offering 0x8200000000000000).gieh = false ∧ (offering 0x8200000000000000).stack = []
    ∧ (offering 0x8200000000000000).turns = .environment :: [] ∧ Turn.environment ≠ .host ∧ Turn.environment ≠ .powerCycle
    ∧ ∃ t, step (offering 0x8200000000000000) = .next t :=
  ⟨rfl, rfl, rfl, by decide, by decide, _, rfl⟩

theorem test_witness_CommandsAnswer : (issuing 0x0000000000000000).turns = .host :: []
    ∧ (issuing 0x0000000000000000).cmdPort = 0x0000000000000000 :: []
    ∧ (∃ t, step (issuing 0x0000000000000000) = .next t ∧ t.cmdPort = [] ∧ t.lasterr = 0)
    ∧ ∃ t, step (issuing 0x0600000000000000) = .next t ∧ t.cmdPort = [] ∧ t.lasterr = 1 :=
  ⟨rfl, rfl, ⟨_, rfl, rfl, rfl⟩, ⟨_, rfl, rfl, rfl⟩⟩

theorem test_witness_CommandErrorsArePrecise : (issuing 0x1002000100000000).turns = .host :: []
    ∧ (issuing 0x1002000100000000).cmdPort = 0x1002000100000000 :: []
    ∧ ∃ t, step (issuing 0x1002000100000000) = .next t ∧ t.cmdPort = [] ∧ t.lasterr ≠ 0 ∧ t.cfgFault = true :=
  ⟨rfl, rfl, _, rfl, rfl, by decide, rfl⟩

/-! ### Host commands -/

theorem test_witness_CheckOnlyWritesNothing : (∃ t, exec (.tcalc false false 1 256) State.reset = .next t)
    ∧ (∃ t, exec (.pwmduty false 1 450) State.reset = .next t) ∧ (∃ t, exec (.pwmangle false 4 180) State.reset = .next t)
    ∧ (∃ t, exec (.svfold false 0 90) State.reset = .next t) ∧ ∃ t, exec (.binout false 9) State.reset = .next t :=
  ⟨⟨_, rfl⟩, ⟨_, rfl⟩, ⟨_, rfl⟩, ⟨_, rfl⟩, ⟨_, rfl⟩⟩

theorem test_witness_OwnedOutputsStay : Instr.port (.binout true 3) = .command ∧ ¬ ledFree (inMode .zoneBlink) ∧ ¬ pwmFree (inMode .zoneBlink)
    ∧ ∃ t, exec (.binout true 3) (inMode .zoneBlink) = .next t :=
  ⟨rfl, by decide, by decide, _, rfl⟩

theorem test_witness_WrregIdempotent : ∃ t, exec (.wrreg 0x06 9) State.reset = .next t ∧ t.mode = .parityDir := ⟨_, rfl, rfl⟩

theorem test_witness_CommandFrame : Instr.port .srst = .command ∧ Instr.port (.wrreg 0x02 15) = .command
    ∧ (∃ t, exec .srst State.reset = .next t) ∧ ∃ t, exec (.wrreg 0x02 15) State.reset = .next t ∧ t.iflags = 0b1111 :=
  ⟨rfl, rfl, ⟨_, rfl⟩, ⟨_, rfl, rfl⟩⟩

theorem test_witness_RdregReturnsFields : State.reset.stack = [] ∧ registerValue State.reset (0x1B : Byte).toNat = some 0
    ∧ registerValue State.reset (0x00 : Byte).toNat = some 0 ∧ registerValue State.reset (0x1A : Byte).toNat = some 0x1000
    ∧ registerValue State.reset (0x40 : Byte).toNat = some 0 ∧ registerValue State.reset (0x7F : Byte).toNat = some 0 := by decide

theorem test_witness_RegisterAccessErrors : State.reset.stack = [] ∧ unmappedAddress (0x1C : Byte).toNat = true
    ∧ unmappedAddress (0x3F : Byte).toNat = true ∧ unmappedAddress (0x80 : Byte).toNat = true ∧ unmappedAddress (0xFF : Byte).toNat = true
    ∧ readOnlyAddress (0x00 : Byte).toNat = true ∧ readOnlyAddress (0x1B : Byte).toNat = true ∧ readOnlyAddress (0x40 : Byte).toNat = true
    ∧ readOnlyAddress (0x7F : Byte).toNat = true := by decide

theorem test_witness_WrregStoresFields : State.reset.stack = [] := by decide

theorem test_witness_WrregModeChangesPolicy : State.reset.stack = [] ∧ 12 ≤ (0x1C : Word).toNat % 16
    ∧ Mode.binaryInput.code.toNat = (0x1B : Word).toNat % 16 ∧ State.reset.mode.code.toNat = (0x10 : Word).toNat % 16 := by decide

theorem test_witness_WrregCheckedRegisters : State.reset.stack = [] ∧ ledFree State.reset ∧ ¬ ledFree (inMode .binary) := by decide

theorem test_witness_SrstResetsUnits : State.reset.stack = [] := by decide

theorem test_witness_NopAdstartTxbyteEffects : State.reset.stack = [] ∧ State.reset.adBusy = false
    ∧ { State.reset with adBusy := true }.adBusy = true ∧ { full with txq := [1, 2] }.txq.length < { full with txq := [1, 2] }.params.txqDepth := by
  decide

theorem test_witness_TcalcComputesReload : State.reset.stack = [] ∧ (1 : BitVec 16) ≠ 0
    ∧ ticks State.reset (1 : Word).toNat (1 : BitVec 16).toNat = 1
    ∧ ticks State.reset (256 : Word).toNat (1 : BitVec 16).toNat = 2 ^ 8
    ∧ ticks State.reset (65536 : Word).toNat (1 : BitVec 16).toNat = 2 ^ 16 := by decide

theorem test_witness_TcalcRejectsUnrepresentable : State.reset.stack = [] ∧ (8 : BitVec 16) ≠ 0
    ∧ ticks State.reset (7 : Word).toNat (8 : BitVec 16).toNat = 0
    ∧ 2 ^ 8 < ticks State.reset (257 : Word).toNat (1 : BitVec 16).toNat
    ∧ 2 ^ 16 < ticks State.reset (65537 : Word).toNat (1 : BitVec 16).toNat := by decide

theorem test_witness_ReloadMonotone : 0 < 8 ∧ 1000 ≤ 1007 ∧ Params.vectors.tickNum = 1 ∧ Params.vectors.tickDen = 1 := by decide

theorem test_witness_TmrServiceTicks : State.reset.armed = false
    ∧ { State.reset with armed := true, dbncnt := 1 }.dbncnt.toNat ≤ 1
    ∧ 2 ≤ { State.reset with armed := true, dbncnt := 2 }.dbncnt.toNat := by decide

/-! ### PWM -/

/-- A period shorter than the duty's range: PS = 512 (vectors PW3, PW4). -/
def halfPeriod : State := { State.reset with pr := 0x7F }

theorem test_witness_PwmsetWritesDuty : State.reset.stack = [] ∧ pwmFree State.reset
    ∧ ((1023 : Word).toNat ≤ dutyTop State.reset ∧ (1023 : Word).toNat ≤ period State.reset)
    ∧ ((512 : Word).toNat ≤ dutyTop halfPeriod ∧ (512 : Word).toNat ≤ period halfPeriod) := by decide

theorem test_witness_PwmdutyComputesDuty : State.reset.stack = [] ∧ (1 : BitVec 16) ≠ 0 ∧ pwmFree State.reset
    ∧ ticks State.reset (1023 : Word).toNat (1 : BitVec 16).toNat ≤ dutyTop State.reset
    ∧ ticks State.reset (1023 : Word).toNat (1 : BitVec 16).toNat ≤ period State.reset := by decide

theorem test_witness_PwmangleComputesDuty : State.reset.stack = [] ∧ (4 : BitVec 16) ≠ 0 ∧ pwmFree State.reset
    ∧ (180 : Word).toNat ≤ 180 ∧ ticks State.reset (450 + (180 : Word).toNat * 2000 / 180) (4 : BitVec 16).toNat = 612
    ∧ 612 ≤ dutyTop State.reset ∧ 612 ≤ period State.reset := by decide

theorem test_witness_SvfoldFoldsInput : State.reset.stack = [] ∧ (16 : BitVec 16) ≠ 0 ∧ pwmFree State.reset
    ∧ ticks State.reset (450 + fold (90 : Word).toInt * 2000 / 180) (16 : BitVec 16).toNat = 153
    ∧ 153 ≤ dutyTop State.reset ∧ 153 ≤ period State.reset := by decide

theorem test_witness_FoldOfInput : (0 : Int) ≤ -90 + 90 ∧ (-271 : Int) + 90 < 0 ∧ ((-271 : Int) + 90) % 181 = 0
    ∧ (-91 : Int) + 90 < 0 ∧ ((-91 : Int) + 90) % 181 ≠ 0 := by decide

theorem test_witness_PwmErrorsInOrder : State.reset.stack = [] ∧ 180 < (181 : Word).toNat
    ∧ dutyError State.reset true (1024 : Word).toNat = some 0x06 ∧ dutyError halfPeriod true (513 : Word).toNat = some 0x07
    ∧ dutyError (inMode .zoneBlink) true (100 : Word).toNat = some 0x09
    ∧ dutyError (inMode .angleSample) true (ticks (inMode .angleSample) (450 : Word).toNat (1 : BitVec 16).toNat) = some 0x09
    ∧ dutyError State.reset false (ticks State.reset (450 + (180 : Word).toNat * 2000 / 180) (1 : BitVec 16).toNat) = some 0x06
    ∧ dutyError (inMode .brightSample) true (ticks (inMode .brightSample) (450 + fold (0 : Word).toInt * 2000 / 180) (16 : BitVec 16).toNat)
        = some 0x09 := by decide

theorem test_witness_DutySplitJoins : 1023 ≤ dutyTop State.reset ∧ 450 ≤ 451 := by decide

/-! ### Events and services -/

theorem test_witness_EventsLatch : { State.reset with adBusy := true }.adBusy = true ∧ State.reset.adBusy = false
    ∧ State.reset.iflags.getLsbD 3 = false ∧ { State.reset with iflags := 0b1000 }.iflags.getLsbD 3 = true
    ∧ { State.reset with txq := [0x39, 0x30] }.txq = 0x39 :: [0x30] ∧ State.reset.txq = [] := by decide

theorem test_witness_OnePressPerWindow : { State.reset with armed := true, dbncnt := 2 }.armed = true
    ∧ 1 < max { State.reset with armed := true, dbncnt := 2 }.dbncnt.toNat 1
    ∧ 2 = max { State.reset with armed := true, dbncnt := 2 }.dbncnt.toNat 1
    ∧ 1 = max { State.reset with armed := true, dbncnt := 0 }.dbncnt.toNat 1 := by decide

theorem test_witness_AdcServiceFilters : State.reset.mode = .none ∧ (inMode .servoInput).mode = .servoInput
    ∧ (inMode .binaryInput).mode = .binaryInput := by decide

theorem test_witness_QuantizersDisplayState : (inMode .binary).mode = .binary ∧ (inMode .state10).mode = .state10
    ∧ (inMode .state7).mode = .state7 := by decide

theorem test_witness_ParityShowsDirection : (inMode .parityDir).mode = .parityDir ∧ (200 : BitVec 10).toNat + 5 < (206 : BitVec 10).toNat
    ∧ (194 : BitVec 10).toNat + 5 < (200 : BitVec 10).toNat ∧ (205 : BitVec 10).toNat ≤ (200 : BitVec 10).toNat + 5 := by decide

theorem test_witness_ParityRunsKeepDirection : (inMode .parityDir).mode = .parityDir
    ∧ ([(0 : BitVec 10), 6, 12].IsChain fun a b => a.toNat + 5 < b.toNat)
    ∧ ([(300 : BitVec 10), 294, 100].IsChain fun a b => b.toNat + 5 < a.toNat) := by decide

/-- ZONE_BLINK with `n` events counted in zone 0. -/
def blinking (n : Nat) : State := { inMode .zoneBlink with zcnt := BitVec.ofNat 8 n }

/-- SF29: 10 events at 100 and then 1000 give sm = 550, zone 2; the count restarts, and the event is the first of the new zone. -/
theorem test_zone_change : (State.serviceAdc { blinking 10 with sflast := 100, adcdata := 1000 }).zone = 2
    ∧ (State.serviceAdc { blinking 10 with sflast := 100, adcdata := 1000 }).zcnt = 1 := by decide

theorem test_witness_ZoneBlinkPeriod : (inMode .zoneBlink).mode = .zoneBlink ∧ (inMode .zoneBlink).sflast = 0
    ∧ (inMode .zoneBlink).zone.toNat = (0 : BitVec 10).toNat / 256 ∧ (inMode .zoneBlink).zcnt = 0
    ∧ 49 < 50 * ((0 : BitVec 10).toNat / 256 + 1) ∧ 50 = 50 * ((0 : BitVec 10).toNat / 256 + 1)
    ∧ { inMode .zoneBlink with sflast := 1023, zone := 3 }.zone.toNat = (1023 : BitVec 10).toNat / 256
    ∧ 200 = 50 * ((1023 : BitVec 10).toNat / 256 + 1)
    ∧ nextSmoothed (blinking 49) / 256 = 0 ∧ 50 * (0 + 1) ≤ (if (blinking 49).zone.toNat = 0 then (blinking 49).zcnt.toNat else 0) + 1
    ∧ ¬ 50 * (0 + 1) ≤ (if (blinking 48).zone.toNat = 0 then (blinking 48).zcnt.toNat else 0) + 1
    ∧ nextSmoothed { blinking 10 with sflast := 100, adcdata := 1000 } / 256 = 2 ∧ (blinking 10).zone.toNat ≠ 2 := by decide

theorem test_witness_ParameterMappingsWrite : (inMode .angleSample).mode = .angleSample ∧ (inMode .brightSample).mode = .brightSample
    ∧ (inMode .marquee).mode = .marquee ∧ (inMode .singleMarquee).mode = .singleMarquee := by decide

theorem test_witness_BinoutClampsInput : State.reset.stack = [] ∧ ledFree State.reset ∧ ¬ ledFree (inMode .binary)
    ∧ (-1 : Word).toInt < 0 ∧ 15 < (16 : Word).toInt ∧ 0 ≤ (15 : Word).toInt ∧ (15 : Word).toInt ≤ 15 := by decide

/-- A line of two bytes held, with a byte latched. -/
def holding (b : Byte) : State := { State.reset with len := 2, lbuf := [(0, 0x39), (1, 0x30)], lastch := 0x30, rxbyte := b, iflags := 0b1000 }

theorem test_witness_RxServiceEditsLine : (holding 0x7F).rxferr = false ∧ (holding 0x7F).len.toNat ≤ 63 ∧ (holding 0x7F).lbuf.wf = true
    ∧ (holding 0x7F).rxbyte = 0x7F ∧ (holding 0x7F).len ≠ 0 ∧ (holding 0x0D).rxbyte = 0x0D
    ∧ ((holding 0x0A).rxbyte = 0x0A ∧ ¬ ((holding 0x0A).len = 0 ∧ (holding 0x0A).lastch = 0x0D))
    ∧ ordinaryByte (holding 0x00).rxbyte = true ∧ { holding 0x00 with len := 62 }.len.toNat < 63 := by decide

theorem test_witness_RxServiceIgnores : { holding 0x41 with rxferr := true }.rxferr = true
    ∧ ({ holding 0x7F with len := 0 }.rxferr = false ∧ { holding 0x7F with len := 0 }.rxbyte = 0x7F ∧ { holding 0x7F with len := 0 }.len = 0)
    ∧ ({ holding 0x0A with len := 0, lastch := 0x0D }.rxbyte = 0x0A ∧ { holding 0x0A with len := 0, lastch := 0x0D }.len = 0
      ∧ { holding 0x0A with len := 0, lastch := 0x0D }.lastch = 0x0D)
    ∧ (holding 0xFF).rxbyte = 0xFF
    ∧ ordinaryByte { holding 0x41 with len := 63 }.rxbyte = true ∧ 63 ≤ { holding 0x41 with len := 63 }.len.toNat := by decide

theorem test_witness_BackspaceProperty : State.reset.len = 0 ∧ (∀ b ∈ ([] : List Byte), ordinaryByte b = true)
    ∧ ∀ b ∈ List.replicate 64 (0x41 : Byte), ordinaryByte b = true := by decide

theorem test_witness_LineIsDelivered : State.reset.len = 0 ∧ State.reset.lbuf = [] ∧ (List.replicate 63 (0x00 : Byte)).length ≤ 63
    ∧ ∀ b ∈ List.replicate 63 (0x00 : Byte), ordinaryByte b = true := by decide

end Sys2Proof.Tests
end

/-! PROOFS. The statements of 10_state: every step keeps `State.Inv` (R56), CFGFAULT is sticky (R52), the output channels only grow (R55), and no
host command writes an output its mode owns (R39). -/

namespace Sys2Proof.Machine

/-! ## Facts about single updates -/

/-- Bit 0 of ERRFLAGS stands for no error, so recording one leaves it (R25). -/
theorem flagsWith_getLsbD_zero (f : BitVec 14) (e : Err) : (flagsWith f e).getLsbD 0 = f.getLsbD 0 := by
  have hpos : 0 < e.code.toNat := e.code_range.1
  simp only [flagsWith, BitVec.getLsbD_or, BitVec.getLsbD_shiftLeft]
  simp [hpos]

/-- Setting a flag leaves every active source active. -/
theorem State.active_setPending {s : State} {y : Src} (h : s.active y = true) (x : Src) : (s.setPending x).active y = true := by
  simp only [State.active, Bool.and_eq_true] at h ⊢
  obtain ⟨hp, he⟩ := h
  simp only [State.pending] at hp
  exact ⟨by simp [State.pending, hp], he⟩

/-- Clearing another source's flag leaves RX as active as it was. -/
theorem State.active_rx_clearPending (s : State) {x : Src} (h : x ≠ .rx) : (s.clearPending x).active .rx = s.active .rx := by
  cases x <;> simp_all [State.active, State.pending, State.sourceEnabled, Src.index]

/-- A committed reload that passes its checks for 8 bits fits 8 bits (R132). -/
theorem reloadExact_lt_of_tcCheck {c : Params} {p ps : Nat} (h : tcCheck c p ps 8 = none) : (reloadExact c p ps 8).toNat < 256 := by
  rw [tcCheck, check_orElse, check_orElse] at h
  split at h
  · cases h
  · split at h
    · cases h
    · omega

/-- HIGH may enter wherever the top is not HIGH, and the top may always return (R50). -/
theorem high_cons_mem_stackShapes : ∀ l ∈ stackShapes, l.head? ≠ some .high → .high :: l ∈ stackShapes := by decide

theorem tail_mem_stackShapes : ∀ l ∈ stackShapes, l.tail ∈ stackShapes := by decide

/-! ## Hard reset -/

/-- Hard reset leaves the invariant for legal parameters (R300). -/
theorem State.Inv.of_reset {p : Params} (h : p.Legal) : (State.resetWith p).Inv where
  params_legal := h
  lasterr_code := by simp [State.resetWith]
  resp_code := nofun
  errflags_bit0 := by simp [State.resetWith]
  btnip := by simp [State.resetWith]
  reload_fits := nofun
  tmrload_fits := nofun
  duty_fits := by simp [State.duty, State.fine, State.resetWith]
  dcl_fits := by simp [State.resetWith]
  pwps_pos := by simp [State.resetWith]
  svang_le := by simp [State.resetWith]
  idle_count := fun _ => rfl
  inc_local := fun _ => rfl
  zone_local := fun _ => ⟨rfl, rfl, rfl⟩
  mstate_local := fun _ => rfl
  zcnt_below := by simp [State.resetWith, zoneThreshold]
  len_le := by simp [State.resetWith]
  lbuf_wf := rfl
  lbuf_clear := fun _ _ => rfl
  lines_le := nofun
  stack_shape := by simp [State.resetWith, stackShapes]
  rx_waits := nofun
  txq_le := Nat.zero_le _

/-- The power cycle leaves it from any state: what stays at the ports is not part of it. -/
theorem State.Inv.hardReset {s : State} (h : s.Inv) : s.hardReset.Inv := { State.Inv.of_reset h.params_legal with }

/-! ## One rule per update

An update leaves every clause that does not read its fields, so each rule proves only the clauses it touches. -/

section Rules

variable {s : State} (h : s.Inv)

include h

/-- In FG no activation waits at RX. -/
theorem State.Inv.rxWaits_of_fg (hs : s.stack = []) : s.rxWaits = false := by
  rw [Bool.eq_false_iff]
  intro hw
  obtain ⟨-, f, hf, -⟩ := h.rx_waits hw
  simp [hs] at hf

theorem State.Inv.succeed (r : Word) : (s.succeed r).Inv :=
  { h with
    lasterr_code := by simp
    resp_code := by simp }

theorem State.Inv.raise (e : Err) : (s.raise e).Inv :=
  { h with
    lasterr_code := e.code_range.2
    resp_code := by simp [e.code_range.2]
    errflags_bit0 := (flagsWith_getLsbD_zero _ e).trans h.errflags_bit0 }

theorem State.Inv.record (e : Err) : (s.record e).Inv := 
  { h with errflags_bit0 := (flagsWith_getLsbD_zero _ e).trans h.errflags_bit0 }

theorem State.Inv.pwmWrite {v : Nat} (hv : s.pwmCheck v = none) : (s.pwmWrite v).Inv := by
  obtain ⟨hmax, hperiod⟩ := State.pwmCheck_eq_none.1 hv
  exact { h with
    duty_fits := by rw [State.duty_pwmWrite hmax]; exact Nat.le_min.2 ⟨hperiod, hmax⟩
    dcl_fits := by rw [State.pwmWrite_dcl_toNat]; exact fineOf_lt _ _ }

theorem State.Inv.servoSet {v a : Nat} (hv : s.pwmCheck v = none) (ha : a ≤ 180) : (s.servoSet v a).Inv :=
  { h.pwmWrite hv with svang_le := by simp only [State.servoSet_svang, BitVec.toNat_ofNat]; omega }

theorem State.Inv.enqueueTx {bs : List Byte} (hq : (s.enqueueTx bs).txq.length ≤ s.params.txqDepth) : (s.enqueueTx bs).Inv :=
  { h with txq_le := hq }

theorem State.Inv.setMode (m : Mode) : (s.clearModeLocal.setMode m).Inv :=
  { h with
    inc_local := fun _ => rfl
    zone_local := fun _ => ⟨rfl, rfl, rfl⟩
    mstate_local := fun _ => rfl
    zcnt_below := by simp [zoneThreshold] }

theorem State.Inv.softReset : s.softReset.Inv :=
  { h with
    svang_le := by simp
    idle_count := fun _ => rfl
    inc_local := fun _ => rfl
    zone_local := fun _ => ⟨rfl, rfl, rfl⟩
    mstate_local := fun _ => rfl
    zcnt_below := by simp [zoneThreshold]
    len_le := by simp
    lbuf_wf := Memory.wf_zeroBelow h.lbuf_wf 64
    lbuf_clear := fun i _ => by
      rw [State.softReset_lbuf, Memory.peek_zeroBelow]
      split
      · rfl
      · exact h.lbuf_clear i (by have := h.len_le; omega) }

theorem State.Inv.commitReload {period : Word} {ps : BitVec 16} {w : Bool}
    (hc : tcCheck s.params period.toNat ps.toNat (widthOperand w) = none) :
    (s.commitReload (reloadExact s.params period.toNat ps.toNat (widthOperand w)).toNat w).Inv :=
  { h with
    reload_fits := fun hw => by
      obtain rfl : w = false := hw
      have := reloadExact_lt_of_tcCheck hc
      simp only [State.commitReload_reload, BitVec.toNat_ofNat, widthOperand, Bool.false_eq_true, if_false]
      omega }

theorem State.Inv.setPending (x : Src) : (s.setPending x).Inv :=
  { h with rx_waits := fun hw => (h.rx_waits hw).imp_left (State.active_setPending · x) }

/-- A service's flag is cleared; RX's only once no activation waits at RX. -/
theorem State.Inv.clearPending {x : Src} (hx : x = .rx → s.rxWaits = false) : (s.clearPending x).Inv :=
  { h with
    rx_waits := fun hw => by
      have hne : x ≠ .rx := fun he => by simp [hx he] at hw
      rw [State.active_rx_clearPending s hne]
      exact h.rx_waits hw }

theorem State.Inv.endWait (x : Src) : (s.endWait x).Inv :=
  { h with rx_waits := fun hw => h.rx_waits (Bool.and_eq_true_iff.1 hw).1 }

/-- An activation noted to wait at RX has RX as its next source (R281, log 21). -/
theorem State.Inv.noteWait : s.noteWait.Inv :=
  { h with
    rx_waits := fun hw => by
      rcases Bool.or_eq_true_iff.1 hw with hw | hw
      · exact h.rx_waits hw
      · obtain ⟨-, hany⟩ := Bool.and_eq_true_iff.1 hw
        obtain ⟨f, hf, hn⟩ := List.any_eq_true.1 hany
        obtain ⟨⟨hc, ha, hl⟩, -⟩ := State.nextSource_least (beq_iff_eq.1 hn)
        exact ⟨ha, f, hf, hl.symm, hc⟩ }

theorem State.Inv.enterHigh (he : s.canEnterHigh = true) : (s.enter .high).Inv :=
  { h with
    stack_shape := by
      refine high_cons_mem_stackShapes _ h.stack_shape ?_
      obtain ⟨-, htop⟩ := Bool.and_eq_true_iff.1 he
      cases hs : s.stack with
      | nil => simp
      | cons f rest =>
        have hl : f.level = .low := by simpa [hs] using htop
        simp [hl]
    rx_waits := fun hw => (h.rx_waits hw).imp_right fun ⟨f, hf, hr⟩ => ⟨f, List.mem_cons_of_mem _ hf, hr⟩ }

theorem State.Inv.enterLow (he : s.canEnterLow = true) : (s.enter .low).Inv := by
  have hs : s.stack = [] := by simp_all [State.canEnterLow]
  exact { h with
    stack_shape := by simp [hs, stackShapes]
    rx_waits := fun hw => (h.rx_waits hw).imp_right fun ⟨f, hf, hr⟩ => ⟨f, List.mem_cons_of_mem _ hf, hr⟩ }

/-- The activation that waits at RX has something left to serve, so it is not the one that returns. -/
theorem State.Inv.leave {f : Frame} {rest : List Frame} (hs : s.stack = f :: rest) (hn : s.nextSource f = none) : s.leave.Inv :=
  { h with
    stack_shape := by
      rw [State.leave_stack, List.map_tail]
      exact tail_mem_stackShapes _ h.stack_shape
    rx_waits := fun hw => by
      obtain ⟨ha, g, hg, hl, hc⟩ := h.rx_waits hw
      refine ⟨ha, g, ?_, hl, hc⟩
      rw [hs] at hg
      rcases List.mem_cons.1 hg with rfl | hg
      · obtain ⟨hp, he⟩ := Bool.and_eq_true_iff.1 ha
        exact absurd ⟨hp, he, hl.symm⟩ ((State.nextSource_eq_none s g).1 hn .rx hc)
      · simpa [hs] using hg }

/-- The cursor of an activation that waits at RX is not moved past RX. -/
theorem State.Inv.setTop {f : Frame} {rest : List Frame} (hs : s.stack = f :: rest) {c : Fin 5}
    (hc : s.rxWaits = true → c.val ≤ 3) : (s.setTop { f with cursor := c } rest).Inv :=
  { h with
    stack_shape := by simpa [hs] using h.stack_shape
    rx_waits := fun hw => by
      obtain ⟨ha, g, hg, hl, hcg⟩ := h.rx_waits hw
      rw [hs] at hg
      rcases List.mem_cons.1 hg with rfl | hg
      · exact ⟨ha, _, List.mem_cons_self, hl, hc hw⟩
      · exact ⟨ha, g, List.mem_cons_of_mem _ hg, hl, hcg⟩ }

theorem State.Inv.setLine {n : BitVec 7} {m : Memory} (hn : n.toNat ≤ 63) (hm : m.wf = true)
    (hclear : ∀ i, n.toNat ≤ i → m.peek i = 0) : (s.setLine n m).Inv :=
  { h with len_le := hn, lbuf_wf := hm, lbuf_clear := hclear }

theorem State.Inv.emitLine {l : List Byte} (hl : l.length ≤ 63) : (s.emitLine l).Inv :=
  { h with
    lines_le := fun k hk => by
      rcases List.mem_append.1 hk with hk | hk
      · exact h.lines_le k hk
      · rwa [List.mem_singleton.1 hk] }

theorem State.Inv.afterToggle : s.afterToggle.Inv := by
  unfold State.afterToggle
  split
  · exact { h with }
  · exact h

theorem State.Inv.loadTimer : s.loadTimer.Inv :=
  { h with
    tmrload_fits := fun e he => by
      rcases List.mem_append.1 he with he | he
      · exact h.tmrload_fits e he
      · rw [List.mem_singleton.1 he]; exact h.reload_fits }

theorem State.Inv.setZone (hm : s.mode = .zoneBlink) {z n : Nat} (hz : z < 4) (hn : n < zoneThreshold z) : (s.setZone z n).Inv :=
  { h with
    zone_local := fun hne => absurd hm hne
    zcnt_below := by
      unfold zoneThreshold at hn ⊢
      simp only [State.setZone_zcnt, State.setZone_zone, BitVec.toNat_ofNat]
      omega }

end Rules

/-! ## What a command, an event and a service can write keeps the invariant -/

variable {s t : State}

theorem RegWrite.inv (hw : RegWrite s t) (h : s.Inv) (hs : s.stack = []) : t.Inv := by
  have hx := h.rxWaits_of_fg hs
  cases hw with
  | errflags f hf => exact { h with errflags_bit0 := hf.trans h.errflags_bit0 }
  | iflags f => exact { h with rx_waits := by simp [hx] }
  | ienable f => exact { h with rx_waits := by simp [hx] }
  | iprio f hf => exact { h with btnip := hf, rx_waits := by simp [hx] }
  | mode m => exact h.setMode m
  | pwmpr p hp => exact { h with duty_fits := Nat.le_min.2 ⟨hp, h.duty_fits.trans s.dutyFull_le.1⟩ }
  | pwps p hp => exact { h with pwps_pos := hp }
  | sameMode => exact h
  | gie | out | dbncfg => exact { h with }

theorem CommandWrite.inv {i : Instr} (hw : CommandWrite s i t) (h : s.Inv) (hs : s.stack = []) : t.Inv := by
  cases hw with
  | nop | rdreg | tcalcCheck | pwmdutyCheck | pwmangleCheck | svfoldCheck | binoutCheck => exact h
  | wrreg reg data r t hr hok => exact (State.writeReg_ok hok).inv h hs
  | srst => exact h.softReset
  | adstart | binoutWrite => exact { h with }
  | txbyte b hf =>
    have hne : s.txq.length ≠ s.params.txqDepth := by simpa [State.txFull] using hf
    have hlt := Nat.lt_of_le_of_ne h.txq_le hne
    exact h.enqueueTx (by simpa using hlt)
  | tcalcCommit w ps period hc => exact h.commitReload hc
  | pwmset val hv | pwmdutyWrite ps val v hv => exact h.pwmWrite hv
  | pwmangleWrite ps val v a hv ho ha | svfoldWrite ps val v a hv ho ha => exact h.servoSet hv ha

theorem CommandEnd.inv {i : Instr} (he : CommandEnd s i t) (h : s.Inv) (hs : s.stack = []) : t.Inv := by
  cases he with
  | failed e => exact h.raise e
  | faulted e =>
    have hf : (s.faultIf true).Inv := { h with }
    exact hf.raise e
  | done u r hw => exact (hw.inv h hs).succeed r
  | held => exact h

theorem EventWrite.inv (hw : EventWrite s t) (h : s.Inv) : t.Inv := by
  cases hw with
  | tmr | btn => exact h.setPending _
  | adc x =>
    have hl : (s.latchSample x).Inv := { h with }
    exact hl.setPending _
  | rx b oe fe =>
    have hl : (s.latchByte b oe fe).Inv := { h with }
    exact hl.setPending _
  | txtake b rest hq =>
    have hle : rest.length + 1 ≤ s.params.txqDepth := by simpa [hq] using h.txq_le
    exact { h with txq_le := Nat.le_of_succ_le hle }
  | disabled => exact h

theorem TickWrite.inv (hw : TickWrite s t) (h : s.Inv) : t.Inv := by
  cases hw with
  | idle => exact h
  | press => exact { h with idle_count := fun _ => rfl }
  | count ha => exact { h with idle_count := by simp [ha] }

theorem SampleWrite.inv (hw : SampleWrite s t) (h : s.Inv) : t.Inv := by
  cases hw with
  | none => exact h
  | leds => exact { h with }
  | parity inc v hm => exact { h with inc_local := fun hne => absurd hm hne }
  | marquee o hm => exact { h with mstate_local := by rcases hm with hm | hm <;> simp [hm, Mode.usesMstate] }
  | zoneCount z n hz hn hm => exact h.setZone hm hz hn
  | zoneToggle z hz b v hv hm =>
    have hz := h.setZone hm hz (n := 0) (by simp [zoneThreshold])
    have hb : ((s.setZone z 0).showBlink b).Inv := { hz with zone_local := fun hne => absurd hm hne }
    exact hb.pwmWrite hv
  | recorded e => exact h.record e
  | angle v a hv ha => exact h.servoSet hv ha
  | bright v hv => exact h.pwmWrite hv

/-- The line step keeps the invariant where its echo fits TXQ (R241). -/
theorem LineWrite.inv {b : Byte} (hw : LineWrite s b t) (h : s.Inv) (hq : t.txq.length ≤ s.params.txqDepth) : t.Inv := by
  have hlen := h.len_le
  cases hw with
  | ignored => exact h
  | erased hpos =>
    have hn : (s.len - 1).toNat = s.len.toNat - 1 := by bv_omega
    refine (h.setLine (by omega) (Memory.wf_poke h.lbuf_wf (by omega) 0) fun i hi => ?_).enqueueTx hq
    by_cases hi' : i = (s.len - 1).toNat
    · rw [hi', Memory.peek_poke_same (Memory.wf_rising h.lbuf_wf)]
    · rw [Memory.peek_poke_other _ _ hi', h.lbuf_clear i (by omega)]
  | ended =>
    refine ((h.emitLine (by simpa [State.lineHeld] using hlen)).setLine (by simp) (Memory.wf_zeroBelow h.lbuf_wf _)
      fun i _ => ?_).enqueueTx hq
    rw [Memory.peek_zeroBelow]
    split
    · rfl
    · exact h.lbuf_clear i (by omega)
  | appended hlt =>
    have hn : (s.len + 1).toNat = s.len.toNat + 1 := by bv_omega
    refine (h.setLine (by omega) (Memory.wf_poke h.lbuf_wf (by omega) b) fun i hi => ?_).enqueueTx hq
    rw [Memory.peek_poke_other _ _ (by omega), h.lbuf_clear i (by omega)]

/-- A service keeps the invariant where what it enqueues fits TXQ and, for RX, no activation waits at it any more. -/
theorem ServiceWrite.inv {x : Src} (hw : ServiceWrite s x t) (h : s.Inv) (hq : t.txq.length ≤ s.params.txqDepth)
    (hx : x = .rx → s.rxWaits = false) : t.Inv := by
  cases hw with
  | tmr u hu => exact (hu.inv h.loadTimer).clearPending nofun
  | adc u hu => exact (hu.inv { h with }).clearPending nofun
  | edge =>
    have ho : s.openWindow.Inv := { h with idle_count := nofun }
    exact ho.clearPending nofun
  | bounce => exact h.clearPending nofun
  | rx u hu =>
    have hline := hu.inv h.afterToggle (by simpa using hq)
    have hend : (u.endByte s.rxbyte).Inv := { hline with }
    have hwait : u.rxWaits = s.rxWaits := by cases hu <;> simp
    exact hend.clearPending fun hr => hwait.trans (hx hr)

/-- A service leaves the note of a wait; SERVICE itself ends it. -/
theorem ServiceWrite.rxWaits_eq {x : Src} (hw : ServiceWrite s x t) : t.rxWaits = s.rxWaits := by
  cases hw with
  | tmr u hu => cases hu <;> simp
  | adc u hu => cases hu <;> simp
  | rx u hu => cases hu <;> simp
  | edge | bounce => simp

/-- Only the service of RX writes TXQ (R246). -/
theorem ServiceWrite.txq_eq {x : Src} (hw : ServiceWrite s x t) (hx : x ≠ .rx) : t.txq = s.txq := by
  cases hw with
  | tmr u hu => cases hu <;> simp
  | adc u hu => cases hu <;> simp
  | edge | bounce => simp
  | rx => exact absurd rfl hx

/-- What a service that does not hold enqueues fits TXQ (R231, R241). -/
theorem State.serve_txq_le {x : Src} (hh : s.serviceHolds x = false) (hq : s.txq.length ≤ s.params.txqDepth)
    (ht : s.serve x = .ok t) : t.txq.length ≤ s.params.txqDepth := by
  cases x with
  | rx =>
    rw [State.serviceRx_txq_length ht]
    simpa [State.serviceHolds, State.rxHolds] using hh
  | tmr | adc | btn => rwa [(State.serve_cases ht).txq_eq nofun]

/-- A cursor moved past another source is not past RX. -/
theorem Src.past_le_three {x : Src} (h : x ≠ .rx) : x.past.val ≤ 3 := by
  cases x with
  | rx => exact absurd rfl h
  | tmr | adc | btn => decide

theorem Moves.inv {cycle : Prop} (hm : Moves cycle s t) (h : s.Inv) : t.Inv := by
  cases hm with
  | rest => exact h
  | powerCycle => exact h.hardReset
  | enterHigh he => exact h.enterHigh he
  | enterLow he => exact h.enterLow he
  | service f rest x u hs hn hh hwait hu =>
    have hw := State.serve_cases hu
    have hrx : x = .rx → (s.endWait x).rxWaits = false := by rintro rfl; simp
    have hq := State.serve_txq_le (s := s.endWait x) hh h.txq_le hu
    refine (hw.inv (h.endWait x) hq hrx).setTop (hw.stack_eq.trans hs) fun hwaits => Src.past_le_three fun hx => ?_
    exact Bool.eq_false_iff.1 (hrx hx) (hw.rxWaits_eq.symm.trans hwaits)
  | leave f rest hs hn => exact h.leave hs hn
  | malformed p rest e =>
    have hl : (s.leaveCommands rest).Inv := { h with }
    exact hl.raise _
  | command p rest i t hs hc hd he ht => exact ht.inv { h with } hs
  | event p rest i t hc hd ht =>
    have hl : (s.leaveEvents rest).Inv := { h with }
    exact ht.inv hl.noteWait

/-- Settles O16: each of the moves a step can make keeps the invariant. -/
theorem stepKeepsInvariant : Obligations.StepKeepsInvariant := by
  intro s t h hstep
  exact (step_moves hstep).inv { h with }

/-! ## What a run keeps for good: the sticky fault and the output channels -/

/-- From `s` to `t` CFGFAULT is not cleared (R52) and every channel is only appended to (R55). -/
structure State.Grows (s t : State) : Prop where
  cfgFault : s.cfgFault = true → t.cfgFault = true
  tmrload : s.tmrload <+: t.tmrload
  press : s.press <+: t.press
  lines : s.lines <+: t.lines
  rxtoggle : s.rxtoggle <+: t.rxtoggle
  txout : s.txout <+: t.txout

theorem State.Grows.refl (s : State) : s.Grows s :=
  ⟨id, List.prefix_rfl, List.prefix_rfl, List.prefix_rfl, List.prefix_rfl, List.prefix_rfl⟩

theorem State.Grows.trans {s t u : State} (h : s.Grows t) (k : t.Grows u) : s.Grows u where
  cfgFault := k.cfgFault ∘ h.cfgFault
  tmrload := h.tmrload.trans k.tmrload
  press := h.press.trans k.press
  lines := h.lines.trans k.lines
  rxtoggle := h.rxtoggle.trans k.rxtoggle
  txout := h.txout.trans k.txout

theorem RegWrite.grows (hw : RegWrite s t) : s.Grows t := by
  cases hw <;> exact { State.Grows.refl s with }

theorem CommandWrite.grows {i : Instr} (hw : CommandWrite s i t) : s.Grows t := by
  cases hw with
  | wrreg reg data r t hr hok => exact (State.writeReg_ok hok).grows
  | _ => exact { State.Grows.refl s with }

theorem CommandEnd.grows {i : Instr} (he : CommandEnd s i t) : s.Grows t := by
  cases he with
  | failed | held => exact { State.Grows.refl s with }
  | faulted => exact { State.Grows.refl s with cfgFault := by simp }
  | done u r hw => exact { hw.grows with }

theorem EventWrite.grows (hw : EventWrite s t) : s.Grows t := by
  cases hw with
  | txtake b rest => exact { State.Grows.refl s with txout := List.prefix_append _ _ }
  | _ => exact { State.Grows.refl s with }

theorem TickWrite.grows (hw : TickWrite s t) : s.Grows t := by
  cases hw with
  | press => exact { State.Grows.refl s with press := List.prefix_append _ _ }
  | idle | count => exact { State.Grows.refl s with }

theorem SampleWrite.grows (hw : SampleWrite s t) : s.Grows t := by
  cases hw <;> exact { State.Grows.refl s with }

theorem LineWrite.grows {b : Byte} (hw : LineWrite s b t) : s.Grows t := by
  cases hw with
  | ended => exact { State.Grows.refl s with lines := List.prefix_append _ _ }
  | ignored | erased | appended => exact { State.Grows.refl s with }

theorem State.grows_afterToggle (s : State) : s.Grows s.afterToggle := by
  unfold State.afterToggle
  split
  · exact { State.Grows.refl s with rxtoggle := List.prefix_append _ _ }
  · exact .refl s

theorem ServiceWrite.grows {x : Src} (hw : ServiceWrite s x t) : s.Grows t := by
  cases hw with
  | tmr u hu =>
    have hload : s.Grows s.loadTimer := { State.Grows.refl s with tmrload := List.prefix_append _ _ }
    exact { hload.trans hu.grows with }
  | adc u hu => exact { hu.grows with }
  | edge | bounce => exact { State.Grows.refl s with }
  | rx u hu => exact { s.grows_afterToggle.trans hu.grows with }

theorem Moves.grows {cycle : Prop} (hm : Moves cycle s t) (hc : ¬ cycle) : s.Grows t := by
  cases hm with
  | powerCycle h => exact absurd h hc
  | service f rest x u hs hn hh hw hu => exact { (State.serve_cases hu).grows with }
  | command p rest i t hs hp hd he ht => exact { ht.grows with }
  | event p rest i t hp hd ht => exact { ht.grows with }
  | rest | enterHigh | enterLow | leave | malformed => exact { State.Grows.refl s with }

theorem step_grows (hstep : step s = .next t) (hc : ¬ s.powerCycleDrawn) : s.Grows t :=
  { (step_moves hstep).grows hc with }

/-- Settles O18: CFGFAULT is only ever set, but for the power cycle. -/
theorem cfgFaultIsSticky : Obligations.CfgFaultIsSticky :=
  fun _ _ hf hc hstep => (step_grows hstep hc).cfgFault hf

/-- Settles O19: every write of a channel appends to it. -/
theorem channelsOnlyGrow : Obligations.ChannelsOnlyGrow := by
  intro s t hc hstep
  obtain ⟨-, htmrload, hpress, hlines, hrxtoggle, htxout⟩ := step_grows hstep hc
  exact ⟨htmrload, hpress, hlines, hrxtoggle, htxout⟩

/-! ## Owned outputs -/

/-- Ownership and the claims' words for it agree (R39). -/
theorem State.ownsLed_of_not_ledFree (h : ¬ Claims.ledFree s) : s.mode.ownsLed = true := by
  unfold Claims.ledFree at h
  cases hm : s.mode <;> simp_all [Mode.ownsLed]

theorem State.ownsPwm_of_not_pwmFree (h : ¬ Claims.pwmFree s) : s.mode.ownsPwm = true := by
  unfold Claims.pwmFree at h
  cases hm : s.mode <;> simp_all [Mode.ownsPwm]

/-- A command's write leaves OUT while MODE owns LED, since it is checked for ownership (R39, R162). -/
theorem CommandWrite.out_eq {i : Instr} (hw : CommandWrite s i t) (ho : s.mode.ownsLed = true) : t.out = s.out := by
  cases hw with
  | wrreg reg data r t hr hok =>
    cases State.writeReg_ok hok with
    | out o hfree => simp [hfree] at ho
    | _ => rfl
  | binoutWrite val v hfree => simp [hfree] at ho
  | _ => rfl

/-- And DCH and DCL while MODE owns PWM. -/
theorem CommandWrite.dutyFields_eq {i : Instr} (hw : CommandWrite s i t) (ho : s.mode.ownsPwm = true) :
    t.dch = s.dch ∧ t.dcl = s.dcl := by
  cases hw with
  | wrreg reg data r t hr hok => cases State.writeReg_ok hok <;> exact ⟨rfl, rfl⟩
  | pwmset _ _ hfree | pwmdutyWrite _ _ _ _ hfree | pwmangleWrite _ _ _ _ _ hfree | svfoldWrite _ _ _ _ _ hfree =>
    simp [hfree] at ho
  | _ => exact ⟨rfl, rfl⟩

theorem CommandEnd.owned_eq {i : Instr} (he : CommandEnd s i t) :
    (s.mode.ownsLed = true → t.out = s.out) ∧ (s.mode.ownsPwm = true → t.dch = s.dch ∧ t.dcl = s.dcl) := by
  cases he with
  | done u r hw => exact ⟨hw.out_eq, hw.dutyFields_eq⟩
  | failed | faulted | held => exact ⟨fun _ => rfl, fun _ => ⟨rfl, rfl⟩⟩

/-- Settles O27: a command that succeeds writes an output only where MODE does not own it. -/
theorem ownedOutputsStay : Obligations.OwnedOutputsStay := by
  intro i s t hp hexec
  rcases exec_command_cases hp hexec with rfl | ⟨-, he⟩
  · exact ⟨fun _ => rfl, fun _ => ⟨rfl, rfl⟩⟩
  · obtain ⟨hled, hpwm⟩ := he.owned_eq
    exact ⟨hled ∘ State.ownsLed_of_not_ledFree, hpwm ∘ State.ownsPwm_of_not_pwmFree⟩

end Sys2Proof.Machine

/-! PROOFS. The statement of 20_memory: a packet's eight bytes, least significant first, and the stream they stand in (R62). -/

namespace Sys2Proof

/-- R62: byte `k` of the packet is its bits `8k+7 : 8k`. -/
theorem bytesOfPacket_eq_ofFn (p : Packet) : bytesOfPacket p = List.ofFn fun k : Fin 8 => p.extractLsb' (8 * k.val) 8 := rfl

/-- Each byte continues the slice above it downwards, so the eight joined are the slice of bits 63:0, the packet. -/
theorem join_bytesOfPacket (p : Packet) :
    p.extractLsb' 56 8 ++ p.extractLsb' 48 8 ++ p.extractLsb' 40 8 ++ p.extractLsb' 32 8 ++ p.extractLsb' 24 8 ++ p.extractLsb' 16 8
      ++ p.extractLsb' 8 8 ++ p.extractLsb' 0 8 = p := by
  simp only [BitVec.extractLsb'_append_extractLsb'_eq_extractLsb']
  exact BitVec.extractLsb'_eq_self

theorem packetOfBytes_bytesOfPacket_append (p : Packet) (rest : List Byte) :
    packetOfBytes (bytesOfPacket p ++ rest) = some (p, rest) :=
  congrArg (fun q => some (q, rest)) (join_bytesOfPacket p)

/-- Settles O4: the bytes are the packet's slices in order, and joining them gives it back. -/
theorem packetTransportRoundTrip : Obligations.PacketTransportRoundTrip := by
  intro p rest
  refine ⟨packetOfBytes_bytesOfPacket_append p rest, fun k => ?_⟩
  rw [bytesOfPacket_eq_ofFn, List.getElem?_ofFn, dif_pos k.isLt]

end Sys2Proof

/-! PROOFS. The statements of 30_encoding: the decoders and `encode` are inverse to each other on the well-formed instructions (R81 to R86),
a packet that is no instruction is answered or refused by its reason (R86 to R88), and a command with C = 0 writes no unit state (R84). -/

namespace Sys2Proof

/-! ## Packets by their fields (R81) -/

theorem encode_eq {i : Instr} {p : Packet} (hop : i.opcode = packetOp p) (hs : i.fieldS = packetS p) (hb : i.fieldB = packetB p)
    (ha : i.fieldA = packetA p) : encode i = p := by
  rw [encode, hop, hs, hb, ha, packFields_fields]

theorem reservedClear_iff {p : Packet} {rs : Byte} {rb : BitVec 16} {ra : Word} :
    reservedClear p rs rb ra = true ↔ packetS p &&& rs = 0 ∧ packetB p &&& rb = 0 ∧ packetA p &&& ra = 0 := by
  simp only [reservedClear, Bool.and_eq_true, beq_iff_eq, and_assoc]

theorem packet_eq_zero_iff {p : Packet} : p = 0 ↔ packetOp p = 0 ∧ packetS p = 0 ∧ packetB p = 0 ∧ packetA p = 0 := by
  constructor
  · rintro rfl
    exact ⟨rfl, rfl, rfl, rfl⟩
  · rintro ⟨hop, hs, hb, ha⟩
    rw [← packFields_fields p, hop, hs, hb, ha]
    rfl

@[simp] theorem packetOp_and (p q : Packet) : packetOp (p &&& q) = packetOp p &&& packetOp q := BitVec.extractLsb'_and
@[simp] theorem packetS_and (p q : Packet) : packetS (p &&& q) = packetS p &&& packetS q := BitVec.extractLsb'_and
@[simp] theorem packetB_and (p q : Packet) : packetB (p &&& q) = packetB p &&& packetB q := BitVec.extractLsb'_and
@[simp] theorem packetA_and (p q : Packet) : packetA (p &&& q) = packetA p &&& packetA q := BitVec.extractLsb'_and

/-- The reserved-bit test, field by field in the decoder, is the test of the whole packet against the fields' masks joined. -/
theorem reservedClear_iff_and_packFields {p : Packet} {rs : Byte} {rb : BitVec 16} {ra : Word} :
    reservedClear p rs rb ra = true ↔ p &&& packFields 0 rs rb ra = 0 := by
  rw [packet_eq_zero_iff, reservedClear_iff]
  simp

/-- The commit bit C = S[1] is bit 49 of the packet (R84). -/
theorem selector1_eq_getLsbD (p : Packet) : selector1 p = p.getLsbD 49 := by
  simp [selector1, packetS]

/-! ## Rows: which bits are reserved and what an accepted packet carries (R82, R86) -/

@[simp] theorem selector1_encode (i : Instr) : selector1 (encode i) = i.fieldS.getLsbD 1 := by rw [selector1, packetS_encode]
@[simp] theorem selector0_encode (i : Instr) : selector0 (encode i) = i.fieldS.getLsbD 0 := by rw [selector0, packetS_encode]

/-- A selector byte with W and OE unused has C alone. -/
theorem selectorByte_false_reserved (c : Bool) : selectorByte c false &&& 0xFD = 0 := by cases c <;> decide

theorem selectorByte_false_of_clear (s : Byte) (h : s &&& 0xFD = 0) : selectorByte (s.getLsbD 1) false = s := by
  revert s; decide

/-- Narrowing a zero-extended sample gives the sample back. -/
theorem setWidth10_setWidth32 (x : BitVec 10) : (x.setWidth 32).setWidth 10 = x := by simp

/-- A field that is reserved as a whole and clear is 0. -/
theorem zero_eq_of_clear {n : Nat} {x m : BitVec n} (h : x &&& m = 0) (hm : m = BitVec.allOnes n) : 0 = x := by
  rw [hm, BitVec.and_allOnes] at h
  exact h.symm

/-- A field that is reserved from bit `k` on and clear there is its low `k` bits zero-extended. -/
theorem setWidth_setWidth_of_clear {n k : Nat} {x m : BitVec n} (h : x &&& m = 0) (hm : m = BitVec.allOnes n <<< k) :
    (x.setWidth k).setWidth n = x := by
  apply BitVec.eq_of_getLsbD_eq
  intro i hi
  by_cases hk : i < k
  · simp [hi, hk]
  · have hbit : x.getLsbD i = false := by simpa [hm, hi, hk] using congrArg (·.getLsbD i) h
    simp [hk, hbit]

theorem acceptIf_encode {ε : Type} {i j : Instr} {e : ε} {rs : Byte} {rb : BitVec 16} {ra : Word}
    (h : i.fieldS &&& rs = 0 ∧ i.fieldB &&& rb = 0 ∧ i.fieldA &&& ra = 0) :
    acceptIf (reservedClear (encode i) rs rb ra) e j = .ok j := by
  refine if_pos (reservedClear_iff.2 ?_)
  rwa [packetS_encode, packetB_encode, packetA_encode]

theorem acceptIf_reserved {ε : Type} {p m : Packet} {rs : Byte} {rb : BitVec 16} {ra : Word} {e : ε} {i : Instr} (h : p &&& m ≠ 0)
    (hm : m = packFields 0 rs rb ra) : acceptIf (reservedClear p rs rb ra) e i = .error e := by
  refine if_neg fun hc => h ?_
  rw [hm]
  exact reservedClear_iff_and_packFields.1 hc

/-! ## Encode, then decode -/

theorem decodeCommand_encode {i : Instr} (hp : i.port = .command) (hwf : i.wf = true) : decodeCommand (encode i) = .ok i := by
  cases i <;> simp only [Instr.port, reduceCtorEq] at hp
  all_goals
    simp only [decodeCommand, packetOp_encode, packetS_encode, packetB_encode, packetA_encode, selector1_encode, selector0_encode,
      Instr.opcode, Instr.fieldS, Instr.fieldB, Instr.fieldA, selectorByte_bit1, selectorByte_bit0, setWidth8_setWidth32]
    apply acceptIf_encode
  case nop | srst | adstart => exact ⟨rfl, rfl, rfl⟩
  case rdreg reg => exact ⟨BitVec.and_zero, BitVec.zero_and, BitVec.zero_and⟩
  case wrreg reg data => exact ⟨BitVec.and_zero, BitVec.zero_and, BitVec.and_zero⟩
  case txbyte byte => exact ⟨BitVec.zero_and, BitVec.zero_and, byte_reserved byte⟩
  case tcalc c w ps period => exact ⟨selectorByte_reserved c w, BitVec.and_zero, BitVec.and_zero⟩
  case pwmset val => exact ⟨BitVec.zero_and, BitVec.zero_and, BitVec.and_zero⟩
  case pwmduty c ps val | pwmangle c ps val => exact ⟨selectorByte_false_reserved c, BitVec.and_zero, BitVec.and_zero⟩
  case svfold c ps val =>
    refine ⟨selectorByte_false_reserved c, ?_, BitVec.and_zero⟩
    cases c with
    | true => exact BitVec.and_zero
    | false =>
      have hps : ps = 0 := by simpa [Instr.wf] using hwf
      rw [hps]
      exact BitVec.zero_and
  case binout c val => exact ⟨selectorByte_false_reserved c, BitVec.zero_and, BitVec.and_zero⟩

theorem decodeEvent_encode {i : Instr} (hp : i.port = .event) : decodeEvent (encode i) = .ok i := by
  cases i <;> simp only [Instr.port, reduceCtorEq] at hp
  all_goals
    simp only [decodeEvent, packetOp_encode, packetA_encode, selector1_encode, selector0_encode, Instr.opcode, Instr.fieldS,
      Instr.fieldA, selectorByte_bit1, selectorByte_bit0, setWidth8_setWidth32, setWidth10_setWidth32]
    apply acceptIf_encode
  case evTmr | evBtn | evTxtake => exact ⟨rfl, rfl, rfl⟩
  case evAdc sample => exact ⟨BitVec.zero_and, BitVec.zero_and, sample_reserved sample⟩
  case evRx byte oe fe => exact ⟨selectorByte_reserved fe oe, BitVec.zero_and, byte_reserved byte⟩

/-- Settles O2: each row's fields avoid its reserved bits, so the decoder accepts the packet and reads the fields back. -/
theorem encodeThenDecode : Obligations.EncodeThenDecode := by
  intro i hwf
  cases hp : i.port with
  | command => rw [decode, decodeCommand_encode hp hwf]; rfl
  | event => rw [decode, decodeEvent_encode hp]; rfl

/-! ## Decode, then encode -/

theorem encode_of_decodeCommand {p : Packet} {i : Instr} (h : decodeCommand p = .ok i) : encode i = p ∧ i.wf = true := by
  unfold decodeCommand at h
  split at h
  case h_13 => cases h
  all_goals
    rename_i hop
    obtain ⟨hclear, rfl⟩ := Machine.acceptIf_ok h
    obtain ⟨hs, hb, ha⟩ := reservedClear_iff.1 hclear
  case h_1 | h_4 | h_5 => -- NOP, SRST, ADSTART
    exact ⟨encode_eq hop.symm (zero_eq_of_clear hs rfl) (zero_eq_of_clear hb rfl) (zero_eq_of_clear ha rfl), rfl⟩
  case h_2 => exact ⟨encode_eq hop.symm rfl (zero_eq_of_clear hb rfl) (zero_eq_of_clear ha rfl), rfl⟩ -- RDREG
  case h_3 => exact ⟨encode_eq hop.symm rfl (zero_eq_of_clear hb rfl) rfl, rfl⟩ -- WRREG
  case h_6 => -- TXBYTE
    exact ⟨encode_eq hop.symm (zero_eq_of_clear hs rfl) (zero_eq_of_clear hb rfl) (setWidth_setWidth_of_clear ha rfl), rfl⟩
  case h_7 => exact ⟨encode_eq hop.symm (selectorByte_of_clear _ hs) rfl rfl, rfl⟩ -- TCALC
  case h_8 => exact ⟨encode_eq hop.symm (zero_eq_of_clear hs rfl) (zero_eq_of_clear hb rfl) rfl, rfl⟩ -- PWMSET
  case h_9 | h_10 => -- PWMDUTY, PWMANGLE
    exact ⟨encode_eq hop.symm (selectorByte_false_of_clear _ hs) rfl rfl, rfl⟩
  case h_11 => -- SVFOLD
    refine ⟨encode_eq hop.symm (selectorByte_false_of_clear _ hs) rfl rfl, ?_⟩
    cases hc : selector1 p with
    | true => rfl
    | false =>
      rw [hc] at hb
      have hb0 : 0 = packetB p := zero_eq_of_clear hb rfl
      rw [Instr.wf, ← hb0]
      rfl
  case h_12 => -- BINOUT
    exact ⟨encode_eq hop.symm (selectorByte_false_of_clear _ hs) (zero_eq_of_clear hb rfl) rfl, rfl⟩

theorem encode_of_decodeEvent {p : Packet} {i : Instr} (h : decodeEvent p = .ok i) : encode i = p ∧ i.wf = true := by
  unfold decodeEvent at h
  split at h
  case h_6 => cases h
  all_goals
    rename_i hop
    obtain ⟨hclear, rfl⟩ := Machine.acceptIf_ok h
    obtain ⟨hs, hb, ha⟩ := reservedClear_iff.1 hclear
  case h_1 | h_3 | h_5 => -- EV_TMR, EV_BTN, EV_TXTAKE
    exact ⟨encode_eq hop.symm (zero_eq_of_clear hs rfl) (zero_eq_of_clear hb rfl) (zero_eq_of_clear ha rfl), rfl⟩
  case h_2 => -- EV_ADC
    exact ⟨encode_eq hop.symm (zero_eq_of_clear hs rfl) (zero_eq_of_clear hb rfl) (setWidth_setWidth_of_clear ha rfl), rfl⟩
  case h_4 => -- EV_RX
    exact ⟨encode_eq hop.symm (selectorByte_of_clear _ hs) (zero_eq_of_clear hb rfl) (setWidth_setWidth_of_clear ha rfl), rfl⟩

theorem eq_ok_of_mapError_eq_ok {ε ε' α : Type} {f : ε → ε'} {x : Except ε α} {a : α} (h : x.mapError f = .ok a) : x = .ok a := by
  cases x with
  | ok b => cases h; rfl
  | error e => cases h

/-- Settles O3: the packet's fields are the operands decoded where the row has them, and clear where it reserves them. -/
theorem decodeThenEncode : Obligations.DecodeThenEncode := by
  intro port p i h
  cases port with
  | command =>
    have hd : decodeCommand p = .ok i := eq_ok_of_mapError_eq_ok h
    obtain ⟨henc, hwf⟩ := encode_of_decodeCommand hd
    exact ⟨henc, Machine.decodeCommand_port hd, hwf⟩
  | event =>
    have hd : decodeEvent p = .ok i := eq_ok_of_mapError_eq_ok h
    obtain ⟨henc, hwf⟩ := encode_of_decodeEvent hd
    exact ⟨henc, Machine.decodeEvent_port hd, hwf⟩

/-- Settles O1: each word is the packet of its instruction. -/
theorem specWordsDecode : Obligations.SpecWordsDecode :=
  ⟨decodeCommand_encode (i := .tcalc true true 8 1000) rfl rfl, decodeCommand_encode (i := .wrreg 0x03 9) rfl rfl,
    decodeCommand_encode (i := .pwmangle true 4 90) rfl rfl, decodeCommand_encode (i := .binout true 9) rfl rfl,
    decodeEvent_encode (i := .evAdc 682) rfl, decodeEvent_encode (i := .evRx 0x41 true false) rfl⟩

/-! ## Packets that are no instruction (R86, R87, R88) -/

theorem decodeCommand_illegal {p : Packet} (hop : packetOp p ∉ Claims.commandOpcodes) : decodeCommand p = .error .illegal := by
  unfold decodeCommand
  split
  case h_13 => rfl
  all_goals
    rename_i h
    rw [h] at hop
    exact absurd (by decide) hop

theorem decodeEvent_opcode {p : Packet} (hop : packetOp p ∉ Claims.eventOpcodes) : decodeEvent p = .error .opcode := by
  unfold decodeEvent
  split
  case h_6 => rfl
  all_goals
    rename_i h
    rw [h] at hop
    exact absurd (by decide) hop

theorem decodeCommand_reserved {p : Packet} (hop : packetOp p ∈ Claims.commandOpcodes) (h : p &&& Claims.reservedBits p ≠ 0) :
    decodeCommand p = .error .reserved := by
  simp only [Claims.commandOpcodes, List.mem_cons, List.not_mem_nil, or_false] at hop
  rcases hop with hop | hop | hop | hop | hop | hop | hop | hop | hop | hop | hop | hop
  all_goals
    simp only [decodeCommand, Claims.reservedBits, hop] at h ⊢
    refine acceptIf_reserved h ?_
  any_goals rfl
  -- What is left is SVFOLD, whose B is reserved where C = 0.
  rw [selector1_eq_getLsbD]
  cases p.getLsbD 49 <;> rfl

theorem decodeEvent_reserved {p : Packet} (hop : packetOp p ∈ Claims.eventOpcodes) (h : p &&& Claims.reservedEventBits p ≠ 0) :
    decodeEvent p = .error .reserved := by
  simp only [Claims.eventOpcodes, List.mem_cons, List.not_mem_nil, or_false] at hop
  rcases hop with hop | hop | hop | hop | hop
  all_goals
    simp only [decodeEvent, Claims.reservedEventBits, hop] at h ⊢
    exact acceptIf_reserved h rfl

/-! ## Commands that only check (R84) -/

/-- The five computing commands with C = 0 (R84). -/
def Instr.checksOnly : Instr → Bool
  | .tcalc c _ _ _ | .pwmduty c _ _ | .pwmangle c _ _ | .svfold c _ _ | .binout c _ => !c
  | _ => false

end Sys2Proof

namespace Sys2Proof.Machine

variable {s t : State} {p : Packet}

/-! ## The step that offers such a packet -/

theorem State.raise_eq_failed (s : State) (e : Err) : s.raise e = Claims.failed s e.code.toNat := by
  simp [State.raise, Claims.failed, flagsWith]

theorem step_of_command_error {rest : List Packet} {ts : List Turn} {e : CommandReject} (ht : s.turns = .host :: ts) (hs : s.stack = [])
    (hc : s.cmdPort = p :: rest) (hd : decodeCommand p = .error e) :
    step s = .next (Claims.failed { s with turns := ts, cmdPort := rest } (errOfReject e).code.toNat) := by
  have hstep : step s = .next (((s.leaveTurns ts).leaveCommands rest).raise (errOfReject e)) := by
    simp only [step, State.move, ht, State.takeTurn, State.hostTurn, State.leaveTurns_stack, State.leaveTurns_cmdPort, hs, hc, hd]
  rw [hstep, State.raise_eq_failed]
  rfl

theorem step_of_event_error {rest : List Packet} {ts : List Turn} {e : EventReject} (ht : s.turns = .environment :: ts)
    (hc : s.evtPort = p :: rest) (hd : decodeEvent p = .error e) : step s = .refused (.malformedEvent e) := by
  simp only [step, State.move, ht, State.takeTurn, State.environmentTurn, State.leaveTurns_evtPort, hc, hd]

/-- Settles O6: the command decoder rejects the packet as illegal, and the host's turn answers so. -/
theorem unassignedCommandAnswersIllegal : Obligations.UnassignedCommandAnswersIllegal :=
  fun _ _ _ _ ht hs hc hop => step_of_command_error ht hs hc (decodeCommand_illegal hop)

/-- Settles O7: the mask of the packet's row is the decoder's, so the decoder rejects the packet as reserved. -/
theorem reservedBitAnswersReserved : Obligations.ReservedBitAnswersReserved :=
  fun _ _ _ _ ht hs hc hop hr => step_of_command_error ht hs hc (decodeCommand_reserved hop hr)

/-- Settles O8: the event decoder names why it rejects the packet, and the environment's turn refuses with that name. -/
theorem malformedEventRefused : Obligations.MalformedEventRefused :=
  fun _ _ _ _ ht hc => ⟨fun hop => step_of_event_error ht hc (decodeEvent_opcode hop),
    fun hop hr => step_of_event_error ht hc (decodeEvent_reserved hop hr)⟩

/-! ## What a command that only checks writes (R84) -/

theorem CommandWrite.eq_of_checksOnly {i : Instr} (hw : CommandWrite s i t) (hi : i.checksOnly = true) : t = s := by
  cases hw with
  | tcalcCheck | pwmdutyCheck | pwmangleCheck | svfoldCheck | binoutCheck => rfl
  | _ => cases hi

/-- Whether it fails or succeeds, a command that only checks records its answer and no more. -/
theorem CommandEnd.eq_of_checksOnly {i : Instr} (he : CommandEnd s i t) (hi : i.checksOnly = true) :
    t = { s with lasterr := t.lasterr, errflags := t.errflags, resp := t.resp } := by
  cases he with
  | failed e => rfl
  | faulted e w ps period h => subst h; cases hi
  | done u r hw => rw [hw.eq_of_checksOnly hi]; rfl
  | held b h => subst h; cases hi

theorem port_of_checksOnly {i : Instr} (hi : i.checksOnly = true) : i.port = .command := by
  cases i with
  | evTmr | evAdc | evBtn | evRx | evTxtake => cases hi
  | _ => rfl

/-- Settles O26: with C = 0 the only write a computing command can end with is none. -/
theorem checkOnlyWritesNothing : Obligations.CheckOnlyWritesNothing := by
  intro i s t hform hexec
  have hi : i.checksOnly = true := by
    rcases hform with ⟨w, ps, period, rfl⟩ | ⟨ps, v, rfl⟩ | ⟨ps, v, rfl⟩ | ⟨ps, v, rfl⟩ | ⟨v, rfl⟩ <;> rfl
  rcases exec_command_cases (port_of_checksOnly hi) hexec with rfl | ⟨-, he⟩
  · rfl
  · exact he.eq_of_checksOnly hi

end Sys2Proof.Machine

/-! PROOFS. The statements of 40_host_commands: a step runs the decoded instruction (R110), register access over the register map (R112 to R115),
SRST (R116, R117), the short commands (R111, R196, R245), and what the host commands leave unchanged. -/

namespace Sys2Proof.Machine

variable {s t : State} {i : Instr} {r : Reg} {reg : Byte} {data : Word}

/-! ## The dispatcher's conditions in the claims' words (R241, R271 to R273, R281) -/

@[simp] theorem sourceBit_eq_index (x : Src) : Claims.sourceBit x = x.index := by cases x <;> rfl

/-- A source's level is its IPRIO bit, but for BTN, whose bit reads 1 (R28, R273). -/
theorem State.levelOf_eq_iff (s : State) (x : Src) (lv : Level) : s.levelOf x = lv ↔ Claims.atLevel s lv x := by
  have hbit : s.priority.getLsbD x.index = true ↔ x = .btn ∨ s.iprio.getLsbD x.index = true := by
    cases x <;> simp [State.priority, Src.index]
  rw [Claims.atLevel, sourceBit_eq_index, ← hbit, State.levelOf]
  cases lv <;> simp

theorem asks_iff (s : State) (lv : Level) (x : Src) :
    Claims.asks s lv x ↔ s.pending x = true ∧ s.sourceEnabled x = true ∧ s.levelOf x = lv := by
  rw [State.levelOf_eq_iff, Claims.asks, sourceBit_eq_index, State.pending, State.sourceEnabled]

theorem nextIs_iff (s : State) (f : Frame) (x : Src) : Claims.nextIs s f x ↔ s.nextSource f = some x := by
  simp only [Claims.nextIs, sourceBit_eq_index, asks_iff]
  constructor
  · rintro ⟨hc, ⟨hp, he, hl⟩, hleast⟩
    exact State.nextSource_eq_some s f x hc hp he hl hleast
  · intro hn
    obtain ⟨⟨hc, ha, hl⟩, hleast⟩ := State.nextSource_least hn
    obtain ⟨hp, he⟩ := Bool.and_eq_true_iff.1 ha
    exact ⟨hc, ⟨hp, he, hl⟩, fun y hcy hlt ⟨hpy, hey, hly⟩ => hleast y hcy hlt ⟨Bool.and_eq_true_iff.2 ⟨hpy, hey⟩, hly⟩⟩

/-- `echo_len()` is the table of R241. -/
theorem State.echoLen_eq_echoBytes (s : State) : s.echoLen = Claims.echoBytes s := by
  have hlen : 0 < s.len.toNat ↔ ¬ s.len = 0 := by bv_omega
  unfold State.echoLen Claims.echoBytes
  by_cases hdel : s.rxbyte = 0x7F
  · by_cases hl : s.len = 0 <;> simp [hdel, hl, hlen]
  by_cases hlf : s.rxbyte = 0x0A
  · simp [hlf, isTerminator, State.crlfSecond]
  · simp only [hdel, hlf, isTerminator, State.crlfSecond, beq_iff_eq, Bool.or_eq_true, or_false, false_and, if_false,
      beq_eq_false_iff_ne.2 hlf, Bool.false_and, Bool.false_eq_true]

theorem State.rxHolds_iff (s : State) : s.rxHolds = true ↔ ¬ Claims.echoFits s := by
  rw [State.rxHolds, decide_eq_true_eq, State.echoLen_eq_echoBytes, Claims.echoFits, Nat.not_le]

theorem State.atHeldRx_iff (s : State) : s.atHeldRx = true ↔ ¬ Claims.echoFits s ∧ ∃ f ∈ s.stack, Claims.nextIs s f .rx := by
  simp only [State.atHeldRx, Bool.and_eq_true, State.rxHolds_iff, List.any_eq_true, beq_iff_eq, nextIs_iff]

/-! ## A step runs the packet at the head of its port (R110) -/

/-- Taking the turn and the packet away changes no enabling condition. -/
theorem enabled_leaveTurns (i : Instr) (s : State) (ts : List Turn) : Instr.enabled i (s.leaveTurns ts) = Instr.enabled i s := by
  cases i <;> rfl

theorem step_of_command {p : Packet} {rest : List Packet} {ts : List Turn} (ht : s.turns = .host :: ts) (hs : s.stack = [])
    (hc : s.cmdPort = p :: rest) (hd : decodeCommand p = .ok i) (he : Instr.enabled i s = true) :
    step s = exec i ((s.leaveTurns ts).leaveCommands rest) := by
  simp only [step, State.move, ht, State.takeTurn, State.hostTurn, State.leaveTurns_stack, State.leaveTurns_cmdPort, hs, hc, hd,
    enabled_leaveTurns, he, if_true]

/-- Nor what the wait noted before an event rests on. -/
theorem noteWait_leaveTurns_leaveEvents (s : State) (ts : List Turn) (rest : List Packet) :
    ((s.leaveTurns ts).leaveEvents rest).noteWait =
      { s with turns := ts, evtPort := rest, rxWaits := s.rxWaits || s.atHeldRx } := by
  cases s; rfl

theorem step_of_event {p : Packet} {rest : List Packet} {ts : List Turn} (ht : s.turns = .environment :: ts)
    (hc : s.evtPort = p :: rest) (hd : decodeEvent p = .ok i) :
    step s = exec i { s with turns := ts, evtPort := rest, rxWaits := s.rxWaits || s.atHeldRx } := by
  rw [← noteWait_leaveTurns_leaveEvents]
  simp only [step, State.move, ht, State.takeTurn, State.environmentTurn, State.leaveTurns_evtPort, hc, hd]

/-- Settles O5: the note before an event is R281's hold in the claims' words. -/
theorem stepRunsDecodedInstruction : Obligations.StepRunsDecodedInstruction := by
  intro s p rest ts i
  constructor
  · intro ht hs hc hd he
    exact step_of_command ht hs hc (eq_ok_of_mapError_eq_ok hd) he
  · intro ht hc hd
    refine ⟨s.rxWaits || s.atHeldRx, ?_, step_of_event ht hc (eq_ok_of_mapError_eq_ok hd)⟩
    rw [Bool.or_eq_true, State.atHeldRx_iff]

/-! ## How a command ends, in the claims' words (R262) -/

theorem State.succeed_eq_done (s : State) (r : Word) : s.succeed r = Claims.done s r.toNat := by
  simp [State.succeed, Claims.done]

theorem State.command_eq_done (hs : s.stack = []) (u : State) (v : Nat) :
    s.command (u.succeed (BitVec.ofNat 32 v)) = .next (Claims.done u v) := State.command_fg hs _

theorem State.command_eq_failed (hs : s.stack = []) (e : Err) : s.command (s.raise e) = .next (Claims.failed s e.code.toNat) := by
  rw [State.command_fg hs, State.raise_eq_failed]

/-- Settles O36: none of the three has a check but ADSTART's (R111, R196, R245). -/
theorem nopAdstartTxbyteEffects : Obligations.NopAdstartTxbyteEffects := by
  intro s hs
  refine ⟨State.command_eq_done hs s 0, fun hb => ?_, fun hb => ?_, fun b hq => ?_⟩
  · rw [exec, execAdstart, check_neg (by simp [hb])]
    exact State.command_eq_done hs _ 0
  · rw [exec, execAdstart, check_pos hb]
    exact State.command_eq_failed hs .adbusy
  · have hf : s.txFull = false := beq_eq_false_iff_ne.2 hq.ne
    rw [exec, execTxbyte, hf]
    exact State.command_eq_done hs _ 0

/-- Settles O35: SRST writes constants, and zeroes the bytes below 64. -/
theorem srstResetsUnits : Obligations.SrstResetsUnits := by
  intro s hs
  refine ⟨s.lbuf.zeroBelow 64, State.command_eq_done hs _ 0, fun i hi => ?_, fun i hi => ?_⟩
  · rw [Memory.peek_zeroBelow, if_pos hi]
  · rw [Memory.peek_zeroBelow, if_neg (Nat.not_lt.2 hi)]

/-! ## The register map (R22, R67) -/

/-- The address of a register (R22). -/
def Reg.addr : Reg → Byte
  | .status => 0x00
  | .errflags => 0x01
  | .iflags => 0x02
  | .ienable => 0x03
  | .iprio => 0x04
  | .gie => 0x05
  | .mode => 0x06
  | .reload => 0x07
  | .pwmpr => 0x08
  | .pwmdch => 0x09
  | .pwmdcl => 0x0A
  | .pwps => 0x0B
  | .svang => 0x0C
  | .out => 0x0D
  | .btncnt => 0x0E
  | .tmrcnt => 0x0F
  | .dbncfg => 0x10
  | .dbnstat => 0x11
  | .sflast => 0x12
  | .sfsmooth => 0x13
  | .dirinc => 0x14
  | .zonestat => 0x15
  | .mstate => 0x16
  | .linestat => 0x17
  | .rxlatch => 0x18
  | .adcdata => 0x19
  | .txlevel => 0x1A
  | .rxrstcnt => 0x1B
  | .lbuf i => BitVec.ofNat 8 (0x40 + i.val)

theorem addr_of_mem_ofAddr : ∀ a : Byte, ∀ r ∈ Reg.ofAddr a, r.addr = a := by decide

theorem ofAddr_eq_none_iff : ∀ a : Byte, Reg.ofAddr a = none ↔ Claims.unmappedAddress a.toNat = true := by decide

theorem access_of_readOnlyAddress : ∀ a : Byte, Claims.readOnlyAddress a.toNat = true → ∃ r ∈ Reg.ofAddr a, r.access = .ro := by
  decide

/-- From 0x1C up only the line buffer is mapped (R22, R67). -/
theorem registerValue_of_le (s : State) {a : Nat} (h : 0x1C ≤ a) :
    Claims.registerValue s a = if 0x40 ≤ a ∧ a ≤ 0x7F then some (s.lbuf.peek (a - 0x40)).toNat else none := by
  unfold Claims.registerValue
  split
  case h_29 => rfl
  all_goals omega

theorem registerValue_unmapped (s : State) {a : Nat} (h : Claims.unmappedAddress a = true) : Claims.registerValue s a = none := by
  have hrange : (0x1C ≤ a ∧ a ≤ 0x3F) ∨ 0x80 ≤ a := of_decide_eq_true h
  rw [registerValue_of_le s (by omega), if_neg (by omega)]

/-! ## What RDREG reads (R112) -/

theorem toNat_append_eq_add {m n : Nat} (x : BitVec m) (y : BitVec n) : (x ++ y).toNat = 2 ^ n * x.toNat + y.toNat := by
  rw [BitVec.toNat_append, ← Nat.shiftLeft_add_eq_or_of_lt y.isLt, Nat.shiftLeft_eq, Nat.mul_comm]

/-- BTNIP reads 1 whatever it holds (R28). -/
theorem toNat_or_btnip : ∀ p : BitVec 4,
    (p ||| 0b0100#4).toNat = (p.getLsbD 0).toNat + 2 * (p.getLsbD 1).toNat + 4 + 8 * (p.getLsbD 3).toNat := by decide

/-- Bit 0 of ERRFLAGS reads 0 (R25). -/
theorem toNat_errflags_masked (f : BitVec 14) : (f &&& 0x3FFE#14).toNat = f.toNat - f.toNat % 2 := by
  have h : f &&& 0x3FFE#14 = f >>> 1 <<< 1 := by
    apply BitVec.eq_of_getLsbD_eq
    intro i hi
    interval_cases i <;> simp
  rw [h, BitVec.toNat_shiftLeft, BitVec.toNat_ushiftRight, Nat.shiftLeft_eq, Nat.shiftRight_eq_div_pow]
  omega

/-- The register read at an address is its fields at the bit positions of R22. -/
theorem registerValue_addr (hs : s.stack = []) (r : Reg) : Claims.registerValue s r.addr.toNat = some (s.readReg r).toNat := by
  cases r with
  | lbuf i =>
    have ha : (Reg.lbuf i).addr.toNat = 0x40 + i.val := by simp only [Reg.addr, BitVec.toNat_ofNat]; omega
    rw [ha, registerValue_of_le s (by omega), if_pos (by omega), Nat.add_sub_cancel_left]
    exact congrArg some (BitVec.toNat_setWidth_of_le (by decide)).symm
  | iflags | ienable | mode | pwmpr | pwmdch | pwps | svang | out | btncnt | tmrcnt | dbncfg | sflast | sfsmooth | mstate
  | adcdata | rxrstcnt =>
    exact congrArg some (BitVec.toNat_setWidth_of_le (by decide)).symm
  | errflags =>
    exact congrArg some ((BitVec.toNat_setWidth_of_le (by decide)).trans (toNat_errflags_masked _)).symm
  | iprio => exact congrArg some ((BitVec.toNat_setWidth_of_le (by decide)).trans (toNat_or_btnip _)).symm
  | dirinc => exact congrArg some ((BitVec.toNat_setWidth_of_le (by decide)).trans (BitVec.toNat_ofBool _)).symm
  | pwmdcl =>
    have hfine : s.fine < 4 := (Nat.mod_lt _ (fine_pos s.params)).trans_le (fine_le_four s.params)
    exact congrArg some (Nat.mod_eq_of_lt (hfine.trans (by decide))).symm
  | status | gie | reload | dbnstat | zonestat | linestat | rxlatch | txlevel =>
    refine congrArg some ?_
    simp only [State.readReg, State.ctx, hs, toNat_append_eq_add, BitVec.toNat_ofBool, BitVec.ofNat_eq_ofNat, BitVec.toNat_ofNat]
    omega

/-! ## How RDREG and WRREG end (R112, R113) -/

theorem exec_rdreg_mapped (hs : s.stack = []) (hr : Reg.ofAddr reg = some r) :
    exec (.rdreg reg) s = .next (Claims.done s (s.readReg r).toNat) := by
  rw [← State.succeed_eq_done, exec, execRdreg, hr]
  exact State.command_fg hs _

theorem exec_rdreg_unmapped (hs : s.stack = []) (hr : Reg.ofAddr reg = none) :
    exec (.rdreg reg) s = .next (Claims.failed s 0x0A) := by
  rw [exec, execRdreg, hr]
  exact State.command_eq_failed hs .regaddr

theorem exec_wrreg_ok (hs : s.stack = []) (hr : Reg.ofAddr reg = some r) (hw : s.writeReg r data = .ok t) :
    exec (.wrreg reg data) s = .next (Claims.done t 0) := by
  simp only [exec, execWrreg, hr, hw]
  exact State.command_eq_done hs t 0

theorem exec_wrreg_error {e : Err} (hs : s.stack = []) (hr : Reg.ofAddr reg = some r) (hw : s.writeReg r data = .error e) :
    exec (.wrreg reg data) s = .next (Claims.failed s e.code.toNat) := by
  simp only [exec, execWrreg, hr, hw]
  exact State.command_eq_failed hs e

theorem exec_wrreg_unmapped (hs : s.stack = []) (hr : Reg.ofAddr reg = none) :
    exec (.wrreg reg data) s = .next (Claims.failed s 0x0A) := by
  rw [exec, execWrreg, hr]
  exact State.command_eq_failed hs .regaddr

theorem writeReg_readonly (s : State) (data : Word) (h : r.access = .ro) : s.writeReg r data = .error .readonly := by
  cases r with
  | errflags | iflags | ienable | iprio | gie | mode | pwmpr | pwps | out | dbncfg => cases h
  | _ => rfl

/-- Settles O30: an address with a value is a register's, and reads as that register. -/
theorem rdregReturnsFields : Obligations.RdregReturnsFields := by
  intro s reg v hs hv
  cases hr : Reg.ofAddr reg with
  | none =>
    rw [registerValue_unmapped s ((ofAddr_eq_none_iff reg).1 hr)] at hv
    cases hv
  | some r =>
    rw [← addr_of_mem_ofAddr reg r hr, registerValue_addr hs] at hv
    cases hv
    exact exec_rdreg_mapped hs hr

/-- Settles O31: an unmapped address has no register, and a read-only register refuses every value. -/
theorem registerAccessErrors : Obligations.RegisterAccessErrors := by
  intro s reg data hs
  constructor
  · intro hu
    have hr := (ofAddr_eq_none_iff reg).2 hu
    exact ⟨exec_rdreg_unmapped hs hr, exec_wrreg_unmapped hs hr⟩
  · intro ha
    obtain ⟨r, hr, hro⟩ := access_of_readOnlyAddress reg ha
    exact exec_wrreg_error hs hr (writeReg_readonly s data hro)

/-! ## What WRREG writes (R114, R115) -/

theorem dataField_eq_ofNat (n : Nat) (data : Word) : dataField n data = BitVec.ofNat n (data.toNat % 2 ^ n) := by
  apply BitVec.eq_of_toNat_eq
  simp [dataField]

/-- ERRFLAGS has bits 1 to 13 (R25). -/
theorem getLsbD_errflagsMask {n : Nat} (h1 : 1 ≤ n) (h13 : n ≤ 13) : (0x3FFE#14).getLsbD n = true := by
  interval_cases n <;> rfl

/-- Settles O32: the registers without a check store DATA's field, ERRFLAGS clears what is written as 1, and IPRIO sets BTNIP. -/
theorem wrregStoresFields : Obligations.WrregStoresFields := by
  intro s data hs
  have h4 : BitVec.ofNat 4 (data.toNat % 16) = dataField 4 data := (dataField_eq_ofNat 4 data).symm
  have h16 : BitVec.ofNat 16 (data.toNat % 65536) = dataField 16 data := (dataField_eq_ofNat 16 data).symm
  rw [h4, h16]
  refine ⟨⟨_, exec_wrreg_ok (r := .errflags) hs rfl rfl, fun n h1 h13 => ?_⟩, exec_wrreg_ok (r := .iflags) hs rfl rfl,
    exec_wrreg_ok (r := .ienable) hs rfl rfl, exec_wrreg_ok (r := .gie) hs rfl rfl, exec_wrreg_ok (r := .dbncfg) hs rfl rfl,
    _, exec_wrreg_ok (r := .iprio) hs rfl rfl, ?_⟩
  · have hn : n < 14 := by omega
    rw [BitVec.getLsbD_and, BitVec.getLsbD_not, BitVec.getLsbD_and, getLsbD_errflagsMask h1 h13]
    simp [dataField, hn]
  · simp [dataField]

theorem ofCode_code (m : Mode) : Mode.ofCode m.code = some m := by cases m <;> rfl

/-- The codes 12 to 15 are no mode (R39). -/
theorem ofCode_reserved : ∀ c : BitVec 4, 12 ≤ c.toNat → Mode.ofCode c = none := by decide

/-- Settles O33: DATA's field is a reserved code, or the code of the mode named. -/
theorem wrregModeChangesPolicy : Obligations.WrregModeChangesPolicy := by
  intro s data hs
  constructor
  · intro h12
    have hcode : Mode.ofCode (dataField 4 data) = none := ofCode_reserved _ (by simpa [dataField] using h12)
    exact exec_wrreg_error (r := .mode) (e := .mode) hs rfl (by rw [State.writeReg, State.writeMode, hcode])
  · intro m hm
    have hcode : dataField 4 data = m.code := BitVec.eq_of_toNat_eq (by simpa [dataField] using hm.symm)
    exact exec_wrreg_ok (r := .mode) hs rfl (by rw [State.writeReg, State.writeMode, hcode, ofCode_code]; rfl)

theorem State.ownsLed_of_ledFree (h : Claims.ledFree s) : s.mode.ownsLed = false := by
  rcases h with h | h | h | h | h <;> rw [h] <;> rfl

/-- Settles O34: each of the three refuses by its one check (R114, R152), and else stores DATA's field. -/
theorem wrregCheckedRegisters : Obligations.WrregCheckedRegisters := by
  intro s data hs
  have h8 : BitVec.ofNat 8 (data.toNat % 256) = dataField 8 data := (dataField_eq_ofNat 8 data).symm
  have h16 : BitVec.ofNat 16 (data.toNat % 65536) = dataField 16 data := (dataField_eq_ofNat 16 data).symm
  have hduty : s.dch.toNat * Claims.fineScale s + s.dcl.toNat % Claims.fineScale s = s.duty := rfl
  have hperiod : (data.toNat % 256 + 1) * Claims.fineScale s = scaledPeriod s.params (dataField 8 data) := by
    simp [scaledPeriod, Claims.fineScale, dataField]
  have hzero : data.toNat % 65536 = 0 ↔ dataField 16 data = 0 := by simp [dataField, ← BitVec.toNat_inj]
  rw [h8, h16, hduty, hperiod]
  refine ⟨?_, ?_, fun hled => ?_, fun hled => ?_⟩
  · split
    · rename_i hle
      exact exec_wrreg_ok (r := .pwmpr) hs rfl (if_neg (Nat.not_lt.2 hle))
    · rename_i hgt
      exact exec_wrreg_error (r := .pwmpr) (e := .pwmPeriod) hs rfl (if_pos (Nat.lt_of_not_le hgt))
  · split
    · rename_i h0
      exact exec_wrreg_error (r := .pwps) (e := .prescale0) hs rfl (if_pos (hzero.1 h0))
    · rename_i h0
      exact exec_wrreg_ok (r := .pwps) hs rfl (if_neg (h0 ∘ hzero.2))
  · exact exec_wrreg_ok (r := .out) hs rfl (if_neg (by simp [State.ownsLed_of_ledFree hled]))
  · exact exec_wrreg_error (r := .out) (e := .owner) hs rfl (if_pos (State.ownsLed_of_not_ledFree hled))

/-! ## What host commands leave unchanged (R24, R116, R117, R264) -/

/-- What the host command `i` keeps from `s` to `t`: all that no command writes, and what only a command other than `i` writes. -/
structure CommandKeeps (i : Instr) (s t : State) : Prop where
  stack : t.stack = s.stack
  rxWaits : t.rxWaits = s.rxWaits
  tmrload : t.tmrload = s.tmrload
  press : t.press = s.press
  lines : t.lines = s.lines
  rxtoggle : t.rxtoggle = s.rxtoggle
  txout : t.txout = s.txout
  adcdata : t.adcdata = s.adcdata
  rxbyte : t.rxbyte = s.rxbyte
  rxoerr : t.rxoerr = s.rxoerr
  rxferr : t.rxferr = s.rxferr
  params : t.params = s.params
  cmdPort : t.cmdPort = s.cmdPort
  evtPort : t.evtPort = s.evtPort
  turns : t.turns = s.turns
  /-- The line and the unit state only SRST resets (R116). -/
  units : i ≠ .srst → (∀ a, t.lbuf.peek a = s.lbuf.peek a) ∧ t.len = s.len ∧ t.lastch = s.lastch ∧ t.linecnt = s.linecnt
    ∧ t.sflast = s.sflast ∧ t.sfsmooth = s.sfsmooth ∧ t.btncnt = s.btncnt ∧ t.tmrcnt = s.tmrcnt ∧ t.armed = s.armed
    ∧ t.dbncnt = s.dbncnt ∧ t.rxrstcnt = s.rxrstcnt
  txq : (∀ b, i ≠ .txbyte b) → t.txq = s.txq
  adBusy : i ≠ .adstart → t.adBusy = s.adBusy
  /-- The configuration only WRREG writes (R114). -/
  config : (∀ reg data, i ≠ .wrreg reg data) → t.iflags = s.iflags ∧ t.ienable = s.ienable ∧ t.iprio = s.iprio ∧ t.gieh = s.gieh
    ∧ t.giel = s.giel ∧ t.mode = s.mode ∧ t.pr = s.pr ∧ t.pwps = s.pwps ∧ t.dbncfg = s.dbncfg

theorem CommandKeeps.refl (i : Instr) (s : State) : CommandKeeps i s s := by
  constructor <;> simp

theorem RegWrite.keeps (hw : RegWrite s t) (reg : Byte) (data : Word) : CommandKeeps (.wrreg reg data) s t := by
  cases hw <;> exact { CommandKeeps.refl _ s with config := fun h => absurd rfl (h reg data) }

theorem CommandWrite.keeps (hw : CommandWrite s i t) : CommandKeeps i s t := by
  cases hw with
  | wrreg reg data r t hr hok => exact (State.writeReg_ok hok).keeps reg data
  | srst => exact { CommandKeeps.refl _ s with units := fun h => absurd rfl h }
  | adstart => exact { CommandKeeps.refl _ s with adBusy := fun h => absurd rfl h }
  | txbyte b => exact { CommandKeeps.refl _ s with txq := fun h => absurd rfl (h b) }
  | _ => exact { CommandKeeps.refl _ s with }

/-- Recording the answer (R262) and CFGFAULT (R134) writes none of it. -/
theorem CommandEnd.keeps (he : CommandEnd s i t) : CommandKeeps i s t := by
  cases he with
  | failed | faulted | held => exact { CommandKeeps.refl i s with }
  | done u r hw => exact { hw.keeps with }

theorem exec_command_keeps (hp : i.port = .command) (h : exec i s = .next t) : CommandKeeps i s t := by
  rcases exec_command_cases hp h with rfl | ⟨-, he⟩
  · exact .refl i t
  · exact he.keeps

/-- Settles O29: each field is written by the rows named, if by any. -/
theorem commandFrame : Obligations.CommandFrame := by
  intro i s t hp hexec
  have h := exec_command_keeps hp hexec
  exact ⟨h.stack, h.rxWaits, h.tmrload, h.press, h.lines, h.rxtoggle, h.txout, h.adcdata, h.rxbyte, h.rxoerr, h.rxferr, h.params,
    h.cmdPort, h.evtPort, h.turns, h.units, h.txq, h.adBusy, h.config⟩

/-! ## A WRREG taken twice (R66) -/

/-- Clearing the flags written as 1 again, setting the mode it is in, or storing a field once more changes nothing. -/
theorem State.writeReg_succeed (hw : s.writeReg r data = .ok t) (v : Word) :
    (t.succeed v).writeReg r data = .ok (t.succeed v) := by
  cases r with
  | errflags =>
    cases hw
    simp only [State.writeReg, State.succeed_errflags, State.setErrflags_errflags, BitVec.and_assoc, BitVec.and_self]
    rfl
  | mode =>
    simp only [State.writeReg, State.writeMode] at hw ⊢
    split at hw
    · cases hw
    · rename_i m hm
      have htm : t.mode = m := by
        cases hw
        split
        · exact Eq.symm ‹_›
        · rfl
      rw [State.succeed_mode, if_pos htm.symm]
  | iflags | ienable | iprio | gie | dbncfg => cases hw; rfl
  | pwmpr | pwps | out =>
    simp only [State.writeReg] at hw ⊢
    split at hw
    · cases hw
    · cases hw
      exact if_neg ‹_›
  | _ => cases hw

/-- A check reads nothing that recording an error writes. -/
theorem State.writeReg_raise {e : Err} (hw : s.writeReg r data = .error e) (e' : Err) :
    (s.raise e').writeReg r data = .error e := by
  cases r with
  | errflags | iflags | ienable | iprio | gie | dbncfg => cases hw
  | mode =>
    simp only [State.writeReg, State.writeMode] at hw ⊢
    split at hw
    · exact hw
    · cases hw
  | pwmpr | pwps | out =>
    simp only [State.writeReg] at hw ⊢
    split at hw
    · cases hw
      exact if_pos ‹_›
    · cases hw
  | _ => exact hw

theorem failed_failed (s : State) (code : Nat) : Claims.failed (Claims.failed s code) code = Claims.failed s code := by
  simp [Claims.failed, BitVec.or_assoc]

/-- Settles O28: the write and its check give the same on the state the first WRREG leaves, and so does recording its status. -/
theorem wrregIdempotent : Obligations.WrregIdempotent := by
  intro reg data s t h
  have hst : t.stack = s.stack := (exec_command_keeps rfl h).stack
  by_cases hs : s.stack = []
  · have hs' := hst.trans hs
    cases hr : Reg.ofAddr reg with
    | none =>
      rw [exec_wrreg_unmapped hs hr] at h
      cases h
      rw [exec_wrreg_unmapped hs' hr, failed_failed]
    | some r =>
      cases hw : s.writeReg r data with
      | error e =>
        rw [exec_wrreg_error hs hr hw, ← State.raise_eq_failed] at h
        cases h
        rw [exec_wrreg_error hs' hr (State.writeReg_raise hw e), State.raise_eq_failed, failed_failed]
      | ok u =>
        rw [exec_wrreg_ok hs hr hw] at h
        cases h
        exact exec_wrreg_ok (t := u.succeed 0) hs' hr (State.writeReg_succeed hw 0)
  · exact State.command_active (hst ▸ hs) _

end Sys2Proof.Machine

/-! PROOFS. The statements of 41_timing_calculator: the arithmetic of a period's count (R131, R137), TCALC by its checks (R132 to R134), the events'
latches (R135, R266), and who writes RELOAD (R133). -/

namespace Sys2Proof.Machine

variable {s t : State}

/-! ## The count and its reload (R131, R132) -/

theorem reloadExact_eq_sub (c : Params) (p ps w : Nat) : reloadExact c p ps w = (2 ^ w : Int) - timerCount c p ps := by
  unfold reloadExact
  omega

/-- Where the count is above `2^w` both sides are 0. -/
theorem toNat_reloadExact (c : Params) (p ps w : Nat) : (reloadExact c p ps w).toNat = 2 ^ w - timerCount c p ps := by
  rw [reloadExact_eq_sub, ← Int.toNat_sub]
  push_cast
  rfl

/-- The checks of R132 on the count: their order, and that both bounds are the count's. -/
theorem tcCheck_eq_ite (c : Params) (p ps w : Nat) :
    tcCheck c p ps w = if ps = 0 then some .prescale0 else if timerCount c p ps = 0 then some .tcHigh
      else if 2 ^ w < timerCount c p ps then some .tcLow else none := by
  have hhigh : (2 ^ w - 1 : Int) < reloadExact c p ps w ↔ timerCount c p ps = 0 := by rw [reloadExact_eq_sub]; omega
  have hlow : reloadExact c p ps w < 0 ↔ 2 ^ w < timerCount c p ps := by rw [reloadExact_eq_sub]; zify; omega
  rw [tcCheck, check_orElse, check_orElse, check]
  simp only [hhigh, hlow]

theorem tcCheck_eq_none_iff {c : Params} {p ps w : Nat} :
    tcCheck c p ps w = none ↔ ps ≠ 0 ∧ 1 ≤ timerCount c p ps ∧ timerCount c p ps ≤ 2 ^ w := by
  rw [tcCheck_eq_ite]
  split_ifs <;> simp <;> omega

theorem timerCount_mono (c : Params) (ps : Nat) {p₁ p₂ : Nat} (h : p₁ ≤ p₂) : timerCount c p₁ ps ≤ timerCount c p₂ ps :=
  Nat.div_le_div_right (Nat.mul_le_mul_right _ h)

/-- At a tick of 1/1 the count is the number of whole prescales in the period. -/
theorem timerCount_unit_tick {c : Params} (hn : c.tickNum = 1) (hd : c.tickDen = 1) (p ps : Nat) : timerCount c p ps = p / ps := by
  rw [timerCount, hn, hd, Nat.mul_one, Nat.one_mul]

/-- So with that tick the valid periods are a range (R137). -/
theorem unit_tick_valid_iff {c : Params} (hn : c.tickNum = 1) (hd : c.tickDen = 1) {p ps : Nat} (w : Nat) (hps : 0 < ps) :
    1 ≤ timerCount c p ps ∧ timerCount c p ps ≤ 2 ^ w ↔ ps ≤ p ∧ p ≤ (2 ^ w + 1) * ps - 1 := by
  have htop : 0 < (2 ^ w + 1) * ps := Nat.mul_pos (Nat.succ_pos _) hps
  have hupper : p / ps ≤ 2 ^ w ↔ p ≤ (2 ^ w + 1) * ps - 1 := by
    rw [← Nat.lt_succ_iff, Nat.div_lt_iff_lt_mul hps, Nat.le_sub_one_iff_lt htop]
  rw [timerCount_unit_tick hn hd, Nat.one_le_div_iff hps, hupper]

/-- Settles O39: the count is a floor of the period, and the reload falls as the count rises. -/
theorem reloadMonotone : Obligations.ReloadMonotone := by
  intro c ps w hps
  have hvalid (p : Nat) : tcCheck c p ps w = none ↔ 1 ≤ timerCount c p ps ∧ timerCount c p ps ≤ 2 ^ w := by
    rw [tcCheck_eq_none_iff, and_iff_right hps.ne']
  refine ⟨fun p₁ p₂ h => ?_, hvalid, fun hn hd => ⟨fun p => (hvalid p).trans (unit_tick_valid_iff hn hd w hps), fun hps2 => ?_⟩⟩
  · have hcount := timerCount_mono c ps h
    refine ⟨hcount, ?_⟩
    rw [reloadExact_eq_sub, reloadExact_eq_sub]
    omega
  · refine ⟨0, 1, Nat.zero_lt_one, ?_⟩
    rw [reloadExact, reloadExact, timerCount_unit_tick hn hd, timerCount_unit_tick hn hd, Nat.zero_div, Nat.div_eq_of_lt hps2]

/-! ## How TCALC ends (R132 to R134) -/

theorem ticks_eq_timerCount (s : State) (t ps : Nat) : Claims.ticks s t ps = timerCount s.params t ps := rfl

theorem prescaleOperand_eq_zero_iff {ps : BitVec 16} : prescaleOperand ps = 0 ↔ ps = 0 := by bv_omega

theorem exec_tcalc_ok {w : Bool} {ps : BitVec 16} {per : Word} (c : Bool) (hs : s.stack = [])
    (h : tcCheck s.params per.toNat ps.toNat (widthOperand w) = none) :
    exec (.tcalc c w ps per) s =
      .next (Claims.done (if c then s.commitReload (2 ^ widthOperand w - timerCount s.params per.toNat ps.toNat) w else s)
        (2 ^ widthOperand w - timerCount s.params per.toNat ps.toNat)) := by
  simp only [exec, execTcalc, h, State.answer_none, toNat_reloadExact, resultOf]
  exact State.command_eq_done hs _ _

theorem exec_tcalc_error {w : Bool} {ps : BitVec 16} {per : Word} {e : Err} (c : Bool) (hs : s.stack = [])
    (h : tcCheck s.params per.toNat ps.toNat (widthOperand w) = some e) :
    exec (.tcalc c w ps per) s = .next (Claims.failed (s.faultIf c) e.code.toNat) := by
  simp only [exec, execTcalc, h, State.answer_some]
  rw [State.command_fg hs, State.raise_eq_failed]

/-- Settles O37: a count that its width represents passes every check. -/
theorem tcalcComputesReload : Obligations.TcalcComputesReload := by
  intro s c w ps per hs hps hlow hhigh
  exact exec_tcalc_ok c hs (tcCheck_eq_none_iff.2 ⟨mt prescaleOperand_eq_zero_iff.1 hps, hlow, hhigh⟩)

/-- Settles O38: the first check that fails gives the code. -/
theorem tcalcRejectsUnrepresentable : Obligations.TcalcRejectsUnrepresentable := by
  intro s c w ps per hs
  simp only [ticks_eq_timerCount, ne_eq, ← prescaleOperand_eq_zero_iff (ps := ps)]
  refine ⟨fun hps => ?_, fun hps hzero => ?_, fun hps hlarge => ?_⟩
  · refine exec_tcalc_error c hs (e := .prescale0) ?_
    rw [tcCheck_eq_ite, if_pos hps]
  · refine exec_tcalc_error c hs (e := .tcHigh) ?_
    rw [tcCheck_eq_ite, if_neg hps, if_pos hzero]
  · refine exec_tcalc_error c hs (e := .tcLow) ?_
    rw [tcCheck_eq_ite, if_neg hps, if_neg (Nat.ne_zero_of_lt hlarge)]
    exact if_pos hlarge

/-! ## What the events write (R135, R180, R197, R230, R247) -/

/-- Settles O48: each enabled event sets its flag beside its latch, and each enabling condition is one field. -/
theorem eventsLatch : Obligations.EventsLatch := by
  intro s
  refine ⟨rfl, rfl, fun x hbusy => ?_, fun x hbusy => ?_, fun b oe fe hrx => ?_, fun b oe fe hrx => ?_, fun b rest hq => ?_, fun hq => ?_⟩
  · rw [exec, execEvAdc, if_pos hbusy]
    rfl
  · rw [exec, execEvAdc, if_neg (by simp [hbusy])]
  · have hp : ¬ s.pending .rx = true := Bool.eq_false_iff.1 hrx
    rw [exec, execEvRx, if_neg hp]
    rfl
  · have hp : s.pending .rx = true := hrx
    rw [exec, execEvRx, if_pos hp]
  · simp only [exec, execEvTxtake, hq]
    rfl
  · simp only [exec, execEvTxtake, hq]

/-! ## Who writes RELOAD and RELW (R30, R133) -/

/-- RELOAD and RELW, which are written together (R133). -/
def State.reloadPair (s : State) : BitVec 16 × Bool := (s.reload, s.relw)

theorem State.reloadPair_eq_iff : t.reloadPair = s.reloadPair ↔ t.reload = s.reload ∧ t.relw = s.relw := Prod.mk_inj

theorem RegWrite.reloadPair_eq (hw : RegWrite s t) : t.reloadPair = s.reloadPair := by
  cases hw <;> rfl

theorem EventWrite.reloadPair_eq (hw : EventWrite s t) : t.reloadPair = s.reloadPair := by
  cases hw <;> rfl

theorem TickWrite.reloadPair_eq (hw : TickWrite s t) : t.reloadPair = s.reloadPair := by
  cases hw <;> rfl

theorem SampleWrite.reloadPair_eq (hw : SampleWrite s t) : t.reloadPair = s.reloadPair := by
  cases hw <;> rfl

theorem LineWrite.reloadPair_eq {b : Byte} (hw : LineWrite s b t) : t.reloadPair = s.reloadPair := by
  cases hw <;> rfl

theorem State.reloadPair_afterToggle (s : State) : s.afterToggle.reloadPair = s.reloadPair := by
  simp [State.reloadPair]

theorem ServiceWrite.reloadPair_eq {x : Src} (hw : ServiceWrite s x t) : t.reloadPair = s.reloadPair := by
  cases hw with
  | tmr u hu => exact hu.reloadPair_eq
  | adc u hu => exact hu.reloadPair_eq
  | edge | bounce => rfl
  | rx u hu => exact hu.reloadPair_eq.trans s.reloadPair_afterToggle

/-- The instruction is a TCALC with C = 1 that passes its checks in `s`, and `t` holds the reload and the width it commits (R133). -/
def CommitsReload (s : State) (i : Instr) (t : State) : Prop :=
  ∃ w ps per, i = .tcalc true w ps per ∧ tcCheck s.params per.toNat ps.toNat (widthOperand w) = none
    ∧ t.reloadPair = (BitVec.ofNat 16 (2 ^ widthOperand w - timerCount s.params per.toNat ps.toNat), w)

theorem CommandWrite.reloadPair_cases {i : Instr} (hw : CommandWrite s i t) : t.reloadPair = s.reloadPair ∨ CommitsReload s i t := by
  cases hw with
  | wrreg reg data r t hr hok => exact .inl (State.writeReg_ok hok).reloadPair_eq
  | tcalcCommit w ps per hc => exact .inr ⟨w, ps, per, rfl, hc, by rw [toNat_reloadExact]; rfl⟩
  | _ => exact .inl rfl

/-- A failing command writes nothing of the pair (R264). -/
theorem CommandEnd.reloadPair_cases {i : Instr} (he : CommandEnd s i t) : t.reloadPair = s.reloadPair ∨ CommitsReload s i t := by
  cases he with
  | failed | faulted | held => exact .inl rfl
  | done u r hw => exact hw.reloadPair_cases

theorem Moves.reloadPair_cases {cycle : Prop} (hm : Moves cycle s t) (hc : ¬ cycle) : t.reloadPair = s.reloadPair
    ∨ ∃ p rest i, s.cmdPort = p :: rest ∧ decodeCommand p = .ok i ∧ CommitsReload s i t := by
  cases hm with
  | powerCycle h => exact absurd h hc
  | service f rest x u hs hn hh hwait hu => exact .inl (State.serve_cases hu).reloadPair_eq
  | command p rest i t hs hp hd he ht => exact ht.reloadPair_cases.imp_right fun h => ⟨p, rest, i, hp, hd, h⟩
  | event p rest i t hp hd ht => exact .inl ht.reloadPair_eq
  | rest | enterHigh | enterLow | leave | malformed => exact .inl rfl

/-- A reload of either width fits RELOAD, the count being at least 1 (R132). -/
theorem toNat_ofNat_reload {n : Nat} (w : Bool) (h : 1 ≤ n) :
    (BitVec.ofNat 16 (2 ^ widthOperand w - n)).toNat = 2 ^ widthOperand w - n := by
  have hle : 2 ^ widthOperand w ≤ 2 ^ 16 := by cases w <;> decide
  rw [BitVec.toNat_ofNat, Nat.mod_eq_of_lt (by omega)]

/-- Settles O21: the one write of the pair is a commit whose checks passed. -/
theorem reloadOnlyByCommit : Obligations.ReloadOnlyByCommit := by
  intro s t hcycle hstep
  rcases (step_moves hstep).reloadPair_cases hcycle with h | ⟨p, rest, i, hp, hd, w, ps, per, rfl, hck, h⟩
  · exact .inl (State.reloadPair_eq_iff.1 h)
  · obtain ⟨hps, hlow, hhigh⟩ := tcCheck_eq_none_iff.1 hck
    obtain ⟨hreload, hrelw⟩ := Prod.ext_iff.1 h
    refine .inr ⟨p, rest, w, ps, per, hp, hd, mt prescaleOperand_eq_zero_iff.2 hps, hlow, hhigh, hrelw, ?_⟩
    exact (congrArg BitVec.toNat hreload).trans (toNat_ofNat_reload w hlow)

end Sys2Proof.Machine

/-! PROOFS. The statements of 42_pwm_mapper: the split of a duty and its result word (R153, R164), the fold (R160), the value checks with
ownership last (R152, R162), and PWMSET, PWMDUTY, PWMANGLE and SVFOLD by that one check. -/

namespace Sys2Proof.Machine

variable {s : State}

/-! ## Channel arithmetic (R151, R153, R164) -/

theorem dutyTop_eq_dutyMax (s : State) : Claims.dutyTop s = dutyMax s.params :=
  Nat.sub_eq_of_eq_add (dutyMax_succ s.params).symm

theorem dutyCount_mono (c : Params) (ps : Nat) {t₁ t₂ : Nat} (h : t₁ ≤ t₂) : dutyCount c t₁ ps ≤ dutyCount c t₂ ps :=
  Nat.div_le_div_right (Nat.mul_le_mul_right _ h)

/-- Settles O47: a representable duty fits its two fields. -/
theorem dutySplitJoins : Obligations.DutySplitJoins := by
  intro s
  refine ⟨fun v hv => ?_, fun v => Nat.div_add_mod' v _, fun t₁ t₂ ps h => dutyCount_mono s.params ps h⟩
  rw [dutyTop_eq_dutyMax] at hv
  exact ⟨State.pwmWrite_dch_toNat hv, State.pwmWrite_dcl_toNat s v, State.duty_pwmWrite hv, rfl⟩

/-- No two fields of the result word overlap where the duty is representable. -/
theorem pwmResult_eq_dutyResult {v : Nat} (h : v ≤ dutyMax s.params) :
    pwmResult s.params v = BitVec.ofNat 32 (Claims.dutyResult s v) := by
  have hcoarse := coarseOf_lt h
  have hfine := fineOf_lt s.params v
  have hscale := fine_le_four s.params
  have hmax := dutyMax_succ s.params
  have hresult : Claims.dutyResult s v = 2 ^ 24 * fineOf s.params v + 2 ^ 16 * coarseOf s.params v + v := rfl
  apply BitVec.eq_of_toNat_eq
  rw [hresult, pwmResult]
  simp only [toNat_append_eq_add, BitVec.toNat_ofNat]
  omega

/-! ## The fold (R160) -/

/-- The truncated remainder of a negative that is no multiple of 181 is the true modulus less 181, so 180 more is one below the modulus. -/
theorem fold_eq_ite (i : Int) :
    fold i = if 0 ≤ i + 90 ∨ 181 ∣ i + 90 then ((i + 90) % 181).toNat else ((i + 90) % 181 - 1).toNat := by
  simp only [fold, Int.tmod_eq_emod]
  split_ifs <;> omega

/-- Settles O45: each clause is one side of the sign of the truncated remainder. -/
theorem foldOfInput : Obligations.FoldOfInput := by
  intro i
  refine ⟨fold_le i, fun hpos => ?_, fun hneg hmul => ?_, fun hneg hmul => ?_⟩
  · rw [fold_eq_ite, if_pos (.inl hpos)]
    omega
  · rw [fold_eq_ite, if_pos (.inr (Int.dvd_of_emod_eq_zero hmul)), hmul]
    rfl
  · rw [fold_eq_ite, if_neg (by omega)]
    omega

/-! ## The checks of a duty value, ownership last (R152, R162) -/

/-- What every PWM command checks of its duty value: `pwm_check`, then ownership where it writes. -/
def State.dutyCheck (s : State) (writes : Bool) (v : Nat) : Option Err := s.pwmCheck v <|> (if writes then s.pwmOwned else none)

theorem State.ownsPwm_iff_not_pwmFree (s : State) : s.mode.ownsPwm = true ↔ ¬ Claims.pwmFree s := by
  refine ⟨fun ho hfree => ?_, State.ownsPwm_of_not_pwmFree⟩
  unfold Claims.pwmFree at hfree
  cases hm : s.mode <;> simp_all [Mode.ownsPwm]

/-- `pwm_check` before other checks, its bounds in the claims' words. -/
theorem State.pwmCheck_orElse (s : State) (v : Nat) (o : Option Err) :
    (s.pwmCheck v <|> o) = if Claims.dutyTop s < v then some .pwmRange else if Claims.period s < v then some .pwmPeriod else o := by
  have hperiod : Claims.period s = s.periodScaled := rfl
  rw [State.pwmCheck, dutyTop_eq_dutyMax, hperiod, check_orElse, check]
  split_ifs <;> rfl

theorem State.dutyCheck_eq_ite (s : State) (writes : Bool) (v : Nat) :
    s.dutyCheck writes v = if Claims.dutyTop s < v then some .pwmRange else if Claims.period s < v then some .pwmPeriod
      else if writes ∧ ¬ Claims.pwmFree s then some .owner else none := by
  have howner : (if writes then s.pwmOwned else none) = if writes ∧ ¬ Claims.pwmFree s then some Err.owner else none := by
    rw [State.pwmOwned, check, ite_and]
    simp only [State.ownsPwm_iff_not_pwmFree]
  rw [State.dutyCheck, State.pwmCheck_orElse, howner]

/-- It gives the code of the first check that fails in the claims' words. -/
theorem State.dutyCheck_map_code (s : State) (writes : Bool) (v : Nat) :
    (s.dutyCheck writes v).map (·.code.toNat) = Claims.dutyError s writes v := by
  rw [State.dutyCheck_eq_ite, Claims.dutyError]
  split_ifs <;> rfl

theorem State.dutyCheck_eq_none {writes : Bool} {v : Nat} (h : Claims.dutyAccepted s v) (hfree : writes = true → Claims.pwmFree s) :
    s.dutyCheck writes v = none := by
  obtain ⟨htop, hperiod⟩ := h
  rw [State.dutyCheck_eq_ite, if_neg (Nat.not_lt.2 htop), if_neg (Nat.not_lt.2 hperiod), if_neg fun ⟨hw, ho⟩ => ho (hfree hw)]

/-- A command in FG whose duty value passes them ends in success. -/
theorem State.command_dutyCheck_eq_done {writes : Bool} {v : Nat} (hs : s.stack = []) (h : Claims.dutyAccepted s v)
    (hfree : writes = true → Claims.pwmFree s) (after : State) (n : Nat) :
    s.command (s.answer (s.dutyCheck writes v) after (BitVec.ofNat 32 n)) = .next (Claims.done after n) := by
  rw [State.dutyCheck_eq_none h hfree]
  exact State.command_eq_done hs after n

/-- The same where the result is the split of the duty value (R164). -/
theorem State.command_dutyCheck_eq_done_dutyResult {writes : Bool} {v : Nat} (hs : s.stack = []) (h : Claims.dutyAccepted s v)
    (hfree : writes = true → Claims.pwmFree s) (after : State) :
    s.command (s.answer (s.dutyCheck writes v) after (pwmResult s.params v)) = .next (Claims.done after (Claims.dutyResult s v)) := by
  rw [pwmResult_eq_dutyResult (dutyTop_eq_dutyMax s ▸ h.1)]
  exact State.command_dutyCheck_eq_done hs h hfree after _

/-- A command in FG whose duty value fails one of them fails with its code, whatever it would have written. -/
theorem State.command_dutyCheck_eq_failed {writes : Bool} {v e : Nat} (hs : s.stack = []) (h : Claims.dutyError s writes v = some e)
    (after : State) (r : Word) : s.command (s.answer (s.dutyCheck writes v) after r) = .next (Claims.failed s e) := by
  rw [← State.dutyCheck_map_code] at h
  obtain ⟨x, hx, rfl⟩ := Option.map_eq_some_iff.1 h
  rw [hx]
  exact State.command_eq_failed hs x

/-! ## The four commands past their own checks

Each hands its duty value to the one check, and writes where that passes. -/

theorem exec_pwmset (s : State) (val : Word) :
    exec (.pwmset val) s = s.command (s.answer (s.dutyCheck true val.toNat) (s.pwmWrite val.toNat) (pwmResult s.params val.toNat)) := rfl

variable {ps : BitVec 16}

theorem exec_pwmduty_prescale0 (hs : s.stack = []) (hps : ps = 0) (c : Bool) (val : Word) :
    exec (.pwmduty c ps val) s = .next (Claims.failed s 0x03) := by
  rw [exec, execPwmduty, check_pos (prescaleOperand_eq_zero_iff.2 hps)]
  exact State.command_eq_failed hs .prescale0

theorem exec_pwmduty (hps : ps ≠ 0) (s : State) (c : Bool) (val : Word) {v : Nat} (hv : Claims.ticks s val.toNat ps.toNat = v) :
    exec (.pwmduty c ps val) s = s.command (s.answer (s.dutyCheck c v) (if c then s.pwmWrite v else s) (pwmResult s.params v)) := by
  rw [exec, execPwmduty, check_neg (mt prescaleOperand_eq_zero_iff.1 hps), ← hv]
  rfl

theorem exec_pwmangle_prescale0 (hs : s.stack = []) (hps : ps = 0) (c : Bool) (val : Word) :
    exec (.pwmangle c ps val) s = .next (Claims.failed s 0x03) := by
  rw [exec, execPwmangle, check_pos (prescaleOperand_eq_zero_iff.2 hps)]
  exact State.command_eq_failed hs .prescale0

theorem exec_pwmangle_angle (hs : s.stack = []) (hps : ps ≠ 0) (c : Bool) {val : Word} (ha : 180 < val.toNat) :
    exec (.pwmangle c ps val) s = .next (Claims.failed s 0x08) := by
  rw [exec, execPwmangle, check_neg (mt prescaleOperand_eq_zero_iff.1 hps), check_pos ha]
  exact State.command_eq_failed hs .angle

theorem exec_pwmangle (hps : ps ≠ 0) (s : State) (c : Bool) {val : Word} (ha : val.toNat ≤ 180) {v : Nat}
    (hv : Claims.ticks s (450 + val.toNat * 2000 / 180) ps.toNat = v) :
    exec (.pwmangle c ps val) s =
      s.command (s.answer (s.dutyCheck c v) (if c then s.servoSet v val.toNat else s) (pwmResult s.params v)) := by
  rw [exec, execPwmangle, check_neg (mt prescaleOperand_eq_zero_iff.1 hps), check_neg (Nat.not_lt.2 ha), ← hv]
  rfl

theorem exec_svfold_prescale0 (hs : s.stack = []) (hps : ps = 0) (val : Word) :
    exec (.svfold true ps val) s = .next (Claims.failed s 0x03) := by
  rw [exec, execSvfold, check_pos (prescaleOperand_eq_zero_iff.2 hps)]
  exact State.command_eq_failed hs .prescale0

theorem exec_svfold (hps : ps ≠ 0) (s : State) (val : Word) {v : Nat}
    (hv : Claims.ticks s (450 + fold val.toInt * 2000 / 180) ps.toNat = v) :
    exec (.svfold true ps val) s =
      s.command (s.answer (s.dutyCheck true v) (s.servoSet v (fold val.toInt)) (BitVec.ofNat 32 (fold val.toInt))) := by
  rw [exec, execSvfold, check_neg (mt prescaleOperand_eq_zero_iff.1 hps), ← hv]
  rfl

/-- Settles O41: the duty value is the operand. -/
theorem pwmsetWritesDuty : Obligations.PwmsetWritesDuty := by
  intro s val hs hacc hfree
  rw [exec_pwmset]
  exact State.command_dutyCheck_eq_done_dutyResult hs hacc (fun _ => hfree) _

/-- Settles O42: the duty value is the count of the high time. -/
theorem pwmdutyComputesDuty : Obligations.PwmdutyComputesDuty := by
  intro s c ps val hs hps hacc hfree
  rw [exec_pwmduty hps s c val rfl]
  exact State.command_dutyCheck_eq_done_dutyResult hs hacc hfree _

/-- Settles O43: the duty value is the count of the angle's pulse. -/
theorem pwmangleComputesDuty : Obligations.PwmangleComputesDuty := by
  intro s c ps val hs hps ha hacc hfree
  rw [exec_pwmangle hps s c ha rfl]
  exact State.command_dutyCheck_eq_done_dutyResult hs hacc hfree _

/-- Settles O44: with C = 0 nothing is checked; with C = 1 it is the servo write of the folded angle. -/
theorem svfoldFoldsInput : Obligations.SvfoldFoldsInput := by
  intro s ps val hs
  refine ⟨State.command_eq_done hs s _, fun hps hacc hfree => ?_⟩
  rw [exec_svfold hps s val rfl]
  exact State.command_dutyCheck_eq_done hs hacc (fun _ => hfree) _ _

/-- Settles O46: a command's own checks come first, and the one check of its duty value gives the rest of the order. -/
theorem pwmErrorsInOrder : Obligations.PwmErrorsInOrder := by
  intro s c ps val hs
  refine ⟨fun hps => ⟨exec_pwmduty_prescale0 hs hps c val, exec_pwmangle_prescale0 hs hps c val, exec_svfold_prescale0 hs hps val⟩,
    fun hps ha => exec_pwmangle_angle hs hps c ha, fun e => ⟨fun he => ?_, fun hps he => ?_, fun hps ha he => ?_, fun hps he => ?_⟩⟩
  · rw [exec_pwmset]
    exact State.command_dutyCheck_eq_failed hs he _ _
  · rw [exec_pwmduty hps s c val rfl]
    exact State.command_dutyCheck_eq_failed hs he _ _
  · rw [exec_pwmangle hps s c ha rfl]
    exact State.command_dutyCheck_eq_failed hs he _ _
  · rw [exec_svfold hps s val rfl]
    exact State.command_dutyCheck_eq_failed hs he _ _

end Sys2Proof.Machine

/-! PROOFS. The statements of 43_debounce and the TMR service that ticks the debouncer (R136): each service as one write of the state per
case of the window (R181 to R183), and the induction over the ticks of an open window (R185). -/

namespace Sys2Proof.Machine

variable {s t : State} {k : Nat}

/-! ## The two services by the case of the window (R181, R182) -/

theorem State.serviceBtn_eq_ite (s : State) :
    s.serviceBtn = if s.armed then { s with iflags := s.iflags &&& 0b1011#4 }
      else { s with armed := true, dbncnt := s.dbncfg, iflags := s.iflags &&& 0b1011#4 } := by
  rw [State.serviceBtn]
  split <;> rfl

/-- What every TMR service writes, whatever the window (R136). -/
def State.timerServed (s : State) : State :=
  { s with tmrload := s.tmrload ++ [(s.reload, s.relw)], tmrcnt := s.tmrcnt + 1, iflags := s.iflags &&& 0b1110#4 }

/-- A tick in IDLE does nothing, the last tick of an open window presses and closes it, and an earlier one shortens it (R182, R183). -/
theorem State.serviceTmr_eq_ite (s : State) :
    s.serviceTmr = if s.armed then
        if s.dbncnt.toNat ≤ 1 then { s.timerServed with armed := false, dbncnt := 0, btncnt := s.btncnt + 1, press := s.press ++ [()] }
        else { s.timerServed with dbncnt := s.dbncnt - 1 }
      else s.timerServed := by
  rw [State.serviceTmr, State.debounceTick, State.closeWindow, State.pressed,
    apply_ite (State.clearPending · .tmr), apply_ite (State.clearPending · .tmr)]
  rfl

theorem State.serviceTmr_eq_of_idle (h : s.armed = false) : s.serviceTmr = s.timerServed := by
  rw [State.serviceTmr_eq_ite, if_neg (Bool.eq_false_iff.1 h)]

theorem State.serviceTmr_eq_of_dbncnt_le_one (h : s.armed = true) (hn : s.dbncnt.toNat ≤ 1) : s.serviceTmr =
    { s.timerServed with armed := false, dbncnt := 0, btncnt := s.btncnt + 1, press := s.press ++ [()] } := by
  rw [State.serviceTmr_eq_ite, if_pos h, if_pos hn]

theorem State.serviceTmr_eq_of_two_le_dbncnt (h : s.armed = true) (hn : 2 ≤ s.dbncnt.toNat) :
    s.serviceTmr = { s.timerServed with dbncnt := s.dbncnt - 1 } := by
  rw [State.serviceTmr_eq_ite, if_pos h, if_neg (Nat.not_le.2 hn)]

/-- A window of two ticks or more has a tick to lose. -/
theorem dbncnt_toNat_sub_one_add_one {n : BitVec 16} (hn : 2 ≤ n.toNat) : (n - 1).toNat + 1 = n.toNat := by
  bv_omega

/-- Settles O40: the three clauses of the window are the three ways a tick can go. -/
theorem tmrServiceTicks : Obligations.TmrServiceTicks := by
  intro s
  refine ⟨s.serviceTmr, rfl, ?_⟩
  cases h : s.armed with
  | false =>
    rw [State.serviceTmr_eq_of_idle h]
    exact ⟨rfl, rfl, rfl, fun _ => ⟨h, rfl, rfl, rfl⟩, nofun, nofun, rfl⟩
  | true =>
    rcases Nat.lt_or_ge 1 s.dbncnt.toNat with hn | hn
    · rw [State.serviceTmr_eq_of_two_le_dbncnt h hn]
      exact ⟨rfl, rfl, rfl, nofun, fun _ hle => absurd hle (Nat.not_le.2 hn),
        fun _ _ => ⟨h, dbncnt_toNat_sub_one_add_one hn, rfl, rfl⟩, rfl⟩
    · rw [State.serviceTmr_eq_of_dbncnt_le_one h hn]
      exact ⟨rfl, rfl, rfl, nofun, fun _ _ => ⟨rfl, rfl, rfl, rfl⟩, fun _ hlt => absurd hn (Nat.not_le.2 hlt), rfl⟩

/-! ## The ticks of an open window (R185) -/

/-- `t` is `s` with its open window `k` ticks shorter and nothing pressed. -/
structure State.Waited (s : State) (k : Nat) (t : State) : Prop where
  armed : t.armed = true
  dbncnt : t.dbncnt.toNat + k = s.dbncnt.toNat
  btncnt : t.btncnt = s.btncnt
  press : t.press = s.press

/-- A tick that is not the last one. -/
theorem State.Waited.serviceTmr (h : s.Waited k t) (hk : k + 1 < s.dbncnt.toNat) : s.Waited (k + 1) t.serviceTmr := by
  obtain ⟨harmed, hcnt, hbtn, hpress⟩ := h
  have hn : 2 ≤ t.dbncnt.toNat := by omega
  have hless := dbncnt_toNat_sub_one_add_one hn
  rw [State.serviceTmr_eq_of_two_le_dbncnt harmed hn]
  exact ⟨harmed, show (t.dbncnt - 1).toNat + (k + 1) = s.dbncnt.toNat by omega, hbtn, hpress⟩

/-- The window stays open through every tick before its last. -/
theorem State.waited_iterate_serviceTmr (h : s.armed = true) (hk : k < max s.dbncnt.toNat 1) : s.Waited k (State.serviceTmr^[k] s) := by
  induction k with
  | zero => exact ⟨h, rfl, rfl, rfl⟩
  | succ k ih =>
    rw [Function.iterate_succ_apply']
    exact (ih (Nat.lt_of_succ_lt hk)).serviceTmr (by omega)

/-- Settles O49: before its last tick the window has only grown shorter, and the last tick is the one that presses. -/
theorem onePressPerWindow : Obligations.OnePressPerWindow := by
  intro s k
  refine ⟨congrArg Except.ok s.serviceBtn_eq_ite, fun h hk => ?_, fun h hk => ?_⟩
  · have hwait := State.waited_iterate_serviceTmr h hk
    exact ⟨hwait.armed, hwait.press⟩
  · obtain ⟨j, rfl⟩ : ∃ j, k = j + 1 := ⟨k - 1, by omega⟩
    obtain ⟨harmed, hcnt, hbtn, hpress⟩ := State.waited_iterate_serviceTmr h (k := j) (by omega)
    rw [Function.iterate_succ_apply', State.serviceTmr_eq_of_dbncnt_le_one harmed (by omega)]
    exact ⟨rfl, congrArg (· ++ [()]) hpress, congrArg (· + 1) hbtn⟩

end Sys2Proof.Machine

/-! PROOFS. The statements of 44_sample_filter: the ADC service as the active mode's mapping of the filtered state (R199 to R201), the mapping of
each mode (R204 to R216), the runs of samples that keep a direction (R211) or rest in a zone (R212), and BINOUT (R219). -/

namespace Sys2Proof.Machine

variable {s t : State}

/-! ## The filter step and OUT[3:0] (R200, R204) -/

theorem nextSmoothed_lt (s : State) : Claims.nextSmoothed s < 1024 := by
  unfold Claims.nextSmoothed
  omega

theorem toNat_ofNat_nextSmoothed (s : State) : (BitVec.ofNat 10 (Claims.nextSmoothed s)).toNat = Claims.nextSmoothed s :=
  Nat.mod_eq_of_lt (nextSmoothed_lt s)

theorem lowNibble_eq_append (o : Byte) {v : Nat} (h : v < 16) : Claims.lowNibble o v = o.extractLsb' 4 4 ++ BitVec.ofNat 4 v := by
  have hhigh : o &&& 0xF0 = o.extractLsb' 4 4 ++ 0#4 := by revert o; decide
  have hlow : BitVec.ofNat 8 v = 0#4 ++ BitVec.ofNat 4 v := by
    apply BitVec.eq_of_toNat_eq
    simp only [toNat_append_eq_add, BitVec.toNat_ofNat]
    omega
  rw [Claims.lowNibble, hhigh, hlow, BitVec.or_append, BitVec.or_zero, BitVec.zero_or]

theorem State.out4_eq_lowNibble (s : State) {v : Nat} (h : v < 16) : s.out4 v = { s with out := Claims.lowNibble s.out v } := by
  rw [lowNibble_eq_append s.out h]
  rfl

/-- The four outputs show the number given to them. -/
theorem toNat_lowNibble_mod (o : Byte) {v : Nat} (h : v < 16) : (Claims.lowNibble o v).toNat % 16 = v := by
  rw [lowNibble_eq_append o h, toNat_append_eq_add, BitVec.toNat_ofNat]
  omega

/-! ## The checks inside a service (R214, R215, R217) -/

theorem State.pwmCheck_eq_ite (s : State) (v : Nat) :
    s.pwmCheck v = if Claims.dutyTop s < v then some .pwmRange else if Claims.period s < v then some .pwmPeriod else none := by
  rw [← State.pwmCheck_orElse]
  cases s.pwmCheck v <;> rfl

theorem State.mapAngle_eq_ite (s : State) (sm : BitVec 10) {a v : Nat} (ha : Config.pMapAngle sm = a)
    (hv : Claims.ticks s (450 + a * 2000 / 180) s.pwps.toNat = v) :
    s.mapAngle sm = if 180 < a then s.record .angle else if Claims.dutyTop s < v then s.record .pwmRange
      else if Claims.period s < v then s.record .pwmPeriod else s.servoSet v a := by
  have hservo : servoValue s.params a s.pwps.toNat = v := hv
  simp only [State.mapAngle, ha, hservo, check_orElse, State.pwmCheck_eq_ite]
  split_ifs <;> rfl

theorem State.mapBright_eq_ite (s : State) (sm : BitVec 10) {v : Nat} (hv : Config.pMapBright sm (Claims.period s) (Claims.dutyTop s) = v) :
    s.mapBright sm = if Claims.dutyTop s < v then s.record .pwmRange else if Claims.period s < v then s.record .pwmPeriod
      else s.pwmWrite v := by
  have hbright : Config.pMapBright sm s.periodScaled (dutyMax s.params) = v := by rw [← dutyTop_eq_dutyMax]; exact hv
  simp only [State.mapBright, hbright, State.pwmCheck_eq_ite]
  split_ifs <;> rfl

/-! ## The service as one mapping of the filtered state (R199, R201) -/

/-- No mapping reads or writes a pending flag, so the flag may as well be cleared first. -/
theorem State.clearPending_mapSample (s : State) (x : Src) (raw prev sm : BitVec 10) :
    (s.mapSample raw prev sm).clearPending x = (s.clearPending x).mapSample raw prev sm := by
  simp only [State.mapSample, State.clearPending_mode]
  cases s.mode with
  | angleSample =>
    simp only [State.mapAngle_eq_ite _ sm rfl rfl, apply_ite (State.clearPending · x)]
    rfl
  | brightSample =>
    simp only [State.mapBright_eq_ite _ sm rfl, apply_ite (State.clearPending · x)]
    rfl
  | zoneBlink =>
    simp only [State.mapZone, apply_ite (State.clearPending · x)]
    rfl
  | _ => rfl

theorem State.serviceAdc_eq_mapSample (s : State) :
    s.serviceAdc = (Claims.filtered s).mapSample s.adcdata s.sflast (BitVec.ofNat 10 (Claims.nextSmoothed s)) :=
  State.clearPending_mapSample ..

@[simp] theorem filtered_mode (s : State) : (Claims.filtered s).mode = s.mode := rfl

/-! ## What any mapping may write (R202, R218) -/

theorem SampleWrite.frame (hw : SampleWrite s t) :
    t = { s with errflags := t.errflags, dch := t.dch, dcl := t.dcl, svang := t.svang, out := t.out, inc := t.inc
                 zone := t.zone, zcnt := t.zcnt, blink := t.blink, mstate := t.mstate } := by
  cases hw <;> rfl

theorem SampleWrite.out_eq (hw : SampleWrite s t) (ho : s.mode.ownsLed = false) : t.out = s.out := by
  cases hw with
  | leds v h => simp [h] at ho
  | parity _ _ h | zoneToggle _ _ _ _ _ h => simp [h, Mode.ownsLed] at ho
  | marquee o h => rcases h with h | h <;> simp [h, Mode.ownsLed] at ho
  | _ => rfl

theorem SampleWrite.pwm_eq (hw : SampleWrite s t) (ho : s.mode.ownsPwm = false) : t.dch = s.dch ∧ t.dcl = s.dcl ∧ t.svang = s.svang := by
  cases hw with
  | zoneToggle _ _ _ _ _ h | angle _ _ _ _ h | bright _ _ h => simp [h, Mode.ownsPwm] at ho
  | _ => exact ⟨rfl, rfl, rfl⟩

/-- Settles O50: the service is a mapping of the filtered state, so the frame and the ownership of every mapping hold of it. -/
theorem adcServiceFilters : Obligations.AdcServiceFilters := by
  intro s
  have hw := State.mapSample_cases (Claims.filtered s) s.adcdata s.sflast (BitVec.ofNat 10 (Claims.nextSmoothed s))
  rw [← State.serviceAdc_eq_mapSample] at hw
  have hframe := hw.frame
  refine ⟨s.serviceAdc, rfl, congrArg State.sflast hframe, ?_, congrArg State.iflags hframe, hframe, ?_, ?_, ?_⟩
  · exact (congrArg (·.sfsmooth.toNat) hframe).trans (toNat_ofNat_nextSmoothed s)
  · refine or_iff_not_imp_left.2 fun h => hw.pwm_eq (Bool.eq_false_iff.2 ?_)
    exact mt (State.ownsPwm_iff_not_pwmFree s).1 h
  · exact or_iff_not_imp_left.2 fun h => hw.out_eq (State.ownsLed_of_ledFree (s := s) (not_not.1 h))
  · rw [State.serviceAdc_eq_mapSample]
    rintro (h | h | h) <;> rw [State.mapSample, filtered_mode, h]

/-! ## The modes that show a state (R205, R207, R208) -/

/-- A mode whose mapping is `out4` of a number below 16. -/
theorem State.serviceAdc_eq_lowNibble {v : Nat} (hv : v < 16)
    (h : (Claims.filtered s).mapSample s.adcdata s.sflast (BitVec.ofNat 10 (Claims.nextSmoothed s)) = (Claims.filtered s).out4 v) :
    s.serviceAdc = { Claims.filtered s with out := Claims.lowNibble s.out v } := by
  rw [State.serviceAdc_eq_mapSample, h, State.out4_eq_lowNibble _ hv]
  rfl

/-- Settles O51: a smoothed value of 10 bits needs no clamp in BINARY, and the others clamp it. -/
theorem quantizersDisplayState : Obligations.QuantizersDisplayState := by
  intro s
  have hsm := nextSmoothed_lt s
  refine ⟨fun h => congrArg Except.ok (State.serviceAdc_eq_lowNibble (by omega) ?_),
    fun h => congrArg Except.ok (State.serviceAdc_eq_lowNibble (by omega) ?_),
    fun h => congrArg Except.ok (State.serviceAdc_eq_lowNibble (by omega) ?_)⟩
  all_goals rw [State.mapSample, filtered_mode, h, toNat_ofNat_nextSmoothed]
  · exact congrArg (State.out4 _) (Nat.min_eq_left (by omega))
  · rfl
  · rfl

/-! ## PARITY_DIR (R208, R211) -/

theorem parityInc_eq_ite (inc : Bool) (raw prev : Nat) :
    parityInc inc raw prev = if prev + 5 < raw then true else if raw + 5 < prev then false else inc := by
  by_cases hup : prev + 5 < raw
  · rw [parityInc, if_pos hup, if_pos (by omega), decide_eq_true (by omega)]
  · by_cases hdown : raw + 5 < prev
    · rw [parityInc, if_neg hup, if_pos hdown, if_pos (by omega), decide_eq_false (by omega)]
    · rw [parityInc, if_neg hup, if_neg hdown, if_neg (by omega)]

theorem parityDisplay_lt (s : State) (inc : Bool) : 2 * (Claims.nextSmoothed s / 128) + inc.toNat < 16 := by
  have hsm := nextSmoothed_lt s
  have hinc := inc.toNat_le
  omega

theorem State.serviceAdc_of_parityDir (h : s.mode = .parityDir) {inc : Bool} (hinc : parityInc s.inc s.adcdata.toNat s.sflast.toNat = inc) :
    s.serviceAdc = { Claims.filtered s with
      inc := inc, out := Claims.lowNibble s.out (2 * (Claims.nextSmoothed s / 128) + inc.toNat) } := by
  have hstate : min (Claims.nextSmoothed s / 128) 7 = Claims.nextSmoothed s / 128 := by have := nextSmoothed_lt s; omega
  have hinc' : parityInc (Claims.filtered s).inc s.adcdata.toNat s.sflast.toNat = inc := hinc
  rw [State.serviceAdc_eq_mapSample, State.mapSample, filtered_mode, h]
  simp only [State.mapParity, toNat_ofNat_nextSmoothed, hstate, hinc']
  rw [State.out4_eq_lowNibble _ (parityDisplay_lt s inc)]
  rfl

/-- Settles O52: the band of 5 is the two comparisons of the statement. -/
theorem parityShowsDirection : Obligations.ParityShowsDirection := by
  intro s h
  refine ⟨_, fun hup => ?_, fun hdown => ?_, fun hup hdown => ?_, congrArg Except.ok (State.serviceAdc_of_parityDir h rfl)⟩
  · rw [parityInc_eq_ite, if_pos hup]
  · rw [parityInc_eq_ite, if_neg (by omega), if_pos hdown]
  · rw [parityInc_eq_ite, if_neg (Nat.not_lt.2 hup), if_neg (Nat.not_lt.2 hdown)]

/-- A service in PARITY_DIR stays there, remembers its sample, and displays a number with the parity of the direction. -/
theorem State.sampled_of_parityDir (h : s.mode = .parityDir) (x : BitVec 10) :
    (s.sampled x).mode = .parityDir ∧ (s.sampled x).sflast = x
      ∧ (s.sampled x).display % 2 = (parityInc s.inc x.toNat s.sflast.toNat).toNat := by
  have hlow := toNat_lowNibble_mod s.out (parityDisplay_lt { s with adcdata := x } (parityInc s.inc x.toNat s.sflast.toNat))
  have hbit := (parityInc s.inc x.toNat s.sflast.toNat).toNat_le
  rw [State.sampled, State.serviceAdc_of_parityDir (s := { s with adcdata := x }) h rfl]
  refine ⟨h, rfl, ?_⟩
  rw [State.display, hlow]
  omega

/-- What one step of a run does to the display, the run's last step has done. -/
theorem State.display_foldl_sampled {R : BitVec 10 → BitVec 10 → Prop} {n : Nat}
    (hstep : ∀ (s : State) (x : BitVec 10), s.mode = .parityDir → R s.sflast x → (s.sampled x).display % 2 = n)
    (s : State) (x : BitVec 10) (xs : List (BitVec 10)) (h : s.mode = .parityDir) (hrun : (s.sflast :: x :: xs).IsChain R) :
    ((x :: xs).foldl State.sampled s).display % 2 = n := by
  obtain ⟨hx, hxs⟩ := List.isChain_cons_cons.1 hrun
  induction xs generalizing s x with
  | nil => exact hstep s x h hx
  | cons y ys ih =>
    obtain ⟨hmode, hlast, -⟩ := State.sampled_of_parityDir h x
    obtain ⟨hy, hys⟩ := List.isChain_cons_cons.1 hxs
    rw [← hlast] at hxs hy
    exact ih (s.sampled x) y hmode hxs hy hys

/-- Settles O53: outside the band the direction of a sample is the parity of its display, whatever the display before. -/
theorem parityRunsKeepDirection : Obligations.ParityRunsKeepDirection := by
  intro s x xs h
  refine ⟨State.display_foldl_sampled (fun u y hu hup => ?_) s x xs h, State.display_foldl_sampled (fun u y hu hdown => ?_) s x xs h⟩
  all_goals obtain ⟨-, -, hdisplay⟩ := State.sampled_of_parityDir hu y
  · rw [hdisplay, parityInc_eq_ite, if_pos hup]
    rfl
  · rw [hdisplay, parityInc_eq_ite, if_neg (by omega), if_pos hdown]
    rfl

/-! ## ZONE_BLINK (R209, R210, R212) -/

/-- The in-zone count of the next ADC service (R209). -/
def State.nextCount (s : State) : Nat := (if s.zone.toNat = Claims.nextSmoothed s / 256 then s.zcnt.toNat else 0) + 1

theorem extract_append_not_eq_or (o : Byte) (b : Bool) : o.extractLsb' 1 7 ++ BitVec.ofBool (!b) = (o &&& 0xFE) ||| (if b then 0 else 1) := by
  revert o b
  decide

/-- The block with its blink state toggled: BLINK, OUT[0] and the duty together (R209). -/
def State.toggled (s : State) : State :=
  { Claims.withDuty s (if s.blink then 0 else min (Claims.period s) (Claims.dutyTop s)) with
      zcnt := 0, blink := !s.blink, out := (s.out &&& 0xFE) ||| (if s.blink then 0 else 1) }

theorem State.serviceAdc_of_zoneBlink (h : s.mode = .zoneBlink) :
    s.serviceAdc = if 50 * (Claims.nextSmoothed s / 256 + 1) ≤ s.nextCount
      then { (Claims.filtered s).toggled with zone := BitVec.ofNat 2 (Claims.nextSmoothed s / 256) }
      else { Claims.filtered s with zone := BitVec.ofNat 2 (Claims.nextSmoothed s / 256), zcnt := BitVec.ofNat 8 s.nextCount } := by
  rw [State.serviceAdc_eq_mapSample, State.mapSample, filtered_mode, h]
  simp only [State.mapZone, toNat_ofNat_nextSmoothed, State.toggled, ← extract_append_not_eq_or, dutyTop_eq_dutyMax]
  rfl

/-- The service with the last sample again, ZONE being that sample's zone: the smoothed value is the sample and the zone stays. -/
theorem State.sampled_of_rest {x : BitVec 10} (h : s.mode = .zoneBlink) (hlast : s.sflast = x) (hzone : s.zone.toNat = x.toNat / 256) :
    s.sampled x = if 50 * (x.toNat / 256 + 1) ≤ s.zcnt.toNat + 1 then (Claims.filtered { s with adcdata := x }).toggled
      else { Claims.filtered { s with adcdata := x } with zcnt := BitVec.ofNat 8 (s.zcnt.toNat + 1) } := by
  have hsmooth : Claims.nextSmoothed { s with adcdata := x } = x.toNat := by
    simp only [Claims.nextSmoothed, hlast]
    omega
  have hcount : State.nextCount { s with adcdata := x } = s.zcnt.toNat + 1 := by
    rw [State.nextCount, hsmooth, if_pos hzone]
  have hstay : BitVec.ofNat 2 (x.toNat / 256) = s.zone := by rw [← hzone, BitVec.ofNat_toNat, BitVec.setWidth_eq]
  rw [State.sampled, State.serviceAdc_of_zoneBlink (s := { s with adcdata := x }) h, hsmooth, hcount, hstay]
  rfl

/-- The block after `k` services at rest in a zone: only the latch, the filter, the flag and the in-zone count have moved. -/
def State.rested (s : State) (k : Nat) (sample smooth : BitVec 10) (flags : BitVec 4) : State :=
  { s with adcdata := sample, sfsmooth := smooth, iflags := flags, zcnt := BitVec.ofNat 8 k }

theorem State.toNat_zcnt_rested (s : State) {k : Nat} (hk : k < 256) (a m : BitVec 10) (f : BitVec 4) :
    (s.rested k a m f).zcnt.toNat = k := Nat.mod_eq_of_lt hk

/-- At rest the block only counts, through every service before the threshold's. -/
theorem State.iterate_sampled_eq_rested {x : BitVec 10} {k : Nat} (h : s.mode = .zoneBlink) (hlast : s.sflast = x)
    (hzone : s.zone.toNat = x.toNat / 256) (hcnt : s.zcnt = 0) (hk : k < 50 * (x.toNat / 256 + 1)) :
    ∃ a m f, (State.sampled · x)^[k] s = s.rested k a m f := by
  induction k with
  | zero => exact ⟨s.adcdata, s.sfsmooth, s.iflags, congrArg (fun n => { s with zcnt := n }) hcnt⟩
  | succ k ih =>
    obtain ⟨a, m, f, ht⟩ := ih (Nat.lt_of_succ_lt hk)
    rw [Function.iterate_succ_apply', ht, State.sampled_of_rest (s := s.rested k a m f) h hlast hzone,
      State.toNat_zcnt_rested s (by omega), if_neg (Nat.not_le.2 hk)]
    subst hlast
    exact ⟨s.sflast, _, _, rfl⟩

theorem State.getLsbD_out_toggled (s : State) : s.toggled.out.getLsbD 0 = !s.blink := by
  simp only [State.toggled]
  cases s.blink <;> simp

theorem State.duty_toggled (s : State) : s.toggled.duty = if s.blink then 0 else min (Claims.period s) (Claims.dutyTop s) := by
  refine State.duty_pwmWrite (s := s) ?_
  rw [← dutyTop_eq_dutyMax]
  split_ifs
  · exact Nat.zero_le _
  · exact Nat.min_le_right _ _

/-- Settles O54: before the threshold's service the block has only counted, and that service toggles it. -/
theorem zoneBlinkPeriod : Obligations.ZoneBlinkPeriod := by
  refine ⟨fun s h => congrArg Except.ok (State.serviceAdc_of_zoneBlink h), fun s x k h hlast hzone hcnt => ⟨fun hk => ?_, fun hk => ?_⟩⟩
  · obtain ⟨a, m, f, ht⟩ := State.iterate_sampled_eq_rested h hlast hzone hcnt hk
    rw [ht]
    exact ⟨rfl, rfl, rfl, rfl⟩
  · obtain ⟨j, rfl⟩ : ∃ j, k = j + 1 := ⟨k - 1, by omega⟩
    obtain ⟨a, m, f, ht⟩ := State.iterate_sampled_eq_rested h hlast hzone hcnt (k := j) (by omega)
    rw [Function.iterate_succ_apply', ht, State.sampled_of_rest (s := s.rested j a m f) h hlast hzone,
      State.toNat_zcnt_rested s (by omega), if_pos hk.ge]
    exact ⟨rfl, State.getLsbD_out_toggled _, rfl, State.duty_toggled _⟩

/-! ## The mappings given as parameters (R213 to R217) -/

/-- Settles O55: each mapping reads the same period, duty bounds and marquee state in the filtered state as before. -/
theorem parameterMappingsWrite : Obligations.ParameterMappingsWrite := by
  intro s
  refine ⟨fun h => congrArg Except.ok ?_, fun h => congrArg Except.ok ?_, fun h => congrArg Except.ok ?_, fun h => congrArg Except.ok ?_⟩
  all_goals rw [State.serviceAdc_eq_mapSample, State.mapSample, filtered_mode, h]
  · exact State.mapAngle_eq_ite _ _ rfl rfl
  · exact State.mapBright_eq_ite _ _ rfl
  · rfl
  · rfl

/-! ## BINOUT (R219) -/

theorem exec_binout (s : State) (c : Bool) {val : Word} {v : Nat} (hv : clamp15 val.toInt = v) :
    exec (.binout c val) s =
      s.command (s.answer (check (c = true ∧ s.mode.ownsLed = true) .owner) (if c then s.out4 v else s) (BitVec.ofNat 32 v)) := by
  rw [← hv]
  rfl

/-- Settles O56: ownership is the one check, and only of a command that writes. -/
theorem binoutClampsInput : Obligations.BinoutClampsInput := by
  intro s c val v hs hneg hbig hmid
  have hclamp : clamp15 val.toInt = v := by
    unfold clamp15
    omega
  have hv : v < 16 := by omega
  rw [exec_binout s c hclamp]
  refine ⟨fun hfree => ?_, fun hc howned => ?_⟩
  · have hpass : ¬ (c = true ∧ s.mode.ownsLed = true) := fun ⟨hc, ho⟩ => by simp [State.ownsLed_of_ledFree (hfree hc)] at ho
    rw [check_neg hpass, State.answer_none, State.out4_eq_lowNibble s hv]
    exact State.command_eq_done hs _ v
  · rw [check_pos ⟨hc, State.ownsLed_of_not_ledFree howned⟩]
    exact State.command_eq_failed hs .owner

end Sys2Proof.Machine

/-! PROOFS. The statements of 45_serial_line: bytes pass through TXQ in order (R249), the RX service by the rows of R242, and the two properties
of the line editor, for backspace (R243) and for a line ended with CR and LF (R244). -/

namespace Sys2Proof.Machine

variable {s t u : State} {b : Byte} {bs : List Byte}

/-! ## What a step sends (R245 to R247) -/

/-- TXOUT with TXQ behind it has grown at its end, by no more bytes than the longest echo has. -/
def State.Sends (s t : State) : Prop :=
  ∃ entered : List Byte, t.txout ++ t.txq = s.txout ++ s.txq ++ entered ∧ entered.length ≤ 3

theorem State.Sends.refl (s : State) : s.Sends s := ⟨[], (List.append_nil _).symm, Nat.zero_le _⟩

theorem State.sends_enqueueTx (s : State) (h : bs.length ≤ 3) : s.Sends (s.enqueueTx bs) := ⟨bs, (List.append_assoc ..).symm, h⟩

/-- EV_TXTAKE moves the head of TXQ to the end of TXOUT. -/
theorem State.sends_takeTx {rest : List Byte} (h : s.txq = b :: rest) : s.Sends (s.takeTx b rest) :=
  ⟨[], by simp [h], Nat.zero_le _⟩

theorem RegWrite.sends (hw : RegWrite s t) : s.Sends t := by
  cases hw <;> exact .refl s

theorem CommandWrite.sends {i : Instr} (hw : CommandWrite s i t) : s.Sends t := by
  cases hw with
  | wrreg reg data r t hr hok => exact (State.writeReg_ok hok).sends
  | txbyte b => exact s.sends_enqueueTx (bs := [b]) (by simp)
  | _ => exact .refl s

theorem CommandEnd.sends {i : Instr} (he : CommandEnd s i t) : s.Sends t := by
  cases he with
  | done u r hw => exact hw.sends
  | failed | faulted | held => exact .refl s

theorem EventWrite.sends (hw : EventWrite s t) : s.Sends t := by
  cases hw with
  | txtake b rest hq => exact State.sends_takeTx hq
  | _ => exact .refl s

theorem TickWrite.sends (hw : TickWrite s t) : s.Sends t := by
  cases hw <;> exact .refl s

theorem SampleWrite.sends (hw : SampleWrite s t) : s.Sends t := by
  cases hw <;> exact .refl s

/-- A line step sends its echo: ERASE_SEQ or one byte (R241). -/
theorem LineWrite.sends (hw : LineWrite s b t) : s.Sends t := by
  cases hw with
  | ignored => exact .refl s
  | erased => exact s.sends_enqueueTx (bs := eraseSeq) (by decide)
  | ended | appended => exact s.sends_enqueueTx (bs := [b]) (by simp)

theorem ServiceWrite.sends {x : Src} (hw : ServiceWrite s x t) : s.Sends t := by
  cases hw with
  | tmr u hu => exact hu.sends
  | adc u hu => exact hu.sends
  | edge | bounce => exact .refl s
  | rx u hu =>
    obtain ⟨entered, hsent, hle⟩ := hu.sends
    rw [State.afterToggle_txout, State.afterToggle_txq] at hsent
    exact ⟨entered, hsent, hle⟩

theorem Moves.sends {cycle : Prop} (hm : Moves cycle s t) (hc : ¬ cycle) : s.Sends t := by
  cases hm with
  | powerCycle h => exact absurd h hc
  | service f rest x u hs hn hh hw hu => exact (State.serve_cases hu).sends
  | command p rest i t hs hp hd he ht => exact ht.sends
  | event p rest i t hp hd ht => exact ht.sends
  | rest | enterHigh | enterLow | leave | malformed => exact .refl s

/-- Settles O20: only TXBYTE and the echo of a line step enter TXQ, and only its head leaves it, for TXOUT. -/
theorem txBytesConserved : Obligations.TxBytesConserved :=
  fun _ _ hc hstep => (step_moves hstep).sends hc

/-! ## The line step by the rows of R242 -/

theorem isTerminator_iff : isTerminator b = true ↔ b = 0x0D ∨ b = 0x0A := by
  simp only [isTerminator, Bool.or_eq_true, beq_iff_eq]

theorem State.crlfSecond_iff : s.crlfSecond b = true ↔ b = 0x0A ∧ s.len = 0 ∧ s.lastch = 0x0D := by
  simp only [State.crlfSecond, Bool.and_eq_true, beq_iff_eq, and_assoc]

theorem State.lineStep_del_of_empty (h : s.len = 0) : s.lineStep 0x7F = .ok s := by
  simp [State.lineStep, State.backspace, h]

theorem State.lineStep_del (h : s.len ≠ 0) (hlen : s.len.toNat ≤ 63) :
    s.lineStep 0x7F = .ok ((s.setLine (s.len - 1) (s.lbuf.poke (s.len - 1).toNat 0)).enqueueTx eraseSeq) := by
  have hin : (s.len - 1).toNat < 64 := by bv_omega
  rw [State.lineStep, if_pos rfl, State.backspace, if_neg h, Memory.write_eq hin]
  rfl

theorem State.lineStep_lf_of_crlf (h : s.len = 0) (hcr : s.lastch = 0x0D) : s.lineStep 0x0A = .ok s := by
  simp [State.lineStep, isTerminator, State.crlfSecond, h, hcr]

theorem State.lineStep_terminator (hb : b = 0x0D ∨ (b = 0x0A ∧ ¬ (s.len = 0 ∧ s.lastch = 0x0D))) (hlen : s.len.toNat ≤ 63) :
    s.lineStep b = .ok (((s.emitLine s.lineHeld).setLine 0 (s.lbuf.zeroBelow s.len.toNat)).enqueueTx [b]) := by
  have hdel : b ≠ 0x7F := by rintro rfl; simp at hb
  have hterm : isTerminator b = true := isTerminator_iff.2 (hb.imp_right And.left)
  have hends : ¬ s.crlfSecond b = true := by
    intro hcrlf
    obtain ⟨hlf, hpair⟩ := State.crlfSecond_iff.1 hcrlf
    exact hb.elim (by simp [hlf]) fun ⟨_, hfirst⟩ => hfirst hpair
  rw [State.lineStep, if_neg hdel, if_pos hterm, if_neg hends, State.terminate, State.lineBytes_eq (Nat.le_succ_of_le hlen)]
  rfl

theorem State.lineStep_sentinel (s : State) : s.lineStep 0xFF = .ok s := by
  simp [State.lineStep, isTerminator]

theorem State.lineStep_of_ordinary (hb : ordinaryByte b = true) : s.lineStep b = s.appendByte b := by
  simp only [ordinaryByte, Bool.and_eq_true, bne_iff_ne] at hb
  obtain ⟨⟨⟨hcr, hlf⟩, hdel⟩, hff⟩ := hb
  rw [State.lineStep, if_neg hdel, if_neg fun h => (isTerminator_iff.1 h).elim hcr hlf, if_neg hff]

theorem State.lineStep_of_room (hb : ordinaryByte b = true) (h : s.len.toNat < 63) :
    s.lineStep b = .ok ((s.setLine (s.len + 1) (s.lbuf.poke s.len.toNat b)).enqueueTx [b]) := by
  rw [State.lineStep_of_ordinary hb, State.appendByte, if_pos h, Memory.write_eq (by omega)]
  rfl

theorem State.lineStep_of_full (hb : ordinaryByte b = true) (h : 63 ≤ s.len.toNat) : s.lineStep b = .ok s := by
  rw [State.lineStep_of_ordinary hb, State.appendByte, if_neg (Nat.not_lt.2 h)]

/-! ## The service around the line step (R231) -/

theorem serve_rx_of_framingError (h : s.rxferr = true) : s.serve .rx = .ok (Claims.rxEnd s (Claims.afterOverrun s)) := by
  have hflags : (Claims.afterOverrun s).iflags = s.iflags := s.afterToggle_iflags
  rw [State.serve, State.serviceRx_eq, if_pos h, Claims.rxEnd, ← hflags]
  rfl

/-- With no framing error the service is the line step, between the overrun step and the end of the byte. -/
theorem serve_rx_of_lineStep (h : s.rxferr = false) (hu : (Claims.afterOverrun s).lineStep s.rxbyte = .ok u) :
    s.serve .rx = .ok (Claims.rxEnd s u) := by
  have hline : s.afterToggle.lineStep s.rxbyte = .ok u := hu
  have hflags : u.iflags = s.iflags := by cases State.lineStep_cases hline <;> simp
  rw [State.serve, State.serviceRx_eq, h, hline, Claims.rxEnd, ← hflags]
  rfl

@[simp] theorem afterOverrun_len (s : State) : (Claims.afterOverrun s).len = s.len := s.afterToggle_len
@[simp] theorem afterOverrun_lbuf (s : State) : (Claims.afterOverrun s).lbuf = s.lbuf := s.afterToggle_lbuf
@[simp] theorem afterOverrun_lastch (s : State) : (Claims.afterOverrun s).lastch = s.lastch := s.afterToggle_lastch
@[simp] theorem afterOverrun_lines (s : State) : (Claims.afterOverrun s).lines = s.lines := s.afterToggle_lines
@[simp] theorem afterOverrun_linecnt (s : State) : (Claims.afterOverrun s).linecnt = s.linecnt := s.afterToggle_linecnt
@[simp] theorem afterOverrun_txq (s : State) : (Claims.afterOverrun s).txq = s.txq := s.afterToggle_txq

theorem lineHeld_afterOverrun (s : State) : (Claims.afterOverrun s).lineHeld = Claims.heldLine s := by
  simp [State.lineHeld, Claims.heldLine]

/-- Settles O58: a framing error skips the line step, and each other case is a row of it that writes nothing. -/
theorem rxServiceIgnores : Obligations.RxServiceIgnores := by
  intro s
  refine ⟨serve_rx_of_framingError, fun hf hb hlen => serve_rx_of_lineStep hf ?_, fun hf hb hlen hcr => serve_rx_of_lineStep hf ?_,
    fun hf hb => serve_rx_of_lineStep hf ?_, fun hf hb hlen => serve_rx_of_lineStep hf ?_⟩
  · rw [hb]
    exact State.lineStep_del_of_empty (by simpa using hlen)
  · rw [hb]
    exact State.lineStep_lf_of_crlf (by simpa using hlen) (by simpa using hcr)
  · rw [hb]
    exact State.lineStep_sentinel _
  · exact State.lineStep_of_full hb (by simpa using hlen)

/-! ## The buffer bytes after an edit -/

theorem Memory.peek_poke {m : Memory} (h : m.Rising) (a i : Nat) (v : Byte) : (m.poke a v).peek i = if i = a then v else m.peek i := by
  split
  · subst i
    exact Memory.peek_poke_same h a v
  · exact Memory.peek_poke_other m v ‹_›

/-- Settles O57: the three rows of the line step that write, each with the byte or bytes it changes. -/
theorem rxServiceEditsLine : Obligations.RxServiceEditsLine := by
  intro s hf hlen hwf
  have hrising := Memory.wf_rising hwf
  refine ⟨fun hb hpos => ⟨s.lbuf.poke (s.len - 1).toNat 0, serve_rx_of_lineStep hf ?_, fun i => ?_⟩,
    fun hb => ⟨s.lbuf.zeroBelow s.len.toNat, serve_rx_of_lineStep hf ?_, s.lbuf.peek_zeroBelow s.len.toNat⟩,
    fun hb hroom => ⟨s.lbuf.poke s.len.toNat s.rxbyte, serve_rx_of_lineStep hf ?_, fun i => Memory.peek_poke hrising ..⟩⟩
  · rw [hb, State.lineStep_del (by simpa using hpos) (by simpa using hlen)]
    simp [State.setLine, State.enqueueTx, eraseSeq]
  · have hlast : i = (s.len - 1).toNat ↔ i + 1 = s.len.toNat := by bv_omega
    simp only [Memory.peek_poke hrising, hlast]
  · rw [State.lineStep_terminator (by simpa using hb) (by simpa using hlen), lineHeld_afterOverrun]
    simp [State.emitLine, State.setLine, State.enqueueTx]
  · rw [State.lineStep_of_room hb (by simpa using hroom)]
    simp [State.setLine, State.enqueueTx]

/-! ## Bytes received one after another -/

/-- A byte received without error indications is a line step of the state that has latched it. -/
theorem State.received_of_lineStep (hu : (s.latchByte b false false).lineStep b = .ok u) :
    s.received b = .ok (Claims.rxEnd (s.latchByte b false false) u) :=
  serve_rx_of_lineStep rfl hu

theorem State.receivedAll_append {cs : List Byte} (h : s.receivedAll bs = .ok t) : s.receivedAll (bs ++ cs) = t.receivedAll cs := by
  induction bs generalizing s with
  | nil => cases h; rfl
  | cons b bs ih =>
    simp only [State.receivedAll, List.cons_append] at h ⊢
    cases hr : s.received b with
    | error e => simp [hr] at h
    | ok v =>
      rw [hr] at h
      exact ih h

theorem State.receivedAll_singleton (s : State) (b : Byte) : s.receivedAll [b] = s.received b := by
  rw [State.receivedAll]
  cases s.received b <;> rfl

/-- What holds of no bytes, and of one byte more after each ordinary one, holds of every run of at most `n` of them. -/
theorem State.exists_receivedAll {P : List Byte → State → Prop} {n : Nat} (hnil : P [] s)
    (hstep : ∀ bs b t, bs.length < n → ordinaryByte b = true → P bs t → ∃ u, t.received b = .ok u ∧ P (bs ++ [b]) u)
    (hn : bs.length ≤ n) (h : ∀ b ∈ bs, ordinaryByte b = true) : ∃ t, s.receivedAll bs = .ok t ∧ P bs t := by
  induction bs using List.reverseRecOn with
  | nil => exact ⟨s, rfl, hnil⟩
  | append_singleton bs b ih =>
    have hlt : bs.length < n := by simpa using hn
    obtain ⟨t, ht, hP⟩ := ih hlt.le fun c hc => h c (List.mem_append_left _ hc)
    obtain ⟨u, hu, hP'⟩ := hstep bs b t hlt (h b (by simp)) hP
    exact ⟨u, by rw [State.receivedAll_append ht, State.receivedAll_singleton, hu], hP'⟩

/-! ## Backspace (R243) -/

/-- An ordinary byte lengthens the line up to 63 bytes. -/
theorem State.received_ordinary_len (hb : ordinaryByte b = true) (hlen : s.len.toNat ≤ 63) :
    ∃ t, s.received b = .ok t ∧ t.len.toNat = min (s.len.toNat + 1) 63 := by
  rcases Nat.lt_or_ge s.len.toNat 63 with h | h
  · refine ⟨_, State.received_of_lineStep (State.lineStep_of_room hb h), ?_⟩
    have hsucc : (s.len + 1).toNat = s.len.toNat + 1 := by bv_omega
    exact hsucc.trans (by omega)
  · refine ⟨_, State.received_of_lineStep (State.lineStep_of_full hb h), ?_⟩
    change s.len.toNat = _
    omega

/-- DEL shortens a line that is not empty. -/
theorem State.received_del_len (hlen : s.len.toNat ≤ 63) : ∃ t, s.received 0x7F = .ok t ∧ t.len.toNat = s.len.toNat - 1 := by
  by_cases h : s.len = 0
  · refine ⟨_, State.received_of_lineStep (State.lineStep_del_of_empty h), ?_⟩
    change s.len.toNat = _
    simp [h]
  · refine ⟨_, State.received_of_lineStep (State.lineStep_del h hlen), ?_⟩
    change (s.len - 1).toNat = _
    bv_omega

theorem State.exists_receivedAll_ordinary_len (hlen : s.len = 0) (h : ∀ b ∈ bs, ordinaryByte b = true) :
    ∃ t, s.receivedAll bs = .ok t ∧ t.len.toNat = min bs.length 63 := by
  refine State.exists_receivedAll (P := fun l t => t.len.toNat = min l.length 63) (by simp [hlen]) (fun l b t _ hb hl => ?_) le_rfl h
  obtain ⟨u, hu, hulen⟩ := State.received_ordinary_len (s := t) hb (by omega)
  refine ⟨u, hu, ?_⟩
  rw [hulen, List.length_append, List.length_singleton]
  omega

/-- Settles O59: the bytes before the DEL leave LEN at the lesser of their number and 63. -/
theorem backspaceProperty : Obligations.BackspaceProperty := by
  intro s bs hlen h
  obtain ⟨t, ht, htlen⟩ := State.exists_receivedAll_ordinary_len hlen h
  obtain ⟨u, hu, hulen⟩ := State.received_del_len (s := t) (by omega)
  refine ⟨u, ?_, ?_⟩
  · rw [State.receivedAll_append ht, State.receivedAll_singleton, hu]
  · rw [hulen, htlen]

/-! ## A line ended with CR and LF (R244) -/

/-- `t` holds the bytes as its line and has echoed them behind what `s` had queued, with no line ended since `s`. -/
structure State.Typed (s : State) (bs : List Byte) (t : State) : Prop where
  len : t.len.toNat = bs.length
  rising : t.lbuf.Rising
  below : ∀ c ∈ t.lbuf, c.1 < bs.length
  line : t.lineHeld = bs
  lines : t.lines = s.lines
  linecnt : t.linecnt = s.linecnt
  txq : t.txq = s.txq ++ bs

theorem State.Typed.nil (hlen : s.len = 0) (hbuf : s.lbuf = []) : s.Typed [] s := by
  constructor <;> simp [hlen, hbuf, State.lineHeld]

theorem Memory.zeroBelow_eq_nil {m : Memory} {n : Nat} (h : ∀ c ∈ m, c.1 < n) : m.zeroBelow n = [] :=
  List.filter_eq_nil_iff.2 fun c hc => by simpa using h c hc

/-- The line read with one byte stored behind it. -/
theorem Memory.map_peek_range_poke {m : Memory} (h : m.Rising) (n : Nat) (b : Byte) :
    (List.range (n + 1)).map (m.poke n b).peek = (List.range n).map m.peek ++ [b] := by
  have hkept : (List.range n).map (m.poke n b).peek = (List.range n).map m.peek :=
    List.map_congr_left fun i hi => Memory.peek_poke_other m b (List.mem_range.1 hi).ne
  rw [List.range_succ, List.map_append, hkept, List.map_singleton, Memory.peek_poke_same h]

/-- An ordinary byte is typed behind a line with room for it. -/
theorem State.Typed.received (h : s.Typed bs t) (hb : ordinaryByte b = true) (hroom : bs.length < 63) :
    ∃ u, t.received b = .ok u ∧ s.Typed (bs ++ [b]) u := by
  have hlen := h.len
  have hsucc : (t.len + 1).toNat = t.len.toNat + 1 := by bv_omega
  refine ⟨_, State.received_of_lineStep (State.lineStep_of_room (s := t.latchByte b false false) hb (hlen ▸ hroom)), ?_⟩
  constructor
  case len => exact hsucc.trans (by simp [hlen])
  case rising => exact Memory.rising_poke h.rising _ _
  case below =>
    intro c hc
    rw [List.length_append, List.length_singleton]
    rcases Memory.mem_poke hc with hc | ⟨rfl, -⟩
    · exact Nat.lt_succ_of_lt (h.below c hc)
    · exact Nat.lt_succ_of_le hlen.le
  case line =>
    have hread := Memory.map_peek_range_poke h.rising t.len.toNat b
    rw [← hsucc] at hread
    exact hread.trans (congrArg (· ++ [b]) h.line)
  case lines => exact h.lines
  case linecnt => exact h.linecnt
  case txq => exact (congrArg (· ++ [b]) h.txq).trans (List.append_assoc ..)

/-- CR delivers the line typed, and the LF behind it is the second half of the pair. -/
theorem State.Typed.ended (h : s.Typed bs t) (hle : bs.length ≤ 63) :
    ∃ u, t.receivedAll [0x0D, 0x0A] = .ok u ∧ u.lines = s.lines ++ [bs] ∧ u.linecnt = s.linecnt + 1
      ∧ u.txq = s.txq ++ bs ++ [0x0D] ∧ u.len = 0 ∧ u.lbuf = [] ∧ u.lastch = 0x0A := by
  obtain ⟨hlen, -, hbelow, hline, hlines, hlinecnt, htxq⟩ := h
  have hcr := State.received_of_lineStep (State.lineStep_terminator (s := t.latchByte 0x0D false false) (.inl rfl) (hlen ▸ hle))
  rw [show [0x0D, 0x0A] = [(0x0D : Byte)] ++ [0x0A] from rfl, State.receivedAll_append ((State.receivedAll_singleton ..).trans hcr),
    State.receivedAll_singleton, State.received_of_lineStep (State.lineStep_lf_of_crlf rfl rfl)]
  refine ⟨_, rfl, ?_, congrArg (· + 1) hlinecnt, congrArg (· ++ [0x0D]) htxq, rfl, Memory.zeroBelow_eq_nil (hlen ▸ hbelow), rfl⟩
  exact congrArg₂ (· ++ [·]) hlines hline

/-- Settles O60: the bytes are typed into the empty line, and CR and LF end it. -/
theorem lineIsDelivered : Obligations.LineIsDelivered := by
  intro s bs hlen hbuf hle h
  obtain ⟨t, ht, htyped⟩ := State.exists_receivedAll (P := s.Typed) (.nil hlen hbuf) (fun _ _ _ hlt hb hl => hl.received hb hlt) hle h
  rw [State.receivedAll_append ht]
  exact htyped.ended hle

end Sys2Proof.Machine

/-! PROOFS. The statements of 60_exceptions: the host waits (R267, R286), the dispatcher's four steps (R278, R279, R281, R284), a step goes on (R268),
what an activation and a critical section keep still (R273, R276, R286), and how a command packet ends (R262, R264). -/

namespace Sys2Proof.Machine

variable {s t : State} {ts : List Turn} {f : Frame} {rest : List Frame} {x : Src}

/-! ## The turn drawn (R285) -/

theorem step_of_turn {u : Turn} (ht : s.turns = u :: ts) : step s = (s.leaveTurns ts).takeTurn u := by
  simp only [step, State.move, ht]

/-! ## The host's turn where no packet is taken (R245, R267, R286) -/

theorem State.hostTurn_of_active (hs : s.stack ≠ []) : s.hostTurn = .next s := by
  cases hst : s.stack with
  | nil => exact absurd hst hs
  | cons f rest => simp only [State.hostTurn, hst]

theorem State.hostTurn_of_held {p : Packet} {ps : List Packet} {b : Byte} (hs : s.stack = []) (hc : s.cmdPort = p :: ps)
    (hd : decodeCommand p = .ok (.txbyte b)) (hf : s.txFull = true) : s.hostTurn = .next s := by
  have hheld : Instr.enabled (.txbyte b) s = false := by simp [Instr.enabled, hf]
  simp only [State.hostTurn, hs, hc, hd, hheld, Bool.false_eq_true, if_false, exec, execTxbyte, hf, if_true]

/-- Settles O9: the host's turn matches on an empty stack, and a TXBYTE is not enabled while TXQ is full. -/
theorem hostWaits : Obligations.HostWaits := by
  intro s ts ht
  rw [step_of_turn ht]
  exact ⟨fun hs => State.hostTurn_of_active (s := s.leaveTurns ts) hs,
    fun p rest b hs hc hd hfull => State.hostTurn_of_held (s := s.leaveTurns ts) hs hc hd (beq_iff_eq.2 hfull)⟩

/-! ## When the dispatcher's steps are enabled, in the claims' words (R241, R276 to R281) -/

theorem State.request_iff_asks (s : State) (lv : Level) : s.request lv = true ↔ ∃ x : Src, Claims.asks s lv x := by
  simp only [State.request_iff, asks_iff]

theorem nothingNext_iff (s : State) (f : Frame) : Claims.nothingNext s f ↔ s.nextSource f = none := by
  simp only [Claims.nothingNext, sourceBit_eq_index, asks_iff, State.nextSource_eq_none]

theorem State.canEnterHigh_iff (s : State) : s.canEnterHigh = true ↔
    s.gieh = true ∧ (∃ x : Src, Claims.asks s .high x) ∧ ∀ f, s.stack.head? = some f → f.level = .low := by
  rw [← State.request_iff_asks, State.canEnterHigh, State.reqHigh, Bool.and_eq_true, Bool.and_eq_true, and_assoc]
  cases s.stack <;> simp

theorem State.canEnterLow_iff (s : State) : s.canEnterLow = true ↔ s.stack = [] ∧ s.gieh = true ∧ s.giel = true
    ∧ (∃ x : Src, Claims.asks s .low x) ∧ ∀ x : Src, ¬ Claims.asks s .high x := by
  rw [← not_exists, ← State.request_iff_asks, ← State.request_iff_asks]
  simp only [State.canEnterLow, State.reqLow, State.reqHigh]
  cases s.gieh <;> simp [and_comm, and_left_comm]

theorem State.serviceHolds_iff (s : State) (x : Src) : s.serviceHolds x = true ↔ x = .rx ∧ ¬ Claims.echoFits s := by
  cases x with
  | rx => simp only [State.serviceHolds, State.rxHolds_iff, true_and]
  | tmr | adc | btn => simp [State.serviceHolds]

theorem State.waitsAtRx_iff (s : State) (f : Frame) :
    s.waitsAtRx f = true ↔ s.rxWaits = true ∧ ¬ Claims.echoFits s ∧ Claims.atLevel s f.level .rx := by
  rw [State.waitsAtRx, Bool.and_eq_true, Bool.and_eq_true, State.rxHolds_iff, beq_iff_eq, State.levelOf_eq_iff, and_assoc]

/-! ## Entry (R278, R279) -/

theorem step_of_enterHigh (ht : s.turns = .enterHigh :: ts) :
    step s = .next (if s.canEnterHigh then (s.leaveTurns ts).enter .high else s.leaveTurns ts) := step_of_turn ht

theorem step_of_enterLow (ht : s.turns = .enterLow :: ts) :
    step s = .next (if s.canEnterLow then (s.leaveTurns ts).enter .low else s.leaveTurns ts) := step_of_turn ht

/-- Settles O10: the hypotheses are the enabling condition of ENTER_HIGH, or refute one of its three parts. -/
theorem enterHighPushesFrame : Obligations.EnterHighPushesFrame := by
  intro s ts ht
  have hidle : ¬ s.canEnterHigh = true → step s = .next (s.leaveTurns ts) :=
    fun h => (step_of_enterHigh ht).trans (congrArg _ (if_neg h))
  rw [State.canEnterHigh_iff] at hidle
  refine ⟨fun hask hgieh htop => ?_, fun hnone => hidle ?_, fun hgieh => hidle ?_, fun f hf hhigh => hidle ?_⟩
  · rw [step_of_enterHigh ht, if_pos (s.canEnterHigh_iff.2 ⟨hgieh, hask, htop⟩)]
    rfl
  · rintro ⟨-, ⟨x, hx⟩, -⟩
    exact hnone x hx
  · rintro ⟨hset, -⟩
    exact Bool.eq_false_iff.1 hgieh hset
  · rintro ⟨-, -, htop⟩
    exact absurd (hhigh.symm.trans (htop f hf)) (by decide)

/-- Settles O11: the hypotheses are the enabling condition of ENTER_LOW, or refute one of its five parts. -/
theorem enterLowPushesFrame : Obligations.EnterLowPushesFrame := by
  intro s ts ht
  have hidle : ¬ s.canEnterLow = true → step s = .next (s.leaveTurns ts) :=
    fun h => (step_of_enterLow ht).trans (congrArg _ (if_neg h))
  rw [State.canEnterLow_iff] at hidle
  refine ⟨fun hs hgieh hgiel hlow hhigh => ?_, fun hoff => hidle ?_, fun hnone => hidle ?_, fun hhigh => hidle ?_⟩
  · rw [step_of_enterLow ht, if_pos (s.canEnterLow_iff.2 ⟨hs, hgieh, hgiel, hlow, hhigh⟩), State.enter, State.leaveTurns_stack, hs]
    rfl
  · rintro ⟨hs, hgieh, hgiel, -⟩
    simp [hs, hgieh, hgiel] at hoff
  · rintro ⟨-, -, -, ⟨x, hx⟩, -⟩
    exact hnone x hx
  · rintro ⟨-, -, -, -, hnone⟩
    obtain ⟨x, hx⟩ := hhigh
    exact hnone x hx

/-! ## Service and return (R281, R284) -/

theorem State.serviceStep_of_fg (hs : s.stack = []) : s.serviceStep = .next s := by
  simp only [State.serviceStep, hs]

theorem State.serviceStep_of_nothing (hs : s.stack = f :: rest) (hn : s.nextSource f = none) : s.serviceStep = .next s := by
  simp only [State.serviceStep, hs, hn]

theorem State.serviceStep_of_holds (hs : s.stack = f :: rest) (hn : s.nextSource f = some x) (hh : s.serviceHolds x = true) :
    s.serviceStep = .next s := by
  simp only [State.serviceStep, hs, hn, hh, Bool.true_or, if_true]

/-- Whatever source the frame would serve next, or none (R281, R314, log 21). -/
theorem State.serviceStep_of_waits (hs : s.stack = f :: rest) (hw : s.waitsAtRx f = true) : s.serviceStep = .next s := by
  cases hn : s.nextSource f with
  | none => exact State.serviceStep_of_nothing hs hn
  | some x => simp only [State.serviceStep, hs, hn, hw, Bool.or_true, if_true]

theorem State.serviceStep_of_served (hs : s.stack = f :: rest) (hn : s.nextSource f = some x) (hh : s.serviceHolds x = false)
    (hw : s.waitsAtRx f = false) (ht : (s.endWait x).serve x = .ok t) :
    s.serviceStep = .next (t.setTop { f with cursor := x.past } rest) := by
  simp only [State.serviceStep, hs, hn, hh, hw, Bool.or_self, Bool.false_eq_true, if_false, ht]

theorem State.returnStep_of_nothing (hs : s.stack = f :: rest) (hn : s.nextSource f = none) :
    s.returnStep = .next { s with stack := rest } := by
  simp only [State.returnStep, State.leave, hs, hn, if_true, List.tail_cons]

theorem State.returnStep_of_next (hs : s.stack = f :: rest) (hn : s.nextSource f ≠ none) : s.returnStep = .next s := by
  simp only [State.returnStep, hs, if_neg hn]

/-- The cursor just past a source is one above its index (R281). -/
theorem Src.val_past (x : Src) : x.past.val = Claims.sourceBit x + 1 := by cases x <;> rfl

/-- Settles O12: the claims' conditions are those of the dispatcher, and `echo_len()` is what the RX service enqueues. -/
theorem serviceTakesLeastSource : Obligations.ServiceTakesLeastSource := by
  intro s ts ht
  rw [step_of_turn ht, State.takeTurn]
  refine ⟨fun hs => State.serviceStep_of_fg hs, fun t hserve => ?_, fun f rest hs => ⟨fun hnone => ?_,
    fun hwait hl hfull => ?_, fun x hx => ⟨fun hrx hfull => ?_, fun hroom hgo t hserve => ⟨x.past, x.val_past, ?_⟩⟩⟩⟩
  · rw [← State.echoLen_eq_echoBytes]
    exact State.serviceRx_txq_length hserve
  · exact State.serviceStep_of_nothing hs ((nothingNext_iff _ f).1 hnone)
  · exact State.serviceStep_of_waits hs ((State.waitsAtRx_iff _ f).2 ⟨hwait, hfull, hl⟩)
  · exact State.serviceStep_of_holds hs ((nextIs_iff _ f x).1 hx) ((State.serviceHolds_iff _ x).2 ⟨hrx, hfull⟩)
  · have hhold : ¬ s.serviceHolds x = true := fun hh => by
      obtain ⟨hrx, hfull⟩ := (s.serviceHolds_iff x).1 hh
      exact hfull (hroom hrx)
    have hwait : ¬ s.waitsAtRx f = true := fun hw => by
      obtain ⟨hset, hfull, hl⟩ := (s.waitsAtRx_iff f).1 hw
      exact hfull (hgo hset hl)
    exact State.serviceStep_of_served hs ((nextIs_iff _ f x).1 hx) (Bool.eq_false_iff.2 hhold)
      (Bool.eq_false_iff.2 hwait) hserve

/-- Settles O13: RETURN looks for the next source of the top frame, and pops the frame where there is none. -/
theorem returnPopsFrame : Obligations.ReturnPopsFrame := by
  intro s ts f rest ht hs
  rw [step_of_turn ht, State.takeTurn]
  exact ⟨fun hnone => State.returnStep_of_nothing hs ((nothingNext_iff _ f).1 hnone),
    fun hsome => State.returnStep_of_next hs (mt (nothingNext_iff _ f).2 hsome)⟩

/-! ## Every step goes on (R268) -/

/-- The outcome is a next state, or the refusal of a malformed event packet (R88). -/
def GoesOn (o : Step) : Prop := (∃ t, o = .next t) ∨ ∃ why, o = .refused (.malformedEvent why)

theorem GoesOn.next (t : State) : GoesOn (.next t) := .inl ⟨t, rfl⟩

theorem State.goesOn_hostTurn (s : State) : GoesOn s.hostTurn := by
  simp only [State.hostTurn]
  split
  · rename_i p ps hs hc
    split
    · exact .next _
    · rename_i i hd
      have hfg : (if Instr.enabled i s then s.leaveCommands ps else s).stack = [] := by split <;> exact hs
      obtain ⟨t, ht, -⟩ := exec_command (decodeCommand_port hd) hfg
      exact .inl ⟨t, ht⟩
  · exact .next _

theorem State.goesOn_environmentTurn (s : State) : GoesOn s.environmentTurn := by
  simp only [State.environmentTurn]
  split
  · exact .next _
  · split
    · exact .inr ⟨_, rfl⟩
    · rename_i i hd
      obtain ⟨t, ht, -⟩ := exec_event (decodeEvent_port hd) _
      exact .inl ⟨t, ht⟩

/-- While LEN is at most 63 (R56) the service taken does not leave the line buffer. -/
theorem State.goesOn_serviceStep (h : s.len.toNat ≤ 63) : GoesOn s.serviceStep := by
  simp only [State.serviceStep]
  split
  · exact .next _
  · split
    · exact .next _
    · rename_i x hn
      split
      · exact .next _
      · obtain ⟨t, ht⟩ := State.serve_answers (s := s.endWait x) h x
        rw [ht]
        exact .next _

theorem State.goesOn_returnStep (s : State) : GoesOn s.returnStep := by
  simp only [State.returnStep]
  split <;> exact .next _

theorem State.goesOn_takeTurn (h : s.len.toNat ≤ 63) (u : Turn) : GoesOn (s.takeTurn u) := by
  cases u with
  | host => exact s.goesOn_hostTurn
  | environment => exact s.goesOn_environmentTurn
  | service => exact State.goesOn_serviceStep h
  | leave => exact s.goesOn_returnStep
  | enterHigh | enterLow | powerCycle => exact .next _

/-- Settles O17: whichever turn is taken, only a service can fault, and it does not under LEN ≤ 63. -/
theorem stepGoesOn : Obligations.StepGoesOn := by
  intro s h
  change GoesOn s.move
  simp only [State.move]
  split
  · rename_i u ts ht
    exact State.goesOn_takeTurn (s := s.leaveTurns ts) h.len_le u
  · split
    · exact State.goesOn_takeTurn h.len_le _
    · exact .next s

/-! ## What stays still while an activation is on the stack (R273, R286) -/

/-- The configuration registers of R302, and what a host command records. -/
def State.configuration (s : State) : BitVec 4 × BitVec 4 × Bool × Bool × Mode × Byte × BitVec 16 × BitVec 16 × Byte × Option Response :=
  (s.ienable, s.iprio, s.gieh, s.giel, s.mode, s.pr, s.pwps, s.dbncfg, s.lasterr, s.resp)

theorem EventWrite.configuration_eq (hw : EventWrite s t) : t.configuration = s.configuration := by
  cases hw <;> rfl

theorem TickWrite.configuration_eq (hw : TickWrite s t) : t.configuration = s.configuration := by
  cases hw <;> rfl

theorem SampleWrite.configuration_eq (hw : SampleWrite s t) : t.configuration = s.configuration := by
  cases hw <;> rfl

theorem LineWrite.configuration_eq {b : Byte} (hw : LineWrite s b t) : t.configuration = s.configuration := by
  cases hw <;> rfl

theorem State.configuration_afterToggle (s : State) : s.afterToggle.configuration = s.configuration := by
  simp [State.configuration]

theorem ServiceWrite.configuration_eq (hw : ServiceWrite s x t) : t.configuration = s.configuration := by
  cases hw with
  | tmr u hu => exact hu.configuration_eq
  | adc u hu => exact hu.configuration_eq
  | edge | bounce => rfl
  | rx u hu => exact hu.configuration_eq.trans s.configuration_afterToggle

/-- Only the host writes them, and with an activation on the stack it does not step. -/
theorem Moves.configuration_eq {cycle : Prop} (hm : Moves cycle s t) (hs : s.stack ≠ []) (hc : ¬ cycle) :
    t.configuration = s.configuration := by
  cases hm with
  | powerCycle h => exact absurd h hc
  | malformed p ps e hfg | command p ps i t hfg => exact absurd hfg hs
  | service f rest x u hst hn hh hw hu => exact (State.serve_cases hu).configuration_eq
  | event p ps i t hp hd ht => exact ht.configuration_eq
  | rest | enterHigh | enterLow | leave => rfl

/-- Settles O22: the configuration is the host's to write. -/
theorem configurationStillInActivation : Obligations.ConfigurationStillInActivation := by
  intro s t hs hcycle hstep
  simpa [State.configuration] using (step_moves hstep).configuration_eq hs hcycle

/-! ## A critical section in FG (R70) -/

/-- From `s` to `t` nothing has changed but what an event writes, and the event port. -/
def State.Quiet (s t : State) : Prop :=
  t = { s with iflags := t.iflags, adcdata := t.adcdata, adBusy := t.adBusy, rxbyte := t.rxbyte, rxoerr := t.rxoerr
               rxferr := t.rxferr, txq := t.txq, txout := t.txout, evtPort := t.evtPort }

theorem EventWrite.quiet (hw : EventWrite s t) : s.Quiet t := by
  cases hw <;> rfl

/-- No activation is there to wait at RX. -/
theorem State.noteWait_of_fg (hs : s.stack = []) : s.noteWait = s := by
  have hnone : s.atHeldRx = false := by simp [State.atHeldRx, hs]
  rw [State.noteWait, hnone, Bool.or_false]

theorem State.quiet_of_environmentTurn (hs : s.stack = []) (h : s.environmentTurn = .next t) : s.Quiet t := by
  cases hc : s.evtPort with
  | nil =>
    simp only [State.environmentTurn, hc] at h
    cases h
    rfl
  | cons p ps =>
    cases hd : decodeEvent p with
    | error e => simp only [State.environmentTurn, hc, hd, reduceCtorEq] at h
    | ok i =>
      obtain ⟨v, hv, hw⟩ := exec_event (decodeEvent_port hd) (s.leaveEvents ps).noteWait
      simp only [State.environmentTurn, hc, hd, hv] at h
      cases h
      rw [State.noteWait_of_fg (s := s.leaveEvents ps) hs] at hw
      exact hw.quiet

/-- In FG with GIEH = 0 the dispatcher has no level to enter, and no activation to serve or to return from (R276). -/
theorem State.takeTurn_dispatcher_of_fg (hg : s.gieh = false) (hs : s.stack = []) {u : Turn}
    (hu : u ∈ [Turn.enterHigh, .enterLow, .service, .leave]) : s.takeTurn u = .next s := by
  have hhigh : s.canEnterHigh = false := by simp [State.canEnterHigh, State.reqHigh, hg]
  have hlow : s.canEnterLow = false := by simp [State.canEnterLow, State.reqLow, hg]
  simp only [List.mem_cons, List.not_mem_nil, or_false] at hu
  rcases hu with rfl | rfl | rfl | rfl
  · simp only [State.takeTurn, State.enterHighStep, hhigh, Bool.false_eq_true, if_false]
  · simp only [State.takeTurn, State.enterLowStep, hlow, Bool.false_eq_true, if_false]
  · exact State.serviceStep_of_fg hs
  · simp only [State.takeTurn, State.returnStep, hs]

/-- Settles O23: only an event changes anything, and what it writes is among the fields named. -/
theorem quietWithGiehClear : Obligations.QuietWithGiehClear := by
  intro s t u ts hg hs ht hhost hcycle hstep
  change (s.leaveTurns ts).Quiet t
  rw [step_of_turn ht] at hstep
  cases u with
  | host => exact absurd rfl hhost
  | powerCycle => exact absurd rfl hcycle
  | environment => exact State.quiet_of_environmentTurn hs hstep
  | enterHigh | enterLow | service | leave =>
    rw [State.takeTurn_dispatcher_of_fg (s := s.leaveTurns ts) hg hs (by decide)] at hstep
    cases hstep
    rfl

/-! ## How a command packet ends (R262, R264) -/

variable {p : Packet} {ps : List Packet}

/-- What the packet `p`, taken off its port, makes of the state `u` without it. -/
inductive Answered (u : State) (p : Packet) : State → Prop where
  /-- An error, a malformed packet's included. -/
  | failed (e : Err) : Answered u p (u.raise e)
  /-- The error of a committing TCALC, with CFGFAULT (R134). -/
  | faulted (e : Err) (w : Bool) (ps : BitVec 16) (per : Word) (h : decodeCommand p = .ok (.tcalc true w ps per)) :
      Answered u p ((u.faultIf true).raise e)
  /-- Success: the command's write, then its response. -/
  | done (i : Instr) (v : State) (r : Word) (hd : decodeCommand p = .ok i) (hw : CommandWrite u i v) : Answered u p (v.succeed r)

/-- A host's turn leaves everything as it is, the packet at its port included, or answers the packet. -/
theorem State.hostTurn_cases (hc : s.cmdPort = p :: ps) (h : s.hostTurn = .next t) : t = s ∨ Answered (s.leaveCommands ps) p t := by
  by_cases hs : s.stack = []
  · cases hd : decodeCommand p with
    | error e =>
      simp only [State.hostTurn, hs, hc, hd] at h
      cases h
      exact .inr (.failed _)
    | ok i =>
      by_cases hheld : ∃ b, i = .txbyte b ∧ s.txFull = true
      · obtain ⟨b, rfl, hf⟩ := hheld
        rw [State.hostTurn_of_held hs hc hd hf] at h
        cases h
        exact .inl rfl
      · have hroom : ∀ b, i = .txbyte b → s.txFull = false := fun b hi => Bool.eq_false_iff.2 fun hf => hheld ⟨b, hi, hf⟩
        have he := enabled_of_fg (decodeCommand_port hd) hs hroom
        obtain ⟨v, hv, hend⟩ := exec_command (decodeCommand_port hd) (s := s.leaveCommands ps) hs
        simp only [State.hostTurn, hs, hc, hd, he, if_true, hv] at h
        cases h
        cases hend with
        | failed e => exact .inr (.failed e)
        | faulted e w ps per hi => exact .inr (.faulted e w ps per (hi ▸ hd))
        | done v r hw => exact .inr (.done i v r hd hw)
        | held b hi hf => exact absurd ⟨b, hi, hf⟩ hheld
  · rw [State.hostTurn_of_active hs] at h
    cases h
    exact .inl rfl

theorem answered_of_step (ht : s.turns = .host :: ts) (hc : s.cmdPort = p :: ps) (hstep : step s = .next t) (hp : t.cmdPort = ps) :
    Answered ((s.leaveTurns ts).leaveCommands ps) p t := by
  rw [step_of_turn ht] at hstep
  rcases State.hostTurn_cases (s := s.leaveTurns ts) hc hstep with rfl | h
  · exact absurd (hc.symm.trans hp) (List.cons_ne_self p ps)
  · exact h

/-- Of the registers only ERRFLAGS itself writes ERRFLAGS (R114). -/
theorem State.errflags_of_writeReg {r : Reg} {data : Word} (h : s.writeReg r data = .ok t) (hr : r ≠ .errflags) :
    t.errflags = s.errflags := by
  cases r with
  | errflags => exact absurd rfl hr
  | iflags | ienable | iprio | gie | dbncfg => cases h; rfl
  | mode =>
    simp only [State.writeReg, State.writeMode] at h
    split at h
    · cases h
    · cases h
      split <;> rfl
  | pwmpr | pwps | out =>
    simp only [State.writeReg] at h
    split at h
    · cases h
    · cases h
      rfl
  | _ => cases h

theorem CommandWrite.errflags_eq {i : Instr} (hw : CommandWrite s i t) (hi : ∀ data, i ≠ .wrreg 0x01 data) :
    t.errflags = s.errflags := by
  cases hw with
  | wrreg reg data r t hr hok =>
    refine State.errflags_of_writeReg hok ?_
    rintro rfl
    have hreg : reg = 0x01 := (addr_of_mem_ofAddr reg .errflags hr).symm
    exact hi data (hreg ▸ rfl)
  | _ => rfl

theorem Err.code_ne_zero (e : Err) : e.code ≠ 0 := by cases e <;> decide

/-- Settles O24: each of the three ends records its response as R262 says. -/
theorem commandsAnswer : Obligations.CommandsAnswer := by
  intro s t p rest ts ht hc hstep hp
  cases answered_of_step ht hc hstep hp with
  | failed e | faulted e => exact ⟨_, rfl, rfl, fun _ => ⟨rfl, rfl⟩, fun h => absurd h e.code_ne_zero⟩
  | done i v r hd hw => exact ⟨_, rfl, rfl, fun h => absurd rfl h, fun _ hi => hw.errflags_eq fun data h => hi data (h ▸ hd)⟩

/-- Settles O25: the two ends with an error write only what is recorded, and CFGFAULT is a committing TCALC's. -/
theorem commandErrorsArePrecise : Obligations.CommandErrorsArePrecise := by
  intro s t p rest ts ht hc hstep hp herr
  cases answered_of_step ht hc hstep hp with
  | failed e => exact ⟨rfl, .inl rfl⟩
  | faulted e w ps per hd => exact ⟨rfl, .inr ⟨w, ps, per, hd⟩⟩
  | done i v r hd hw => exact absurd rfl herr

end Sys2Proof.Machine

/-! PROOFS. The statements of 70_reset_and_hazards: what hard reset and the power cycle leave (R300), and that it meets `State.Inv` (R56). -/

namespace Sys2Proof.Machine

/-! ## What hard reset leaves (R22, R300) -/

/-- From RXRSTCNT up, the line buffer included, every register's reset value is 0 (R22). -/
theorem resetValue_of_le (p : Params) {a : Nat} (h : 0x1B ≤ a) : Claims.resetValue p a = 0 := by
  unfold Claims.resetValue
  split
  case h_7 => rfl
  all_goals omega

/-- TXLEVEL shows the whole depth, since R47 bounds it by 255; of the other registers none depends on the parameters. -/
theorem registerValue_resetWith {p : Params} (hp : p.Legal) (r : Reg) :
    Claims.registerValue (State.resetWith p) r.addr.toNat = some (Claims.resetValue p r.addr.toNat) := by
  cases r with
  | lbuf i =>
    have ha : (Reg.lbuf i).addr.toNat = 0x40 + i.val := by simp only [Reg.addr, BitVec.toNat_ofNat]; omega
    rw [ha, registerValue_of_le _ (by omega), if_pos (by omega), resetValue_of_le p (by omega)]
    rfl
  | txlevel =>
    obtain ⟨-, -, -, hdepth⟩ := hp
    have hmod : p.txqDepth % 256 = p.txqDepth := Nat.mod_eq_of_lt (Nat.lt_succ_of_le hdepth)
    simp [Claims.registerValue, Claims.resetValue, Reg.addr, State.resetWith, hmod]
  | iprio | reload | pwmdcl => simp [Claims.registerValue, Claims.resetValue, Reg.addr, State.resetWith]
  | _ => rfl

/-- Settles O14: a mapped address is a register's, which reads as its reset value; the power cycle's turn leads to hard reset's state. -/
theorem resetLeavesSpecValues : Obligations.ResetLeavesSpecValues := by
  intro p hp
  refine ⟨fun reg hmapped => ?_, rfl, rfl, fun _ => rfl, rfl, rfl, rfl, rfl, rfl, ?_⟩
  · cases hr : Reg.ofAddr reg with
    | none => exact absurd ((ofAddr_eq_none_iff reg).1 hr) (Bool.eq_false_iff.1 hmapped)
    | some r =>
      rw [← addr_of_mem_ofAddr reg r hr]
      exact rdregReturnsFields _ _ _ rfl (registerValue_resetWith hp r)
  · rintro s ts rfl ht
    exact step_of_turn ht

/-- Settles O15: `State.Inv.of_reset` checks the invariant clause by clause. -/
theorem resetMeetsInvariant : Obligations.ResetMeetsInvariant := fun _ hp => State.Inv.of_reset hp

end Sys2Proof.Machine
